-- ==== Sys2Proof/Word.lean ====
section
/-! DEFINITION. The word types of the CORE (spec/00_scope.md R7 to R11): bytes, 32-bit and 64-bit words, byte
strings, register numbers. -/

namespace Sys2Proof

/-- One byte of BUF or of a byte string (20_memory.md R60). -/
abbrev Byte := BitVec 8

/-- A 32-bit word: a command word (30_encoding.md R90), a ChaCha word, a Poly1305 limb. -/
abbrev Word32 := BitVec 32

/-- A 64-bit word: a general or status register (10_state.md R20, R26). -/
abbrev Word := BitVec 64

/-- A byte string, its first byte first (00_scope.md R10). -/
abbrev Bytes := List Byte

/-- The number of a scalar register `x0` .. `x15` (10_state.md R20). -/
abbrev Reg := Fin 16

/-- The number N of a span operand `sN`, the pair (`xN`, `x((N+1) mod 16)`) (10_state.md R21). -/
abbrev SpanReg := Fin 16

end Sys2Proof
end

