-- ==== Sys2Proof/Syntax.lean ====
section
/-! DEFINITION. The 44 commands (spec/30_encoding.md R96, spec/opcode_table.json), one constructor each, operands in the
order ra, rb, rc, immediate (R100). -/

namespace Sys2Proof

/-- A command of the CORE. A `Reg` operand names a scalar register, a `SpanReg` operand a span (R96). -/
inductive Instr where
  -- control unit (40_control.md)
  | nop
  | ldi (xa : Reg) (imm20 : BitVec 20)
  | lds (xa : Reg) (imm20 : BitVec 20)
  | mov (xa xb : Reg)
  | rdsr (xa : Reg) (imm8 : BitVec 8)
  | clrerr
  -- BLAKE2 (41_blake2.md)
  | b2bInit (sa : SpanReg) (xb : Reg)
  | b2sInit (sa : SpanReg) (xb : Reg)
  | b2Update (sa : SpanReg)
  | b2Final (xa : Reg)
  -- ChaCha (42_chacha.md)
  | cc20Init (sa sb : SpanReg)
  | xcc20Init (sa sb : SpanReg)
  | ccXform (xa : Reg) (sb : SpanReg) (xc : Reg)
  -- Poly1305 (43_poly1305.md)
  | p13Init (sa : SpanReg)
  | p13Update (sa : SpanReg)
  | p13Final (xa : Reg)
  -- AEAD (44_aead.md)
  | aeadInit (sa sb sc : SpanReg)
  | aeadEnc (xa : Reg) (sb sc : SpanReg)
  | aeadDec (xa : Reg) (sb sc : SpanReg)
  -- key derivation (45_kdf.md)
  | kdfCfg (sa : SpanReg) (xb : Reg) (imm8 : BitVec 8)
  | pbkdf2 (sa sb : SpanReg) (xc : Reg)
  | hkdf (sa sb : SpanReg)
  -- PCG32 (47_pcg32.md)
  | pcgSeed (xa xb : Reg)
  | pcgNext (xa : Reg)
  | pcgRange (xa xb xc : Reg)
  | pcgJump (xa : Reg)
  | pcgGets (xa : Reg)
  -- BitOps on registers (48_bitops.md)
  | rotl32 (xa xb xc : Reg)
  | rotr32 (xa xb xc : Reg)
  | rotl64 (xa xb xc : Reg)
  | rotr64 (xa xb xc : Reg)
  | lzcnt32 (xa xb : Reg)
  | lzcnt64 (xa xb : Reg)
  | tzcnt32 (xa xb : Reg)
  | tzcnt64 (xa xb : Reg)
  | popcnt32 (xa xb : Reg)
  | popcnt64 (xa xb : Reg)
  | log2f (xa xb : Reg)
  | log2c (xa xb : Reg)
  | ispow2 (xa xb : Reg)
  | gcd (xa xb xc : Reg)
  | modinv (xa xb : Reg)
  -- BitOps on byte spans (48_bitops.md)
  | cteq (xa : Reg) (sb sc : SpanReg)
  | xorb (xa : Reg) (sb sc : SpanReg)
  deriving DecidableEq, Repr

end Sys2Proof
end

