-- ==== Sys2Proof/WellFormed.lean ====
section
/-! DEFINITION. Which commands the encoding has (spec/30_encoding.md R97): the only operands whose type is wider than what
the table admits are the two 8-bit immediates. -/

namespace Sys2Proof

/-- `RDSR` names one of the status registers 0 to 4 (10_state.md R26; 40_control.md R124). -/
def statusNumberOk (imm8 : BitVec 8) : Bool := imm8.toNat ≤ 4

/-- `KDF.CFG` names variant 0 (BLAKE2b) or 1 (BLAKE2s) (45_kdf.md R241). -/
def variantNumberOk (imm8 : BitVec 8) : Bool := imm8.toNat ≤ 1

/-- The command has a command word: every immediate is in the range the table gives it (30_encoding.md R96, R97). -/
def Instr.wellFormed : Instr → Bool
  | .rdsr _ imm8 => statusNumberOk imm8
  | .kdfCfg _ _ imm8 => variantNumberOk imm8
  | .nop => true
  | .ldi _ _ => true
  | .lds _ _ => true
  | .mov _ _ => true
  | .clrerr => true
  | .b2bInit _ _ => true
  | .b2sInit _ _ => true
  | .b2Update _ => true
  | .b2Final _ => true
  | .cc20Init _ _ => true
  | .xcc20Init _ _ => true
  | .ccXform _ _ _ => true
  | .p13Init _ => true
  | .p13Update _ => true
  | .p13Final _ => true
  | .aeadInit _ _ _ => true
  | .aeadEnc _ _ _ => true
  | .aeadDec _ _ _ => true
  | .pbkdf2 _ _ _ => true
  | .hkdf _ _ => true
  | .pcgSeed _ _ => true
  | .pcgNext _ => true
  | .pcgRange _ _ _ => true
  | .pcgJump _ => true
  | .pcgGets _ => true
  | .rotl32 _ _ _ => true
  | .rotr32 _ _ _ => true
  | .rotl64 _ _ _ => true
  | .rotr64 _ _ _ => true
  | .lzcnt32 _ _ => true
  | .lzcnt64 _ _ => true
  | .tzcnt32 _ _ => true
  | .tzcnt64 _ _ => true
  | .popcnt32 _ _ => true
  | .popcnt64 _ _ => true
  | .log2f _ _ => true
  | .log2c _ _ => true
  | .ispow2 _ _ => true
  | .gcd _ _ _ => true
  | .modinv _ _ => true
  | .cteq _ _ _ => true
  | .xorb _ _ _ => true

end Sys2Proof
end

