-- ==== Sys2Proof/Decode.lean ====
section
/-! DEFINITION. The decoder and the encoder (spec/30_encoding.md R90 to R98). A command word is a number, so there is no byte
order here (R90). -/

namespace Sys2Proof

/-- Why a command word is illegal (30_encoding.md R97). -/
inductive DecodeError where
  /-- the opcode is unassigned -/
  | unassignedOpcode
  /-- a must-be-zero field is not zero (R94) -/
  | mustBeZero
  /-- the immediate of RDSR or KDF.CFG is out of range -/
  | immediateRange
  deriving DecidableEq, Repr

/-- `w[hi:lo]` as an unsigned number (00_scope.md R8). -/
def bits (w : Word32) (hi lo : Nat) : Nat := w.toNat / 2 ^ lo % 2 ^ (hi + 1 - lo)

/-- A four-bit field of the word as a register number. -/
def regField (w : Word32) (lo : Nat) : Reg := ⟨w.toNat / 2 ^ lo % 16, Nat.mod_lt _ (by decide)⟩

/-- `ra = W[23:20]` (R91, R98). -/
def fieldA (w : Word32) : Reg := regField w 20
/-- `rb = W[19:16]` (R91, R98). -/
def fieldB (w : Word32) : Reg := regField w 16
/-- `rc = W[15:12]` (R91, R98). -/
def fieldC (w : Word32) : Reg := regField w 12
/-- `imm8 = W[7:0]` (R91, R98). -/
def fieldImm8 (w : Word32) : BitVec 8 := BitVec.ofNat 8 (bits w 7 0)
/-- `imm20 = W[19:0]` (R92, R98). -/
def fieldImm20 (w : Word32) : BitVec 20 := BitVec.ofNat 20 (bits w 19 0)

/-- The word is the command `i` if its must-be-zero bits `hi:lo` are zero (R94). -/
def mustBeZero (w : Word32) (hi lo : Nat) (i : Instr) : Except DecodeError Instr :=
  if bits w hi lo = 0 then .ok i else .error .mustBeZero

/-- A row of the table with no operand: mask 0xFFFFFFFF. -/
def rowNone (w : Word32) (c : Instr) : Except DecodeError Instr := mustBeZero w 23 0 c
/-- A row with the operand `ra`: mask 0xFF0FFFFF. -/
def rowA (w : Word32) (c : Reg → Instr) : Except DecodeError Instr := mustBeZero w 19 0 (c (fieldA w))
/-- A row with the operands `ra`, `rb`: mask 0xFF00FFFF. -/
def rowAB (w : Word32) (c : Reg → Reg → Instr) : Except DecodeError Instr :=
  mustBeZero w 15 0 (c (fieldA w) (fieldB w))
/-- A row with the operands `ra`, `rb`, `rc`: mask 0xFF000FFF. -/
def rowABC (w : Word32) (c : Reg → Reg → Reg → Instr) : Except DecodeError Instr :=
  mustBeZero w 11 0 (c (fieldA w) (fieldB w) (fieldC w))

/-- A decoded command whose immediate must still be in range (R97). -/
def immediateInRange (r : Except DecodeError Instr) : Except DecodeError Instr :=
  match r with
  | .ok i => if i.wellFormed then .ok i else .error .immediateRange
  | .error e => .error e

/-- RDSR: mask 0xFF0FFF00, then imm8 = 0..4 (R96, R97). -/
def rowRdsr (w : Word32) : Except DecodeError Instr :=
  immediateInRange (mustBeZero w 19 8 (.rdsr (fieldA w) (fieldImm8 w)))
/-- KDF.CFG: `rc` and `z` zero, then imm8 = 0..1 (R96, R97; 45_kdf.md R241). -/
def rowKdfCfg (w : Word32) : Except DecodeError Instr :=
  immediateInRange (mustBeZero w 15 8 (.kdfCfg (fieldA w) (fieldB w) (fieldImm8 w)))

/-- The row of the table of R96 that an opcode names, applied to a word of that opcode: the must-be-zero fields and the
immediate range are checked, then the fields are taken (R98). -/
def decodeRow (opc : Nat) (w : Word32) : Except DecodeError Instr :=
  match opc with
  | 0x00 => rowNone w .nop
  | 0x01 => .ok (.ldi (fieldA w) (fieldImm20 w))
  | 0x02 => .ok (.lds (fieldA w) (fieldImm20 w))
  | 0x03 => rowAB w .mov
  | 0x04 => rowRdsr w
  | 0x05 => rowNone w .clrerr
  | 0x10 => rowAB w .b2bInit
  | 0x11 => rowAB w .b2sInit
  | 0x12 => rowA w .b2Update
  | 0x13 => rowA w .b2Final
  | 0x20 => rowAB w .cc20Init
  | 0x21 => rowAB w .xcc20Init
  | 0x22 => rowABC w .ccXform
  | 0x30 => rowA w .p13Init
  | 0x31 => rowA w .p13Update
  | 0x32 => rowA w .p13Final
  | 0x40 => rowABC w .aeadInit
  | 0x41 => rowABC w .aeadEnc
  | 0x42 => rowABC w .aeadDec
  | 0x50 => rowKdfCfg w
  | 0x51 => rowABC w .pbkdf2
  | 0x52 => rowAB w .hkdf
  | 0x60 => rowAB w .pcgSeed
  | 0x61 => rowA w .pcgNext
  | 0x62 => rowABC w .pcgRange
  | 0x63 => rowA w .pcgJump
  | 0x64 => rowA w .pcgGets
  | 0x70 => rowABC w .rotl32
  | 0x71 => rowABC w .rotr32
  | 0x72 => rowABC w .rotl64
  | 0x73 => rowABC w .rotr64
  | 0x74 => rowAB w .lzcnt32
  | 0x75 => rowAB w .lzcnt64
  | 0x76 => rowAB w .tzcnt32
  | 0x77 => rowAB w .tzcnt64
  | 0x78 => rowAB w .popcnt32
  | 0x79 => rowAB w .popcnt64
  | 0x7A => rowAB w .log2f
  | 0x7B => rowAB w .log2c
  | 0x7C => rowAB w .ispow2
  | 0x7D => rowABC w .gcd
  | 0x7E => rowAB w .modinv
  | 0x80 => rowABC w .cteq
  | 0x81 => rowABC w .xorb
  | _ => .error .unassignedOpcode

/-- Decoding, in full (R98): look up `opc = W[31:24]` in the table of R96, then check the row. Total on every word; it reads no
state. -/
def decode (w : Word32) : Except DecodeError Instr := decodeRow (bits w 31 24) w

/-- The word of a format R command (R91), its reserved field `z` zero. -/
def formatR (opc : Nat) (ra rb rc : Reg) (imm8 : BitVec 8) : Word32 :=
  BitVec.ofNat 32 (opc * 2 ^ 24 + ra.val * 2 ^ 20 + rb.val * 2 ^ 16 + rc.val * 2 ^ 12 + imm8.toNat)

/-- The word of a format I command (R92). -/
def formatI (opc : Nat) (ra : Reg) (imm20 : BitVec 20) : Word32 :=
  BitVec.ofNat 32 (opc * 2 ^ 24 + ra.val * 2 ^ 20 + imm20.toNat)

/-- The word of a command, from the table of R96: every field the command does not use is zero (R94). -/
def encode : Instr → Word32
  | .nop => formatR 0x00 0 0 0 0
  | .ldi xa imm20 => formatI 0x01 xa imm20
  | .lds xa imm20 => formatI 0x02 xa imm20
  | .mov xa xb => formatR 0x03 xa xb 0 0
  | .rdsr xa imm8 => formatR 0x04 xa 0 0 imm8
  | .clrerr => formatR 0x05 0 0 0 0
  | .b2bInit sa xb => formatR 0x10 sa xb 0 0
  | .b2sInit sa xb => formatR 0x11 sa xb 0 0
  | .b2Update sa => formatR 0x12 sa 0 0 0
  | .b2Final xa => formatR 0x13 xa 0 0 0
  | .cc20Init sa sb => formatR 0x20 sa sb 0 0
  | .xcc20Init sa sb => formatR 0x21 sa sb 0 0
  | .ccXform xa sb xc => formatR 0x22 xa sb xc 0
  | .p13Init sa => formatR 0x30 sa 0 0 0
  | .p13Update sa => formatR 0x31 sa 0 0 0
  | .p13Final xa => formatR 0x32 xa 0 0 0
  | .aeadInit sa sb sc => formatR 0x40 sa sb sc 0
  | .aeadEnc xa sb sc => formatR 0x41 xa sb sc 0
  | .aeadDec xa sb sc => formatR 0x42 xa sb sc 0
  | .kdfCfg sa xb imm8 => formatR 0x50 sa xb 0 imm8
  | .pbkdf2 sa sb xc => formatR 0x51 sa sb xc 0
  | .hkdf sa sb => formatR 0x52 sa sb 0 0
  | .pcgSeed xa xb => formatR 0x60 xa xb 0 0
  | .pcgNext xa => formatR 0x61 xa 0 0 0
  | .pcgRange xa xb xc => formatR 0x62 xa xb xc 0
  | .pcgJump xa => formatR 0x63 xa 0 0 0
  | .pcgGets xa => formatR 0x64 xa 0 0 0
  | .rotl32 xa xb xc => formatR 0x70 xa xb xc 0
  | .rotr32 xa xb xc => formatR 0x71 xa xb xc 0
  | .rotl64 xa xb xc => formatR 0x72 xa xb xc 0
  | .rotr64 xa xb xc => formatR 0x73 xa xb xc 0
  | .lzcnt32 xa xb => formatR 0x74 xa xb 0 0
  | .lzcnt64 xa xb => formatR 0x75 xa xb 0 0
  | .tzcnt32 xa xb => formatR 0x76 xa xb 0 0
  | .tzcnt64 xa xb => formatR 0x77 xa xb 0 0
  | .popcnt32 xa xb => formatR 0x78 xa xb 0 0
  | .popcnt64 xa xb => formatR 0x79 xa xb 0 0
  | .log2f xa xb => formatR 0x7A xa xb 0 0
  | .log2c xa xb => formatR 0x7B xa xb 0 0
  | .ispow2 xa xb => formatR 0x7C xa xb 0 0
  | .gcd xa xb xc => formatR 0x7D xa xb xc 0
  | .modinv xa xb => formatR 0x7E xa xb 0 0
  | .cteq xa sb sc => formatR 0x80 xa sb sc 0
  | .xorb xa sb sc => formatR 0x81 xa sb sc 0

/-- A row of the opcode table (30_encoding.md R96): a word `W` is the row's command when `W & mask = match` and its low byte is at
most `maxImm8` (below 255 for RDSR only, R97). -/
structure OpcodeRow where
  mnemonic : String
  opmatch : Word32
  mask : Word32
  maxImm8 : Nat := 255
  deriving DecidableEq, Repr

/-- The complete table, 44 commands (30_encoding.md R96; spec/opcode_table.json). The decoder does not read it: that the two
agree is a claim. -/
def opcodeTable : List OpcodeRow :=
  -- unit 0x0: control
  [{ mnemonic := "NOP", opmatch := 0x00000000, mask := 0xFFFFFFFF },
   { mnemonic := "LDI", opmatch := 0x01000000, mask := 0xFF000000 },
   { mnemonic := "LDS", opmatch := 0x02000000, mask := 0xFF000000 },
   { mnemonic := "MOV", opmatch := 0x03000000, mask := 0xFF00FFFF },
   { mnemonic := "RDSR", opmatch := 0x04000000, mask := 0xFF0FFF00, maxImm8 := 4 },
   { mnemonic := "CLRERR", opmatch := 0x05000000, mask := 0xFFFFFFFF }] ++
  -- unit 0x1: BLAKE2
  [{ mnemonic := "B2B.INIT", opmatch := 0x10000000, mask := 0xFF00FFFF },
   { mnemonic := "B2S.INIT", opmatch := 0x11000000, mask := 0xFF00FFFF },
   { mnemonic := "B2.UPDATE", opmatch := 0x12000000, mask := 0xFF0FFFFF },
   { mnemonic := "B2.FINAL", opmatch := 0x13000000, mask := 0xFF0FFFFF }] ++
  -- unit 0x2: ChaCha
  [{ mnemonic := "CC20.INIT", opmatch := 0x20000000, mask := 0xFF00FFFF },
   { mnemonic := "XCC20.INIT", opmatch := 0x21000000, mask := 0xFF00FFFF },
   { mnemonic := "CC.XFORM", opmatch := 0x22000000, mask := 0xFF000FFF }] ++
  -- unit 0x3: Poly1305
  [{ mnemonic := "P13.INIT", opmatch := 0x30000000, mask := 0xFF0FFFFF },
   { mnemonic := "P13.UPDATE", opmatch := 0x31000000, mask := 0xFF0FFFFF },
   { mnemonic := "P13.FINAL", opmatch := 0x32000000, mask := 0xFF0FFFFF }] ++
  -- unit 0x4: AEAD
  [{ mnemonic := "AEAD.INIT", opmatch := 0x40000000, mask := 0xFF000FFF },
   { mnemonic := "AEAD.ENC", opmatch := 0x41000000, mask := 0xFF000FFF },
   { mnemonic := "AEAD.DEC", opmatch := 0x42000000, mask := 0xFF000FFF }] ++
  -- unit 0x5: KDF
  [{ mnemonic := "KDF.CFG", opmatch := 0x50000000, mask := 0xFF00FFFE },
   { mnemonic := "PBKDF2", opmatch := 0x51000000, mask := 0xFF000FFF },
   { mnemonic := "HKDF", opmatch := 0x52000000, mask := 0xFF00FFFF }] ++
  -- unit 0x6: PCG32
  [{ mnemonic := "PCG.SEED", opmatch := 0x60000000, mask := 0xFF00FFFF },
   { mnemonic := "PCG.NEXT", opmatch := 0x61000000, mask := 0xFF0FFFFF },
   { mnemonic := "PCG.RANGE", opmatch := 0x62000000, mask := 0xFF000FFF },
   { mnemonic := "PCG.JUMP", opmatch := 0x63000000, mask := 0xFF0FFFFF },
   { mnemonic := "PCG.GETS", opmatch := 0x64000000, mask := 0xFF0FFFFF }] ++
  -- unit 0x7: BitOps on registers
  [{ mnemonic := "ROTL32", opmatch := 0x70000000, mask := 0xFF000FFF },
   { mnemonic := "ROTR32", opmatch := 0x71000000, mask := 0xFF000FFF },
   { mnemonic := "ROTL64", opmatch := 0x72000000, mask := 0xFF000FFF },
   { mnemonic := "ROTR64", opmatch := 0x73000000, mask := 0xFF000FFF },
   { mnemonic := "LZCNT32", opmatch := 0x74000000, mask := 0xFF00FFFF },
   { mnemonic := "LZCNT64", opmatch := 0x75000000, mask := 0xFF00FFFF },
   { mnemonic := "TZCNT32", opmatch := 0x76000000, mask := 0xFF00FFFF },
   { mnemonic := "TZCNT64", opmatch := 0x77000000, mask := 0xFF00FFFF },
   { mnemonic := "POPCNT32", opmatch := 0x78000000, mask := 0xFF00FFFF },
   { mnemonic := "POPCNT64", opmatch := 0x79000000, mask := 0xFF00FFFF },
   { mnemonic := "LOG2F", opmatch := 0x7A000000, mask := 0xFF00FFFF },
   { mnemonic := "LOG2C", opmatch := 0x7B000000, mask := 0xFF00FFFF },
   { mnemonic := "ISPOW2", opmatch := 0x7C000000, mask := 0xFF00FFFF },
   { mnemonic := "GCD", opmatch := 0x7D000000, mask := 0xFF000FFF },
   { mnemonic := "MODINV", opmatch := 0x7E000000, mask := 0xFF00FFFF }] ++
  -- unit 0x8: BitOps on byte spans
  [{ mnemonic := "CTEQ", opmatch := 0x80000000, mask := 0xFF000FFF },
   { mnemonic := "XORB", opmatch := 0x81000000, mask := 0xFF000FFF }]

/-- The word matches the row (R96, R97). -/
abbrev OpcodeRow.matches (row : OpcodeRow) (w : Word32) : Prop :=
  w &&& row.mask = row.opmatch ∧ w.toNat % 256 ≤ row.maxImm8

/-- The host's entry to the decoder: the command that the decoder reads from the word `w`, numbered as
spec/opcode_table.json numbers it (bit 0 least significant), the bits from `nbits` up being zero. -/
def decodeTableWord (nbits w : Nat) : Option Instr :=
  match decode (BitVec.ofNat 32 (w % 2 ^ nbits)) with
  | .ok i => some i
  | .error _ => none

end Sys2Proof
end

