-- ==== Sys2Proof/Machine/Bytes.lean ====
section
/-! DEFINITION. Word and byte-string helpers (spec/00_scope.md R8 to R10; spec/20_memory.md R62, R63). -/

namespace Sys2Proof.Machine

/-- `rotl_w(v, n)` for n < w (R9); n = 0 returns v. -/
def rotl {w : Nat} (v : BitVec w) (n : Nat) : BitVec w := v <<< n ||| v >>> (w - n)

/-- `rotr_w(v, n) = rotl_w(v, (w − n) mod w)` (R9). -/
def rotr {w : Nat} (v : BitVec w) (n : Nat) : BitVec w := rotl v ((w - n) % w)

/-- `ceil(a / b)` (R8). -/
def ceilDiv (a b : Nat) : Nat := (a + b - 1) / b

/-- `zeros(n)` (R10). -/
def zeros (n : Nat) : Bytes := List.replicate n 0

/-- `B[i:j]` (R10). -/
def slice (b : Bytes) (i j : Nat) : Bytes := (b.drop i).take (j - i)

/-- `le(B)`: the first byte least significant (R10). -/
def le : Bytes → Nat
  | [] => 0
  | b :: bs => b.toNat + 256 * le bs

/-- `to_le(v, n)`: the n bytes whose `le` is v mod 256^n (R10). -/
def toLe (v : Nat) : Nat → Bytes
  | 0 => []
  | n + 1 => BitVec.ofNat 8 v :: toLe (v / 256) n

/-- `to_be(v, n)` (R10). -/
def toBe (v n : Nat) : Bytes := (toLe v n).reverse

/-- `pad16(n)`: the zero bytes that bring a length n to a multiple of 16 (R10). -/
def pad16 (n : Nat) : Bytes := zeros ((16 - n % 16) % 16)

/-- The bytewise exclusive or of two strings of one length. -/
def xorBytes (a b : Bytes) : Bytes := List.zipWith (· ^^^ ·) a b

/-- The constant-time comparison (48_bitops.md R316; 44_aead.md R226): the OR of the XOR of the bytes over the whole overlap,
and 1 more for any length difference, tested for zero once at the end. -/
def ctEqual (a b : Bytes) : Bool :=
  let acc := (xorBytes a b).foldl (· ||| ·) 0
  let acc := if a.length ≠ b.length then acc ||| 1 else acc
  acc == 0

/-- `buf[0 : len(bs)] <- bs`; the bytes beyond `bs` stay. -/
def overwrite {n : Nat} (buf : Vector Byte n) (bs : Bytes) : Vector Byte n :=
  Vector.ofFn fun i => bs.getD i.val (buf.get i)

end Sys2Proof.Machine
end

