-- ==== Sys2Proof/Config.lean ====
section
/-! DEFINITION. What an instance of the CORE fixes (spec/00_scope.md R7) and what the spec leaves open:
the size of BUF, and the bytes BUF holds after reset. -/

namespace Sys2Proof

/-- The parameters of one instance of the hardware. `BUF_BYTES` is the only one (00_scope.md R7, D5); the model carries
it in State, so that every statement speaks of every size [log 3]. -/
structure Config where
  /-- `BUF_BYTES`, with 1 ≤ BUF_BYTES ≤ 2^32 (`Config.wf`). -/
  bufBytes : Nat
  deriving DecidableEq, Repr

/-- The bound of 00_scope.md R7 on the parameter. -/
abbrev Config.wf (c : Config) : Prop := 1 ≤ c.bufBytes ∧ c.bufBytes ≤ 2 ^ 32

/-- The spec's default, BUF_BYTES = 65536 (00_scope.md R7). -/
def Config.standard : Config := { bufBytes := 65536 }

/-- FREE VALUE. The byte that address `addr` of BUF holds when nothing has been written there since reset number
`epoch`: "The contents of `BUF` after reset are unspecified: a model takes them as arbitrary bytes" (10_state.md R45;
93_implementation_defined.md U4). No body: nothing in Lean knows its value [log 2]. -/
opaque Config.unwrittenByte (epoch addr : Nat) : Byte

end Sys2Proof
end

