-- ==== Sys2Proof/Machine/State.lean ====
section
/-! DEFINITION. The architectural state of the CORE (spec/10_state.md), its value after reset (R45), and the reasons a step
of the model can stop. -/

namespace Sys2Proof.Machine

/-- The variant of a BLAKE2 session or of the KDF's hash: bit value 0 or 1 (10_state.md R30, R40). -/
inductive Variant where
  /-- 0: BLAKE2b, w = 64, BB = 128 -/
  | blake2b
  /-- 1: BLAKE2s, w = 32, BB = 64 -/
  | blake2s
  deriving DecidableEq, Repr

/-- The variant of the ChaCha context: bit value 0 or 1 (R33). -/
inductive CipherVariant where
  /-- 0 -/
  | chacha20
  /-- 1 -/
  | xchacha20
  deriving DecidableEq, Repr

/-- The phase of a session that one FINAL command ends: 0, 1, 2 (R32, R37). The two-bit field never holds 3 [log 12]. -/
inductive SessionPhase where
  /-- 0: no session -/
  | idle
  /-- 1: after INIT -/
  | active
  /-- 2: after FINAL -/
  | done
  deriving DecidableEq, Repr

/-- The phase of a context that use does not consume: 0, 1 (R35, R40). -/
inductive ContextPhase where
  /-- 0 -/
  | idle
  /-- 1: after the INIT or CFG command -/
  | ready
  deriving DecidableEq, Repr

/-- The phase of the AEAD controller: 0, 1, 2 (R39). -/
inductive AeadPhase where
  /-- 0 -/
  | idle
  /-- 1: after AEAD.INIT -/
  | ready
  /-- 2: after AEAD.ENC, or AEAD.DEC whether it verified or not -/
  | done
  deriving DecidableEq, Repr

/-- The detail codes of UsageError (60_exceptions.md R342), in the order of the checks (R345). -/
inductive Detail where
  /-- 1 -/
  | illegalCmd
  /-- 2 -/
  | badPhase
  /-- 3 -/
  | badLength
  /-- 4 -/
  | badCount
  /-- 5 -/
  | badSpan
  /-- 6 -/
  | overlap
  /-- 7 -/
  | badCounter
  /-- 8 -/
  | badOperand
  deriving DecidableEq, Repr

/-- The errors a command can raise: DC's three classes and no other (60_exceptions.md R340). -/
inductive Error where
  | usage (d : Detail)
  | authentication
  | arithmeticOverflow
  deriving DecidableEq, Repr

/-- The completion status of a command: 0, or the cause code 1 to 3 (60_exceptions.md R341, R343). -/
inductive Status where
  | ok
  | usageError
  | authenticationError
  | arithmeticOverflow
  deriving DecidableEq, Repr

/-- The BLAKE2 session `b2` (R30): one set of fields serves both variants; BLAKE2s keeps the upper halves of `h` zero and
uses the first 64 bytes of `buf`. -/
structure Blake2 where
  phase : SessionPhase
  var : Variant
  /-- the compress-first-block flag -/
  cfb : Bool
  h : Vector Word 8
  buf : Vector Byte 128
  /-- bytes of `buf` that hold input not yet compressed, 0..128 -/
  fill : Nat
  /-- the byte counter -/
  t : BitVec 128
  /-- the requested digest length, 1..64 -/
  outlen : Nat
  deriving DecidableEq, Repr

/-- The ChaCha context `cc` (R33). -/
structure Chacha where
  phase : ContextPhase
  var : CipherVariant
  w : Vector Word32 16
  deriving DecidableEq, Repr

/-- The fields of a Poly1305 session but for its phase: `p13`'s (R36) and those of the AEAD controller's private session
`aead.p` (R38). `s5` holds `s5[1]` .. `s5[4]` at the indices 0 .. 3. -/
structure PolyMac where
  h : Vector Word32 5
  r : Vector Word32 5
  s5 : Vector Word32 4
  pad : Vector Word32 4
  buf : Vector Byte 16
  /-- bytes of `buf` not yet absorbed, 0..15 -/
  fill : Nat
  deriving DecidableEq, Repr

/-- The Poly1305 session `p13` (R36, R37). -/
structure Poly1305 where
  phase : SessionPhase
  mac : PolyMac
  deriving DecidableEq, Repr

/-- The AEAD controller `aead` (R38, R39): a private ChaCha context and a private Poly1305 session. -/
structure Aead where
  phase : AeadPhase
  w : Vector Word32 16
  p : PolyMac
  aadlen : Word
  deriving DecidableEq, Repr

/-- The KDF engine `kdf` (R40). -/
structure Kdf where
  phase : ContextPhase
  var : Variant
  key : Vector Byte 64
  keylen : Nat
  outlen : Nat
  deriving DecidableEq, Repr

/-- The generator `pcg` (R42); its field `pcg.state` is `lcg` here. -/
structure Pcg where
  lcg : Word
  inc : Word
  deriving DecidableEq, Repr

/-- The bytes of BUF that have been written since reset, as (address, byte) cells with strictly rising addresses
(20_memory.md R60, R69). An address with no cell has not been written; what it reads as is `Config.unwrittenByte` [log 2]. -/
abbrev Memory := List Host.Cell

/-- The canonical form: addresses strictly rising. No cell stands for a byte that was never written, and an address that
was never written has no cell, so equal contents are equal lists. -/
abbrev Memory.wf (m : Memory) : Prop := m.Pairwise fun c d => c.1 < d.1

/-- What the host does next (10_state.md R24; 20_memory.md R72; 70_reset_and_hazards.md R380) [log 1]. Reading a
register or a byte changes nothing and is no event [log 15]. -/
inductive HostEvent where
  /-- give a command word on the command port -/
  | command (w : Word32)
  /-- write bytes to BUF from an address on -/
  | writeBuf (addr : Nat) (bytes : Bytes)
  /-- cause reset -/
  | reset
  deriving DecidableEq, Repr

/-- The state of the CORE (10_state.md), the instance's parameter, and the host's pending events. -/
structure State where
  /-- the instance's parameters; no step changes them (R7) -/
  cfg : Config
  /-- the general registers x0 .. x15 (R20) -/
  x : Vector Word 16
  /-- SR0 (R27) -/
  errflags : Word
  /-- SR1 (R28) -/
  lasterr : Word
  /-- SR2 (R28) -/
  lastcmd : Word
  /-- SR4 (R24, R29) -/
  cmdcnt : Word
  /-- the completion status the command port gave last; none until a command has completed since reset
  (60_exceptions.md R343) [log 4] -/
  status : Option Status
  /-- the BLAKE2 session (R30) -/
  b2 : Blake2
  /-- the ChaCha context (R33) -/
  cc : Chacha
  /-- the Poly1305 session (R36) -/
  p13 : Poly1305
  /-- the AEAD controller (R38) -/
  aead : Aead
  /-- the KDF engine (R40) -/
  kdf : Kdf
  /-- the generator (R42) -/
  pcg : Pcg
  /-- the bytes of BUF written since reset (R43) -/
  buf : Memory
  /-- the MODEL's own field: the number of reset events taken; selects BUF's free bytes [log 5] -/
  resets : Nat
  /-- the MODEL's own field: what the host does next, first event first [log 1] -/
  port : List HostEvent
  deriving DecidableEq, Repr

/-- The stops of the model. No command of a machine that meets `State.Inv` raises one: the spec gives every command word
in every state a defined outcome (93_implementation_defined.md, end of Part 1). -/
inductive Fault where
  /-- Raised by a step whose host event writes outside BUF: the spec has no such address (20_memory.md R60) and says nothing of
  such an access. Safe [log 7]. -/
  | hostWriteOutsideBuf
  /-- Raised by PCG.RANGE when 2^64 draws in a row were rejected: the redraw loop of 47_pcg32.md R284 would then never end.
  Only states with an even `pcg.inc` can reach it, and no run does. Safe [log 6]. -/
  | redrawEndless
  deriving DecidableEq, Repr

/-- The refusals of the model. -/
inductive Refusal where
  /-- Raised by exec for a command that has no meaning yet; every command has one, so nothing raises it. Safe. -/
  | notModelled (mnemonic : String)
  deriving DecidableEq, Repr

/-- A Poly1305 session with every field zero (R45). -/
def PolyMac.zero : PolyMac :=
  { h := .replicate 5 0, r := .replicate 5 0, s5 := .replicate 4 0, pad := .replicate 4 0, buf := .replicate 16 0, fill := 0 }

/-- A BLAKE2 session with every field zero (R45). -/
def Blake2.zero : Blake2 :=
  { phase := .idle, var := .blake2b, cfb := false, h := .replicate 8 0, buf := .replicate 128 0, fill := 0, t := 0,
    outlen := 0 }

/-- The state after a reset of an instance with parameters `cfg`, the `resets`-th of the run, with the host's further
events `port` still to come (R45; 70_reset_and_hazards.md R380). -/
def State.afterReset (cfg : Config) (resets : Nat) (port : List HostEvent) : State :=
  { cfg, x := .replicate 16 0, errflags := 0, lasterr := 0, lastcmd := 0, cmdcnt := 0, status := none
    b2 := Blake2.zero
    cc := { phase := .idle, var := .chacha20, w := .replicate 16 0 }
    p13 := { phase := .idle, mac := PolyMac.zero }
    aead := { phase := .idle, w := .replicate 16 0, p := PolyMac.zero, aadlen := 0 }
    kdf := { phase := .idle, var := .blake2b, key := .replicate 64 0, keylen := 0, outlen := 0 }
    pcg := { lcg := 0, inc := 1 }
    buf := [], resets, port }

/-- The machine right after reset (R45), with the spec's default BUF_BYTES (R7) and a host that has given nothing yet. -/
def State.reset : State := State.afterReset Config.standard 0 []

end Sys2Proof.Machine
end

