-- ==== Sys2Proof/Machine/Flags.lean ====
section
/-! DEFINITION. The status registers (spec/10_state.md R25 to R29) and the codes recorded in them (spec/60_exceptions.md R341,
R342). The hardware has no arithmetic flag: no carry, zero, sign or overflow bit (10_state.md R25). -/

namespace Sys2Proof.Machine

/-- The detail code of a UsageError (60_exceptions.md R342). -/
def Detail.code : Detail → Nat
  | .illegalCmd => 1
  | .badPhase => 2
  | .badLength => 3
  | .badCount => 4
  | .badSpan => 5
  | .overlap => 6
  | .badCounter => 7
  | .badOperand => 8

/-- The completion status an error gives (60_exceptions.md R341, R343). -/
def Error.status : Error → Status
  | .usage _ => .usageError
  | .authentication => .authenticationError
  | .arithmeticOverflow => .arithmeticOverflow

/-- The number of a completion status: 0 OK, else the cause code (60_exceptions.md R341). -/
def Status.code : Status → Nat
  | .ok => 0
  | .usageError => 1
  | .authenticationError => 2
  | .arithmeticOverflow => 3

/-- The cause code of an error: 1, 2 or 3 (60_exceptions.md R341). -/
def Error.cause (e : Error) : Nat := e.status.code

/-- The detail code of an error, 0 for causes 2 and 3 (60_exceptions.md R342). -/
def Error.detail : Error → Nat
  | .usage d => d.code
  | .authentication => 0
  | .arithmeticOverflow => 0

/-- The bit of SR0 that an error sets: bit (cause − 1) (60_exceptions.md R341, R344 (b)). -/
def Error.flag (e : Error) : Word := BitVec.ofNat 64 (2 ^ (e.cause - 1))

/-- What an error writes to SR1: c | (d × 2^8) (60_exceptions.md R344 (c)). -/
def Error.record (e : Error) : Word := BitVec.ofNat 64 (e.cause ||| e.detail * 2 ^ 8)

def Variant.code : Variant → Nat
  | .blake2b => 0
  | .blake2s => 1

def CipherVariant.code : CipherVariant → Nat
  | .chacha20 => 0
  | .xchacha20 => 1

def SessionPhase.code : SessionPhase → Nat
  | .idle => 0
  | .active => 1
  | .done => 2

def ContextPhase.code : ContextPhase → Nat
  | .idle => 0
  | .ready => 1

def AeadPhase.code : AeadPhase → Nat
  | .idle => 0
  | .ready => 1
  | .done => 2

/-- SR3 = PHASE: the phases and variants of the sessions, packed (10_state.md R29). -/
def State.phaseWord (s : State) : Word :=
  BitVec.ofNat 64
    (s.b2.phase.code + s.b2.var.code * 2 ^ 2 + s.b2.cfb.toNat * 2 ^ 3 + s.cc.phase.code * 2 ^ 4 + s.cc.var.code * 2 ^ 6
      + s.p13.phase.code * 2 ^ 8 + s.aead.phase.code * 2 ^ 12 + s.kdf.phase.code * 2 ^ 16 + s.kdf.var.code * 2 ^ 18)

/-- The status register of number `n` (10_state.md R26); SR4 counts the commands completed before this read (R29). There is
no register of a number above 4: RDSR of one is illegal (R26) and `execRdsr` raises before it would read here. -/
def State.statusRegister (s : State) (n : Nat) : Word :=
  match n with
  | 0 => s.errflags
  | 1 => s.lasterr
  | 2 => s.lastcmd
  | 3 => s.phaseWord
  | 4 => s.cmdcnt
  | _ => 0

end Sys2Proof.Machine
end

