-- ==== Sys2Proof/Machine/Operands.lean ====
section
/-! DEFINITION. Operand forms and the checks on them (spec/10_state.md R20 to R22; spec/20_memory.md R64 to R66, R77): a
scalar register, a span, `CheckSpan`, `Overlap`, and the list of checks of a command. -/

namespace Sys2Proof.Machine

/-- `x[r]`, the value of a scalar register (10_state.md R20). -/
def State.getX (s : State) (r : Reg) : Word := s.x.get r

/-- The value of a scalar register as the unsigned number it is (20_memory.md R60). -/
def State.xNat (s : State) (r : Reg) : Nat := (s.getX r).toNat

/-- The address of a span operand: `x[N]` (10_state.md R21). -/
def State.spanAddr (s : State) (r : SpanReg) : Nat := s.xNat r

/-- The length of a span operand: `x[(N + 1) mod 16]`; `s15` is the pair (x15, x0) (10_state.md R21). -/
def State.spanLen (s : State) (r : SpanReg) : Nat := s.xNat (r + 1)

/-- `CheckSpan(addr, n)` holds: the region is empty, or lies in BUF; the sum does not wrap (20_memory.md R64, R65). -/
def State.spanOk (s : State) (addr n : Nat) : Bool := n == 0 || decide (addr + n ≤ s.cfg.bufBytes)

/-- `Overlap(a1, n1, a2, n2)`: the two regions share a byte (20_memory.md R66). -/
def overlap (a1 n1 a2 n2 : Nat) : Bool :=
  decide (0 < n1) && decide (0 < n2) && decide (a1 < a2 + n2) && decide (a2 < a1 + n1)

/-- The destination (d, n) and the source (a, n) are disjoint or the same region: the in-place exception of
20_memory.md R66. -/
def disjointOrSame (d a n : Nat) : Bool := !overlap d n a n || decide (d = a)

/-- One check of a command: whether it passes, and the error it raises if not. -/
abbrev Check := Bool × Error

/-- The error of the first check that fails; the later ones are not evaluated (60_exceptions.md R345). -/
def firstFailing : List Check → Option Error
  | [] => none
  | (true, _) :: rest => firstFailing rest
  | (false, e) :: _ => some e

/-- A check on a session's phase (R342 code 2). -/
def needPhase (ok : Bool) : Check := (ok, .usage .badPhase)
/-- A check on lengths (R342 code 3). -/
def needLength (ok : Bool) : Check := (ok, .usage .badLength)
/-- A check on an iteration count or a requested key length (R342 code 4). -/
def needCount (ok : Bool) : Check := (ok, .usage .badCount)
/-- `CheckSpan(addr, n)` (R342 code 5). -/
def needSpan (s : State) (addr n : Nat) : Check := (s.spanOk addr n, .usage .badSpan)
/-- A distinctness check (R342 code 6). -/
def needDistinct (ok : Bool) : Check := (ok, .usage .overlap)
/-- A check on the ChaCha20 caller counter (R342 code 7). -/
def needCounter (ok : Bool) : Check := (ok, .usage .badCounter)
/-- A check on a register operand's value (R342 code 8). -/
def needOperand (ok : Bool) : Check := (ok, .usage .badOperand)
/-- The block counter must not pass 2^64 − 1 (42_chacha.md R178). -/
def needNoOverflow (ok : Bool) : Check := (ok, .arithmeticOverflow)

end Sys2Proof.Machine
end

