-- ==== Sys2Proof/Machine/Ops.lean ====
section
/-! DEFINITION. The shared operations: writing a register, reading and writing BUF, raising an error, completing a command
(spec/00_scope.md R11; spec/20_memory.md R68, R69; spec/60_exceptions.md R343, R344). There is no return from an error:
nothing is saved and nothing is restored (60_exceptions.md R350). -/

namespace Sys2Proof.Machine

/-- What executing a command or taking a step answers. -/
abbrev Result := Host.Outcome State Fault Refusal

/-- `x[r] <- v` (00_scope.md R11). -/
def State.setX (s : State) (r : Reg) (v : Word) : State := { s with x := s.x.set r v }

/-- `x[r] <- v mod 2^64` (00_scope.md R11). -/
def State.setXNat (s : State) (r : Reg) (v : Nat) : State := s.setX r (BitVec.ofNat 64 v)

/-- The byte written at an address since reset, if any. -/
def Memory.lookup : Memory → Nat → Option Byte
  | [], _ => none
  | (k, b) :: m, a => if k = a then some b else lookup m a

/-- The memory with one byte written, its cells still in rising order. -/
def Memory.put : Memory → Nat → Byte → Memory
  | [], a, v => [(a, v)]
  | (k, b) :: m, a, v =>
    if a < k then (a, v) :: (k, b) :: m else if a = k then (a, v) :: m else (k, b) :: put m a v

/-- The memory with a byte string written from an address on. -/
def Memory.putAll : Memory → Nat → Bytes → Memory
  | m, _, [] => m
  | m, a, b :: bs => putAll (m.put a b) (a + 1) bs

/-- The byte of BUF at an address: the byte last written there, else the free value it holds since reset (20_memory.md R69;
10_state.md R45) [log 2]. -/
def State.readByte (s : State) (a : Nat) : Byte :=
  match s.buf.lookup a with
  | some b => b
  | none => Config.unwrittenByte s.resets a

/-- `MemRead(addr, n)` (00_scope.md R11). -/
def State.memRead (s : State) (addr n : Nat) : Bytes := (List.range n).map fun k => s.readByte (addr + k)

/-- `MemWrite(addr, len(v), v)` (00_scope.md R11). -/
def State.memWrite (s : State) (addr : Nat) (v : Bytes) : State := { s with buf := s.buf.putAll addr v }

/-- The bytes of a span operand. -/
def State.readSpan (s : State) (r : SpanReg) : Bytes := s.memRead (s.spanAddr r) (s.spanLen r)

/-- A command completes with status OK: CMDCNT is incremented and the port gives 0 (10_state.md R24; 60_exceptions.md R343). -/
def State.retire (s : State) : State := { s with cmdcnt := s.cmdcnt + 1, status := some .ok }

/-- RAISING AN ERROR, the one operation that takes an exception: (b) to (f) of 60_exceptions.md R344 for the command word
`w` and the error `e`. Nothing is saved, no mode changes, control goes nowhere (R344, R350). -/
def State.raise (s : State) (w : Word32) (e : Error) : State :=
  { s with
    errflags := s.errflags ||| e.flag
    lasterr := e.record
    lastcmd := w.setWidth 64
    cmdcnt := s.cmdcnt + 1
    status := some e.status }

/-- A command is executed: if a check fails, its error is raised and none of the effects happen; otherwise the effect
happens and the command completes with status OK (60_exceptions.md R344 (a), R345). `w` is the command word [log 8]. -/
def commit (w : Word32) (checks : List Check) (effect : State → State) (s : State) : Result :=
  match firstFailing checks with
  | some e => .next (s.raise w e)
  | none => .next (effect s).retire

end Sys2Proof.Machine
end

