-- ==== Sys2Proof/Machine/Chacha.lean ====
section
/-! DEFINITION. The ChaCha20 and XChaCha20 cores (spec/42_chacha.md). -/

namespace Sys2Proof.Machine

/-- `CC_CONST[0..3]` (42_chacha.md R170). -/
def chachaConst : Vector Word32 4 := #v[0x61707865, 0x3320646E, 0x79622D32, 0x6B206574]

/-- The quarter-round `QR(x, a, b, c, d)` (42_chacha.md R171). -/
def quarterRound (x : Vector Word32 16) (a b c d : Fin 16) : Vector Word32 16 :=
  let xa := x.get a + x.get b
  let xd := rotl (x.get d ^^^ xa) 16
  let xc := x.get c + xd
  let xb := rotl (x.get b ^^^ xc) 12
  let xa := xa + xb
  let xd := rotl (xd ^^^ xa) 8
  let xc := xc + xd
  let xb := rotl (xb ^^^ xc) 7
  (((x.set a xa).set b xb).set c xc).set d xd

/-- One double-round: four columns, four diagonals (42_chacha.md R172). -/
def doubleRound (x : Vector Word32 16) : Vector Word32 16 :=
  let x := quarterRound x 0 4 8 12
  let x := quarterRound x 1 5 9 13
  let x := quarterRound x 2 6 10 14
  let x := quarterRound x 3 7 11 15
  let x := quarterRound x 0 5 10 15
  let x := quarterRound x 1 6 11 12
  let x := quarterRound x 2 7 8 13
  quarterRound x 3 4 9 14

/-- `Rounds(s)`: ten double-rounds (42_chacha.md R172). -/
def chachaRounds (s : Vector Word32 16) : Vector Word32 16 :=
  (List.range 10).foldl (fun x _ => doubleRound x) s

/-- Words serialised little-endian in index order (42_chacha.md R173, R179). -/
def wordsLe (ws : List Word32) : Bytes := ws.flatMap fun word => toLe word.toNat 4

/-- Word i of a byte string read as little-endian 32-bit words: `le(B[4i : 4i+4])`. -/
def wordAt (b : Bytes) (i : Nat) : Word32 := BitVec.ofNat 32 (le (slice b (4 * i) (4 * i + 4)))

/-- The context `w` with words 12 and 13 taken from the 64-bit counter (42_chacha.md R173). -/
def withCounter (w : Vector Word32 16) (ctr : Nat) : Vector Word32 16 :=
  (w.set 12 (BitVec.ofNat 32 (ctr % 2 ^ 32))).set 13 (BitVec.ofNat 32 (ctr / 2 ^ 32))

/-- `Block(w, CTR)`: the 64-byte keystream block (42_chacha.md R173). -/
def chachaBlock (w : Vector Word32 16) (ctr : Nat) : Bytes :=
  let s := withCounter w ctr
  wordsLe (List.zipWith (· + ·) (chachaRounds s).toList s.toList)

/-- The keystream of `nb` blocks from the counter `ctr0` on (42_chacha.md R177). -/
def keystream (w : Vector Word32 16) (ctr0 nb : Nat) : Bytes :=
  (List.range nb).flatMap fun j => chachaBlock w (ctr0 + j)

/-- `nb = ceil(n / 64)` (42_chacha.md R177). -/
def blockCount (n : Nat) : Nat := ceilDiv n 64

/-- A byte string xor the keystream; the unused tail of the last block is discarded (42_chacha.md R177). -/
def chachaXor (w : Vector Word32 16) (ctr0 : Nat) (src : Bytes) : Bytes :=
  xorBytes src (keystream w ctr0 (blockCount src.length))

/-- `CTR0 = c + w[13] × 2^32` (42_chacha.md R176). -/
def firstCounter (w : Vector Word32 16) (c : Nat) : Nat := c + (w.get 13).toNat * 2 ^ 32

/-- The sixteen words of a ChaCha20 context (42_chacha.md R174). -/
def chacha20Words (key nonce : Bytes) : Vector Word32 16 :=
  #v[chachaConst.get 0, chachaConst.get 1, chachaConst.get 2, chachaConst.get 3,
     wordAt key 0, wordAt key 1, wordAt key 2, wordAt key 3, wordAt key 4, wordAt key 5, wordAt key 6, wordAt key 7,
     0, wordAt nonce 0, wordAt nonce 1, wordAt nonce 2]

/-- `HChaCha20(K, N16)`: the subkey (42_chacha.md R179). -/
def hchacha20 (key nonce16 : Bytes) : Bytes :=
  let s : Vector Word32 16 :=
    #v[chachaConst.get 0, chachaConst.get 1, chachaConst.get 2, chachaConst.get 3,
       wordAt key 0, wordAt key 1, wordAt key 2, wordAt key 3, wordAt key 4, wordAt key 5, wordAt key 6, wordAt key 7,
       wordAt nonce16 0, wordAt nonce16 1, wordAt nonce16 2, wordAt nonce16 3]
  let x := chachaRounds s
  wordsLe [x.get 0, x.get 1, x.get 2, x.get 3, x.get 12, x.get 13, x.get 14, x.get 15]

/-- The sixteen words of an XChaCha20 context: the subkey, counter word 0, word 13 zero, the last 8 nonce bytes
(42_chacha.md R175). -/
def xchacha20Words (key nonce : Bytes) : Vector Word32 16 :=
  let sk := hchacha20 key (slice nonce 0 16)
  #v[chachaConst.get 0, chachaConst.get 1, chachaConst.get 2, chachaConst.get 3,
     wordAt sk 0, wordAt sk 1, wordAt sk 2, wordAt sk 3, wordAt sk 4, wordAt sk 5, wordAt sk 6, wordAt sk 7,
     0, 0, wordAt nonce 4, wordAt nonce 5]

/-! ## The commands -/

/-- The checks of CC20.INIT and XCC20.INIT: exact lengths, then the key span, then the nonce span (R174, R175). -/
def ccInitChecks (nonceLen : Nat) (sa sb : SpanReg) (s : State) : List Check :=
  [needLength (s.spanLen sa == 32 && s.spanLen sb == nonceLen),
   needSpan s (s.spanAddr sa) (s.spanLen sa), needSpan s (s.spanAddr sb) (s.spanLen sb)]

/-- The ChaCha20 context built (R174). -/
def cc20InitEffect (sa sb : SpanReg) (s : State) : State :=
  { s with cc := { phase := .ready, var := .chacha20, w := chacha20Words (s.readSpan sa) (s.readSpan sb) } }

/-- `CC20.INIT sa, sb` (42_chacha.md R174). -/
def execCc20Init (sa sb : SpanReg) (s : State) : Result :=
  commit (encode (.cc20Init sa sb)) (ccInitChecks 12 sa sb s) (cc20InitEffect sa sb) s

/-- The XChaCha20 context built (R175). -/
def xcc20InitEffect (sa sb : SpanReg) (s : State) : State :=
  { s with cc := { phase := .ready, var := .xchacha20, w := xchacha20Words (s.readSpan sa) (s.readSpan sb) } }

/-- `XCC20.INIT sa, sb` (42_chacha.md R175). -/
def execXcc20Init (sa sb : SpanReg) (s : State) : Result :=
  commit (encode (.xcc20Init sa sb)) (ccInitChecks 24 sa sb s) (xcc20InitEffect sa sb) s

/-- The counter after the last block stays within 2^64 − 1 (42_chacha.md R178; 44_aead.md R223). -/
def counterFits (ctr0 n : Nat) : Bool := decide (ctr0 + blockCount n ≤ 2 ^ 64 - 1)

/-- The checks of CC.XFORM, in order (R177 (1) to (5), R178). -/
def ccXformChecks (xa : Reg) (sb : SpanReg) (xc : Reg) (s : State) : List Check :=
  let a := s.spanAddr sb
  let n := s.spanLen sb
  [needPhase (s.cc.phase == .ready), needSpan s a n, needSpan s (s.xNat xa) n,
   needDistinct (disjointOrSame (s.xNat xa) a n),
   needCounter (!(s.cc.var == .chacha20 && decide (2 ^ 32 ≤ s.xNat xc))),
   needNoOverflow (counterFits (firstCounter s.cc.w (s.xNat xc)) n)]

/-- The transform written and the counter register advanced by the number of blocks (R177). -/
def ccXformEffect (xa : Reg) (sb : SpanReg) (xc : Reg) (s : State) : State :=
  let c := s.xNat xc
  (s.memWrite (s.xNat xa) (chachaXor s.cc.w (firstCounter s.cc.w c) (s.readSpan sb))).setXNat xc
    (c + blockCount (s.spanLen sb))

/-- `CC.XFORM xa, sb, xc` (42_chacha.md R177). -/
def execCcXform (xa : Reg) (sb : SpanReg) (xc : Reg) (s : State) : Result :=
  commit (encode (.ccXform xa sb xc)) (ccXformChecks xa sb xc s) (ccXformEffect xa sb xc) s

end Sys2Proof.Machine
end

