-- ==== Sys2Proof/Machine/Poly1305.lean ====
section
/-! DEFINITION. The Poly1305 unit with 26-bit limbs (spec/43_poly1305.md). Intermediate limb sums are exact natural numbers
(the spec's d values "are held in 64 bits and never overflow them", R204). -/

namespace Sys2Proof.Machine

/-! ## The mathematics on whole numbers (R200, R201, R203) -/

/-- p = 2^130 − 5 (43_poly1305.md R200). -/
def polyP : Nat := 2 ^ 130 - 5

/-- CLAMP (43_poly1305.md R201). -/
def polyClamp : Nat := 0x0FFFFFFC0FFFFFFC0FFFFFFC0FFFFFFF

/-- The multiplier of a key: `r = le(K[0:16]) & CLAMP` (R200). -/
def polyKeyR (key : Bytes) : Nat := le (slice key 0 16) &&& polyClamp

/-- The mask of a key: `s = le(K[16:32])` (R200). -/
def polyKeyS (key : Bytes) : Nat := le (slice key 16 32)

/-- The value of a block of 1 to 16 bytes: `le(B) + 2^(8 len(B))` (R203). -/
def polyBlockValue (b : Bytes) : Nat := le b + 2 ^ (8 * b.length)

/-- A string cut into blocks of 16 bytes, the last one perhaps shorter; `fuel` bounds their number. -/
def polyBlocks : Nat → Bytes → List Bytes
  | 0, _ => []
  | fuel + 1, m => if m = [] then [] else m.take 16 :: polyBlocks fuel (m.drop 16)

/-- The accumulator after absorbing the blocks in order: `acc <- ((acc + n) × r) mod p` (R203). -/
def polyAccumulate (r : Nat) (blocks : List Bytes) : Nat :=
  blocks.foldl (fun acc b => (acc + polyBlockValue b) * r % polyP) 0

/-- The tag of a message by the mathematics of R203. -/
def polyTag (key msg : Bytes) : Bytes :=
  toLe ((polyAccumulate (polyKeyR key) (polyBlocks (msg.length + 1) msg) % polyP + polyKeyS key) % 2 ^ 128) 16

/-! ## The limbs (R202, R204, R207) -/

/-- Five limbs as exact numbers. -/
structure Limbs where
  l0 : Nat
  l1 : Nat
  l2 : Nat
  l3 : Nat
  l4 : Nat
  deriving DecidableEq, Repr

/-- The low 26 bits set. -/
def mask26 : Nat := 0x3FFFFFF

/-- The number five limbs stand for: Σ l[i] × 2^(26 i) (10_state.md R36). -/
def Limbs.value (l : Limbs) : Nat := l.l0 + l.l1 * 2 ^ 26 + l.l2 * 2 ^ 52 + l.l3 * 2 ^ 78 + l.l4 * 2 ^ 104

/-- The limbs held in five 32-bit fields. -/
def Limbs.ofFields (v : Vector Word32 5) : Limbs :=
  ⟨(v.get 0).toNat, (v.get 1).toNat, (v.get 2).toNat, (v.get 3).toNat, (v.get 4).toNat⟩

/-- The limbs stored in five 32-bit fields; no limb a run produces is cut [log 13]. -/
def Limbs.toFields (l : Limbs) : Vector Word32 5 :=
  #v[BitVec.ofNat 32 l.l0, BitVec.ofNat 32 l.l1, BitVec.ofNat 32 l.l2, BitVec.ofNat 32 l.l3, BitVec.ofNat 32 l.l4]

/-- The block's five cuts added to the limbs (43_poly1305.md R204, first five lines). -/
def addBlock (h : Limbs) (b : Bytes) (hibit : Nat) : Limbs :=
  { l0 := h.l0 + (le (slice b 0 4) &&& mask26)
    l1 := h.l1 + (le (slice b 3 7) >>> 2 &&& mask26)
    l2 := h.l2 + (le (slice b 6 10) >>> 4 &&& mask26)
    l3 := h.l3 + (le (slice b 9 13) >>> 6 &&& mask26)
    l4 := h.l4 + (le (slice b 12 16) >>> 8 ||| hibit <<< 24) }

/-- The products d0 .. d4; `s` holds s5[1] .. s5[4] in l1 .. l4 (43_poly1305.md R204). -/
def limbProducts (h r s : Limbs) : Limbs :=
  { l0 := h.l0 * r.l0 + h.l1 * s.l4 + h.l2 * s.l3 + h.l3 * s.l2 + h.l4 * s.l1
    l1 := h.l0 * r.l1 + h.l1 * r.l0 + h.l2 * s.l4 + h.l3 * s.l3 + h.l4 * s.l2
    l2 := h.l0 * r.l2 + h.l1 * r.l1 + h.l2 * r.l0 + h.l3 * s.l4 + h.l4 * s.l3
    l3 := h.l0 * r.l3 + h.l1 * r.l2 + h.l2 * r.l1 + h.l3 * r.l0 + h.l4 * s.l4
    l4 := h.l0 * r.l4 + h.l1 * r.l3 + h.l2 * r.l2 + h.l3 * r.l1 + h.l4 * r.l0 }

/-- The carry chain of a multiplication (43_poly1305.md R204, last seven lines). -/
def carryChain (d : Limbs) : Limbs :=
  let d1 := d.l1 + d.l0 >>> 26
  let d2 := d.l2 + d1 >>> 26
  let d3 := d.l3 + d2 >>> 26
  let d4 := d.l4 + d3 >>> 26
  let h0 := (d.l0 &&& mask26) + 5 * (d4 >>> 26)
  { l0 := h0 &&& mask26
    l1 := (d1 &&& mask26) + h0 >>> 26
    l2 := d2 &&& mask26
    l3 := d3 &&& mask26
    l4 := d4 &&& mask26 }

/-- The carry pass of FinalReduce (43_poly1305.md R207, first six lines). -/
def finalCarry (h : Limbs) : Limbs :=
  let h2 := h.l2 + h.l1 >>> 26
  let h3 := h.l3 + h2 >>> 26
  let h4 := h.l4 + h3 >>> 26
  let h0 := h.l0 + 5 * (h4 >>> 26)
  { l0 := h0 &&& mask26
    l1 := (h.l1 &&& mask26) + h0 >>> 26
    l2 := h2 &&& mask26
    l3 := h3 &&& mask26
    l4 := h4 &&& mask26 }

/-- The number that is H or, if H ≥ p, H − p: `G <- H + 5; if G ≥ 2^130: H <- G − 2^130` (43_poly1305.md R207). -/
def subtractP (H : Nat) : Nat := if 2 ^ 130 ≤ H + 5 then H + 5 - 2 ^ 130 else H

/-! ## The session -/

/-- `s5[1] .. s5[4]` in l1 .. l4. -/
def PolyMac.s5Limbs (p : PolyMac) : Limbs :=
  ⟨0, (p.s5.get 0).toNat, (p.s5.get 1).toNat, (p.s5.get 2).toNat, (p.s5.get 3).toNat⟩

/-- The accumulator H (10_state.md R36). -/
def PolyMac.acc (p : PolyMac) : Nat := (Limbs.ofFields p.h).value

/-- The multiplier r (10_state.md R36). -/
def PolyMac.rValue (p : PolyMac) : Nat := (Limbs.ofFields p.r).value

/-- The mask s: Σ pad[i] × 2^(32 i) (10_state.md R36). -/
def PolyMac.sValue (p : PolyMac) : Nat :=
  (p.pad.get 0).toNat + (p.pad.get 1).toNat * 2 ^ 32 + (p.pad.get 2).toNat * 2 ^ 64 + (p.pad.get 3).toNat * 2 ^ 96

/-- The limbs of the clamped multiplier of a key (43_poly1305.md R202). -/
def keyLimbs (key : Bytes) : Limbs :=
  { l0 := le (slice key 0 4) &&& 0x3FFFFFF
    l1 := le (slice key 3 7) >>> 2 &&& 0x3FFFF03
    l2 := le (slice key 6 10) >>> 4 &&& 0x3FFC0FF
    l3 := le (slice key 9 13) >>> 6 &&& 0x3F03FFF
    l4 := le (slice key 12 16) >>> 8 &&& 0x00FFFFF }

/-- `P13.INIT` on a key over the session it replaces; the input buffer's bytes stay, none of them counted (R202). -/
def PolyMac.init (p : PolyMac) (key : Bytes) : PolyMac :=
  let r := keyLimbs key
  { p with
    h := .replicate 5 0
    r := r.toFields
    s5 := #v[BitVec.ofNat 32 (5 * r.l1), BitVec.ofNat 32 (5 * r.l2), BitVec.ofNat 32 (5 * r.l3), BitVec.ofNat 32 (5 * r.l4)]
    pad := Vector.ofFn fun i => BitVec.ofNat 32 (le (slice key (16 + 4 * i.val) (20 + 4 * i.val)))
    fill := 0 }

/-- `AbsorbBlock(B, hibit)` (43_poly1305.md R204). -/
def PolyMac.absorbBlock (p : PolyMac) (b : Bytes) (hibit : Nat) : PolyMac :=
  { p with
    h := (carryChain (limbProducts (addBlock (Limbs.ofFields p.h) b hibit) (Limbs.ofFields p.r) p.s5Limbs)).toFields }

/-- One byte of P13.UPDATE: the sixteenth byte completes a block, which is absorbed (43_poly1305.md R205). -/
def PolyMac.absorbByte (p : PolyMac) (d : Byte) : PolyMac :=
  let p := { p with buf := p.buf.setIfInBounds p.fill d, fill := p.fill + 1 }
  if p.fill = 16 then { p.absorbBlock p.buf.toList 1 with fill := 0 } else p

/-- `P13.UPDATE` on a byte string (43_poly1305.md R205). -/
def PolyMac.absorb (p : PolyMac) (data : Bytes) : PolyMac := data.foldl PolyMac.absorbByte p

/-- The left-over bytes absorbed as a padded final block (43_poly1305.md R206). -/
def PolyMac.flush (p : PolyMac) : PolyMac :=
  if 0 < p.fill then
    { p.absorbBlock (p.buf.toList.take p.fill ++ [1] ++ zeros (15 - p.fill)) 0 with fill := 0 }
  else p

/-- The session after FINAL: the left-over bytes absorbed and the limbs carried (43_poly1305.md R206, R207) [log 9]. -/
def PolyMac.finish (p : PolyMac) : PolyMac :=
  { p.flush with h := (finalCarry (Limbs.ofFields p.flush.h)).toFields }

/-- The number FinalReduce returns, of a session whose limbs it has carried (43_poly1305.md R207). -/
def PolyMac.tagNumber (p : PolyMac) : Nat := (subtractP p.acc % 2 ^ 128 + p.sValue) % 2 ^ 128

/-- The tag of a finished session, 16 bytes little-endian (43_poly1305.md R206). -/
def PolyMac.tag (p : PolyMac) : Bytes := toLe p.tagNumber 16

/-! ## The commands -/

/-- The checks of P13.INIT: the key's length, then its span (R202). -/
def p13InitChecks (sa : SpanReg) (s : State) : List Check :=
  [needLength (s.spanLen sa == 32), needSpan s (s.spanAddr sa) (s.spanLen sa)]

/-- The session started (R202). -/
def p13InitEffect (sa : SpanReg) (s : State) : State :=
  { s with p13 := { phase := .active, mac := s.p13.mac.init (s.readSpan sa) } }

/-- `P13.INIT sa` (43_poly1305.md R202). -/
def execP13Init (sa : SpanReg) (s : State) : Result :=
  commit (encode (.p13Init sa)) (p13InitChecks sa s) (p13InitEffect sa) s

/-- The checks of P13.UPDATE: phase, then the data span (R205). -/
def p13UpdateChecks (sa : SpanReg) (s : State) : List Check :=
  [needPhase (s.p13.phase == .active), needSpan s (s.spanAddr sa) (s.spanLen sa)]

/-- The data absorbed (R205). -/
def p13UpdateEffect (sa : SpanReg) (s : State) : State :=
  { s with p13 := { s.p13 with mac := s.p13.mac.absorb (s.readSpan sa) } }

/-- `P13.UPDATE sa` (43_poly1305.md R205). -/
def execP13Update (sa : SpanReg) (s : State) : Result :=
  commit (encode (.p13Update sa)) (p13UpdateChecks sa s) (p13UpdateEffect sa) s

/-- The checks of P13.FINAL: phase, then the tag's region (R206). -/
def p13FinalChecks (xa : Reg) (s : State) : List Check :=
  [needPhase (s.p13.phase == .active), needSpan s (s.xNat xa) 16]

/-- The session finished and the tag written (R206). -/
def p13FinalEffect (xa : Reg) (s : State) : State :=
  { s with p13 := { phase := .done, mac := s.p13.mac.finish } }.memWrite (s.xNat xa) s.p13.mac.finish.tag

/-- `P13.FINAL xa` (43_poly1305.md R206). -/
def execP13Final (xa : Reg) (s : State) : Result :=
  commit (encode (.p13Final xa)) (p13FinalChecks xa s) (p13FinalEffect xa) s

end Sys2Proof.Machine
end

