-- ==== Sys2Proof/Machine/AeadUnit.lean ====
section
/-! DEFINITION. The ChaCha20-Poly1305 AEAD controller (spec/44_aead.md), a sequencer over the ChaCha block function and the
Poly1305 rules on its private state. -/

namespace Sys2Proof.Machine

/-- The first block counter of the payload: caller value 1 (44_aead.md R223; 42_chacha.md R176). -/
def Aead.payloadCounter (a : Aead) : Nat := firstCounter a.w 1

/-- The one-time Poly1305 key: the first 32 bytes of the block at caller value 0 (44_aead.md R221). -/
def oneTimeKey (w : Vector Word32 16) : Bytes := slice (chachaBlock w (firstCounter w 0)) 0 32

/-- The session built from key, nonce and associated data over the one it replaces (44_aead.md R221). -/
def Aead.init (a : Aead) (key nonce aad : Bytes) : Aead :=
  let w := chacha20Words key nonce
  { phase := .ready
    w := w
    p := (a.p.init (oneTimeKey w)).absorb (aad ++ pad16 aad.length)
    aadlen := BitVec.ofNat 64 aad.length }

/-- The MAC session after the ciphertext, its padding and the two lengths, finished (44_aead.md R222). -/
def Aead.finishMac (a : Aead) (ct : Bytes) : PolyMac :=
  (a.p.absorb (ct ++ pad16 ct.length ++ toLe a.aadlen.toNat 8 ++ toLe ct.length 8)).finish

/-- `Tag(CT)` (44_aead.md R222). -/
def Aead.tag (a : Aead) (ct : Bytes) : Bytes := (a.finishMac ct).tag

/-- The checks of AEAD.INIT: exact lengths, then the key, nonce and associated-data spans (R221). -/
def aeadInitChecks (sa sb sc : SpanReg) (s : State) : List Check :=
  [needLength (s.spanLen sa == 32 && s.spanLen sb == 12),
   needSpan s (s.spanAddr sa) (s.spanLen sa), needSpan s (s.spanAddr sb) (s.spanLen sb),
   needSpan s (s.spanAddr sc) (s.spanLen sc)]

/-- The session constructed (R221). -/
def aeadInitEffect (sa sb sc : SpanReg) (s : State) : State :=
  { s with aead := s.aead.init (s.readSpan sa) (s.readSpan sb) (s.readSpan sc) }

/-- `AEAD.INIT sa, sb, sc` (44_aead.md R221). -/
def execAeadInit (sa sb sc : SpanReg) (s : State) : Result :=
  commit (encode (.aeadInit sa sb sc)) (aeadInitChecks sa sb sc s) (aeadInitEffect sa sb sc) s

/-- The regions of AEAD.ENC and AEAD.DEC are distinct: source (a, n), destination (d, n), tag (t, 16) (44_aead.md R225). -/
def aeadDistinct (d a n t : Nat) : Bool := disjointOrSame d a n && !overlap t 16 a n && !overlap t 16 d n

/-- The checks of AEAD.ENC and AEAD.DEC, in order (R223 (1) to (5)). -/
def aeadPayloadChecks (xa : Reg) (sb sc : SpanReg) (s : State) : List Check :=
  let d := s.xNat xa
  let a := s.spanAddr sb
  let n := s.spanLen sb
  let t := s.spanAddr sc
  [needPhase (s.aead.phase == .ready), needLength (s.spanLen sc == 16),
   needSpan s a n, needSpan s d n, needSpan s t 16,
   needDistinct (aeadDistinct d a n t),
   needNoOverflow (counterFits s.aead.payloadCounter n)]

/-- The controller after a sealed or a verified message: the MAC session finished, DONE [log 10]. -/
def Aead.complete (a : Aead) (ct : Bytes) : Aead := { a with p := a.finishMac ct, phase := .done }

/-- The ciphertext and the tag written, the session DONE (R223). -/
def aeadEncEffect (xa : Reg) (sb sc : SpanReg) (s : State) : State :=
  let ct := chachaXor s.aead.w s.aead.payloadCounter (s.readSpan sb)
  ({ s with aead := s.aead.complete ct }.memWrite (s.xNat xa) ct).memWrite (s.spanAddr sc) (s.aead.tag ct)

/-- `AEAD.ENC xa, sb, sc` (44_aead.md R223). -/
def execAeadEnc (xa : Reg) (sb sc : SpanReg) (s : State) : Result :=
  commit (encode (.aeadEnc xa sb sc)) (aeadPayloadChecks xa sb sc s) (aeadEncEffect xa sb sc) s

/-- The received tag is the tag of the ciphertext, compared as CTEQ compares (44_aead.md R224, R226). -/
def aeadVerified (sb sc : SpanReg) (s : State) : Bool :=
  ctEqual (s.aead.tag (s.readSpan sb)) (s.memRead (s.spanAddr sc) 16)

/-- The plaintext written, the session DONE (R224). -/
def aeadDecEffect (xa : Reg) (sb : SpanReg) (s : State) : State :=
  { s with aead := s.aead.complete (s.readSpan sb) }.memWrite (s.xNat xa)
    (chachaXor s.aead.w s.aead.payloadCounter (s.readSpan sb))

/-- What a failed verification leaves before its error is raised: the session DONE, nothing else written
(44_aead.md R224; 60_exceptions.md R344 (a)). -/
def aeadConsumed (s : State) : State := { s with aead := { s.aead with phase := .done } }

/-- `AEAD.DEC xa, sb, sc` (44_aead.md R224): the checks of AEAD.ENC, then the tag; AuthenticationError comes last (R345). -/
def execAeadDec (xa : Reg) (sb sc : SpanReg) (s : State) : Result :=
  let w := encode (.aeadDec xa sb sc)
  match firstFailing (aeadPayloadChecks xa sb sc s) with
  | some e => .next (s.raise w e)
  | none =>
    if aeadVerified sb sc s then .next (aeadDecEffect xa sb s).retire
    else .next ((aeadConsumed s).raise w .authentication)

end Sys2Proof.Machine
end

