-- ==== Sys2Proof/Machine/BitOps.lean ====
section
/-! DEFINITION. The BitOps units (spec/48_bitops.md): rotations, counts, logarithms, GCD, inverse, constant-time compare,
buffer XOR. -/

namespace Sys2Proof.Machine

/-- `v32 = x[rb] mod 2^32` (48_bitops.md R300). -/
def v32 (s : State) (xb : Reg) : Word32 := (s.getX xb).setWidth 32

/-- The number of zero bits above the highest set bit of `v` within `w` bits; `w` when there is none (R305, R306). -/
def leadingZeros : Nat → Nat → Nat
  | 0, _ => 0
  | w + 1, v => if v.testBit w then 0 else leadingZeros w v + 1

/-- The number of zero bits below the lowest set bit of `v` within `w` bits; `w` when there is none (R307, R308). -/
def trailingZeros : Nat → Nat → Nat
  | 0, _ => 0
  | w + 1, v => if v % 2 = 1 then 0 else trailingZeros w (v / 2) + 1

/-- The number of set bits among the low `w` bits of `v` (R309, R310). -/
def popCount : Nat → Nat → Nat
  | 0, _ => 0
  | w + 1, v => v % 2 + popCount w (v / 2)

/-- `LOG2F(v) = 63 − LZCNT64(v)` for v ≥ 1; 0 for v = 0 (R311). -/
def log2Floor (v : Nat) : Nat := if v = 0 then 0 else 63 - leadingZeros 64 v

/-- `LOG2C(v) = LOG2F(v − 1) + 1` for v ≥ 2; 0 for v = 0 and v = 1 (R312). -/
def log2Ceil (v : Nat) : Nat := if v ≤ 1 then 0 else log2Floor (v - 1) + 1

/-- A value with its trailing zero bits shifted out. -/
def oddPart (v : Nat) : Nat := v >>> trailingZeros 64 v

/-- The loop of the binary algorithm on two odd numbers: the larger becomes the difference shifted until odd, until the two
are equal (R314). Each turn takes at least one bit off the pair, so 128 turns suffice for 64-bit values. -/
def binaryGcdLoop : Nat → Nat → Nat → Nat
  | 0, a, _ => a
  | fuel + 1, a, b =>
    if a = b then a
    else if b < a then binaryGcdLoop fuel (oddPart (a - b)) b
    else binaryGcdLoop fuel a (oddPart (b - a))

/-- The greatest common divisor of two 64-bit values by the binary algorithm, with gcd(v, 0) = gcd(0, v) = v (R314). -/
def binaryGcd (a b : Nat) : Nat :=
  if a = 0 then b
  else if b = 0 then a
  else binaryGcdLoop 128 (oddPart a) (oddPart b) <<< trailingZeros 64 (a ||| b)

/-- One doubling step of the inverse modulo 2^64: `y <- y × (2 − v × y)` (R315). -/
def newtonStep (v y : Word) : Word := y * (2 - v * y)

/-- The inverse of an odd value modulo 2^64: `y <- v`, then five doubling steps (R315). -/
def modInverse (v : Word) : Word :=
  newtonStep v (newtonStep v (newtonStep v (newtonStep v (newtonStep v v))))

/-! ## The register commands -/

/-- `x[ra] <- rotl_32(v, x[rc] mod 32)` (R301). -/
def rotl32Effect (xa xb xc : Reg) (s : State) : State :=
  s.setX xa ((rotl (v32 s xb) (s.xNat xc % 32)).setWidth 64)

/-- `ROTL32 xa, xb, xc` (48_bitops.md R301). -/
def execRotl32 (xa xb xc : Reg) (s : State) : Result :=
  commit (encode (.rotl32 xa xb xc)) [] (rotl32Effect xa xb xc) s

/-- `x[ra] <- rotr_32(v, x[rc] mod 32)` (R302). -/
def rotr32Effect (xa xb xc : Reg) (s : State) : State :=
  s.setX xa ((rotr (v32 s xb) (s.xNat xc % 32)).setWidth 64)

/-- `ROTR32 xa, xb, xc` (48_bitops.md R302). -/
def execRotr32 (xa xb xc : Reg) (s : State) : Result :=
  commit (encode (.rotr32 xa xb xc)) [] (rotr32Effect xa xb xc) s

/-- `x[ra] <- rotl_64(v, x[rc] mod 64)` (R303). -/
def rotl64Effect (xa xb xc : Reg) (s : State) : State :=
  s.setX xa (rotl (s.getX xb) (s.xNat xc % 64))

/-- `ROTL64 xa, xb, xc` (48_bitops.md R303). -/
def execRotl64 (xa xb xc : Reg) (s : State) : Result :=
  commit (encode (.rotl64 xa xb xc)) [] (rotl64Effect xa xb xc) s

/-- `x[ra] <- rotr_64(v, x[rc] mod 64)` (R304). -/
def rotr64Effect (xa xb xc : Reg) (s : State) : State :=
  s.setX xa (rotr (s.getX xb) (s.xNat xc % 64))

/-- `ROTR64 xa, xb, xc` (48_bitops.md R304). -/
def execRotr64 (xa xb xc : Reg) (s : State) : Result :=
  commit (encode (.rotr64 xa xb xc)) [] (rotr64Effect xa xb xc) s

/-- The leading zeros of v32, 32 when v32 = 0 (R305). -/
def lzcnt32Effect (xa xb : Reg) (s : State) : State := s.setXNat xa (leadingZeros 32 (v32 s xb).toNat)

/-- `LZCNT32 xa, xb` (48_bitops.md R305). -/
def execLzcnt32 (xa xb : Reg) (s : State) : Result :=
  commit (encode (.lzcnt32 xa xb)) [] (lzcnt32Effect xa xb) s

/-- The leading zeros of v, 64 when v = 0 (R306). -/
def lzcnt64Effect (xa xb : Reg) (s : State) : State := s.setXNat xa (leadingZeros 64 (s.xNat xb))

/-- `LZCNT64 xa, xb` (48_bitops.md R306). -/
def execLzcnt64 (xa xb : Reg) (s : State) : Result :=
  commit (encode (.lzcnt64 xa xb)) [] (lzcnt64Effect xa xb) s

/-- The trailing zeros of v32, 32 when v32 = 0 (R307). -/
def tzcnt32Effect (xa xb : Reg) (s : State) : State := s.setXNat xa (trailingZeros 32 (v32 s xb).toNat)

/-- `TZCNT32 xa, xb` (48_bitops.md R307). -/
def execTzcnt32 (xa xb : Reg) (s : State) : Result :=
  commit (encode (.tzcnt32 xa xb)) [] (tzcnt32Effect xa xb) s

/-- The trailing zeros of v, 64 when v = 0 (R308). -/
def tzcnt64Effect (xa xb : Reg) (s : State) : State := s.setXNat xa (trailingZeros 64 (s.xNat xb))

/-- `TZCNT64 xa, xb` (48_bitops.md R308). -/
def execTzcnt64 (xa xb : Reg) (s : State) : Result :=
  commit (encode (.tzcnt64 xa xb)) [] (tzcnt64Effect xa xb) s

/-- The number of set bits of v32 (R309). -/
def popcnt32Effect (xa xb : Reg) (s : State) : State := s.setXNat xa (popCount 32 (v32 s xb).toNat)

/-- `POPCNT32 xa, xb` (48_bitops.md R309). -/
def execPopcnt32 (xa xb : Reg) (s : State) : Result :=
  commit (encode (.popcnt32 xa xb)) [] (popcnt32Effect xa xb) s

/-- The number of set bits of v (R310). -/
def popcnt64Effect (xa xb : Reg) (s : State) : State := s.setXNat xa (popCount 64 (s.xNat xb))

/-- `POPCNT64 xa, xb` (48_bitops.md R310). -/
def execPopcnt64 (xa xb : Reg) (s : State) : Result :=
  commit (encode (.popcnt64 xa xb)) [] (popcnt64Effect xa xb) s

/-- The index of the highest set bit of v, 0 for v = 0 (R311). -/
def log2fEffect (xa xb : Reg) (s : State) : State := s.setXNat xa (log2Floor (s.xNat xb))

/-- `LOG2F xa, xb` (48_bitops.md R311). -/
def execLog2f (xa xb : Reg) (s : State) : Result :=
  commit (encode (.log2f xa xb)) [] (log2fEffect xa xb) s

/-- The least k with 2^k ≥ v, 0 for v = 0 (R312). -/
def log2cEffect (xa xb : Reg) (s : State) : State := s.setXNat xa (log2Ceil (s.xNat xb))

/-- `LOG2C xa, xb` (48_bitops.md R312). -/
def execLog2c (xa xb : Reg) (s : State) : Result :=
  commit (encode (.log2c xa xb)) [] (log2cEffect xa xb) s

/-- 1 if v has exactly one set bit, else 0 (R313). -/
def ispow2Effect (xa xb : Reg) (s : State) : State := s.setXNat xa (if popCount 64 (s.xNat xb) = 1 then 1 else 0)

/-- `ISPOW2 xa, xb` (48_bitops.md R313). -/
def execIspow2 (xa xb : Reg) (s : State) : Result :=
  commit (encode (.ispow2 xa xb)) [] (ispow2Effect xa xb) s

/-- `x[ra] <- gcd(x[rb], x[rc])` (R314). -/
def gcdEffect (xa xb xc : Reg) (s : State) : State := s.setXNat xa (binaryGcd (s.xNat xb) (s.xNat xc))

/-- `GCD xa, xb, xc` (48_bitops.md R314). -/
def execGcd (xa xb xc : Reg) (s : State) : Result := commit (encode (.gcd xa xb xc)) [] (gcdEffect xa xb xc) s

/-- The check of MODINV: v is odd (R315). -/
def modinvChecks (xb : Reg) (s : State) : List Check := [needOperand (s.xNat xb % 2 == 1)]

/-- `x[ra] <-` the inverse of v modulo 2^64 (R315). -/
def modinvEffect (xa xb : Reg) (s : State) : State := s.setX xa (modInverse (s.getX xb))

/-- `MODINV xa, xb` (48_bitops.md R315). -/
def execModinv (xa xb : Reg) (s : State) : Result :=
  commit (encode (.modinv xa xb)) (modinvChecks xb s) (modinvEffect xa xb) s

/-! ## The commands on byte spans -/

/-- The checks of CTEQ: both whole spans, in order (R316). -/
def cteqChecks (sb sc : SpanReg) (s : State) : List Check :=
  [needSpan s (s.spanAddr sb) (s.spanLen sb), needSpan s (s.spanAddr sc) (s.spanLen sc)]

/-- 1 if the spans have one length and the same bytes, else 0 (R316). -/
def cteqEffect (xa : Reg) (sb sc : SpanReg) (s : State) : State :=
  s.setXNat xa (if ctEqual (s.readSpan sb) (s.readSpan sc) then 1 else 0)

/-- `CTEQ xa, sb, sc` (48_bitops.md R316). -/
def execCteq (xa : Reg) (sb sc : SpanReg) (s : State) : Result :=
  commit (encode (.cteq xa sb sc)) (cteqChecks sb sc s) (cteqEffect xa sb sc) s

/-- The checks of XORB, in order (R317 (1) to (3)). -/
def xorbChecks (xa : Reg) (sb sc : SpanReg) (s : State) : List Check :=
  let n := s.spanLen sb
  [needLength (s.spanLen sb == s.spanLen sc),
   needSpan s (s.spanAddr sb) n, needSpan s (s.spanAddr sc) (s.spanLen sc), needSpan s (s.xNat xa) n,
   needDistinct (disjointOrSame (s.xNat xa) (s.spanAddr sb) n && disjointOrSame (s.xNat xa) (s.spanAddr sc) n)]

/-- The bytewise exclusive or of the two sources written to the destination (R317). -/
def xorbEffect (xa : Reg) (sb sc : SpanReg) (s : State) : State :=
  s.memWrite (s.xNat xa) (xorBytes (s.readSpan sb) (s.readSpan sc))

/-- `XORB xa, sb, sc` (48_bitops.md R317). -/
def execXorb (xa : Reg) (sb sc : SpanReg) (s : State) : Result :=
  commit (encode (.xorb xa sb sc)) (xorbChecks xa sb sc s) (xorbEffect xa sb sc) s

end Sys2Proof.Machine
end

