-- ==== Sys2Proof/Machine/Blake2.lean ====
section
/-! DEFINITION. The BLAKE2b and BLAKE2s engines (spec/41_blake2.md): one set of rules with the variant as a tag. -/

namespace Sys2Proof.Machine

/-! ## What the variant fixes (41_blake2.md, header; R146, R147) -/

/-- The word width w in bits. -/
def Variant.width : Variant → Nat
  | .blake2b => 64
  | .blake2s => 32

/-- The block length BB in bytes. -/
def Variant.blockBytes : Variant → Nat
  | .blake2b => 128
  | .blake2s => 64

/-- ROUNDS. -/
def Variant.rounds : Variant → Nat
  | .blake2b => 12
  | .blake2s => 10

/-- MAXLEN: the most bytes of a key or of a digest. -/
def Variant.maxLen : Variant → Nat
  | .blake2b => 64
  | .blake2s => 32

/-- The rotation counts (R1, R2, R3, R4) of G. -/
def Variant.rotations : Variant → Nat × Nat × Nat × Nat
  | .blake2b => (32, 24, 16, 63)
  | .blake2s => (16, 12, 8, 7)

/-- The word with its low w bits set. -/
def Variant.mask (var : Variant) : Word := BitVec.ofNat 64 (2 ^ var.width - 1)

/-- `add_w(a, b)` on words held in 64 bits (00_scope.md R9). -/
def Variant.add (var : Variant) (a b : Word) : Word := (a + b) &&& var.mask

/-- `rotr_w(v, n)` on a word held in 64 bits, 0 < n < w (00_scope.md R9). -/
def Variant.rotr (var : Variant) (v : Word) (n : Nat) : Word := (v >>> n ||| v <<< (var.width - n)) &&& var.mask

/-- The IV words (41_blake2.md R146). -/
def Variant.iv : Variant → Vector Word 8
  | .blake2b =>
    #v[0x6A09E667F3BCC908, 0xBB67AE8584CAA73B, 0x3C6EF372FE94F82B, 0xA54FF53A5F1D36F1,
       0x510E527FADE682D1, 0x9B05688C2B3E6C1F, 0x1F83D9ABFB41BD6B, 0x5BE0CD19137E2179]
  | .blake2s =>
    #v[0x6A09E667, 0xBB67AE85, 0x3C6EF372, 0xA54FF53A, 0x510E527F, 0x9B05688C, 0x1F83D9AB, 0x5BE0CD19]

/-- Row r mod 10 of the message-word permutation SIGMA (41_blake2.md R147). -/
def sigmaRow (r : Nat) : Vector (Fin 16) 16 :=
  match r % 10 with
  | 0 => #v[0, 1, 2, 3, 4, 5, 6, 7, 8, 9, 10, 11, 12, 13, 14, 15]
  | 1 => #v[14, 10, 4, 8, 9, 15, 13, 6, 1, 12, 0, 2, 11, 7, 5, 3]
  | 2 => #v[11, 8, 12, 0, 5, 2, 15, 13, 10, 14, 3, 6, 7, 1, 9, 4]
  | 3 => #v[7, 9, 3, 1, 13, 12, 11, 14, 2, 6, 5, 10, 4, 0, 15, 8]
  | 4 => #v[9, 0, 5, 7, 2, 4, 10, 15, 14, 1, 11, 12, 6, 8, 3, 13]
  | 5 => #v[2, 12, 6, 10, 0, 11, 8, 3, 4, 13, 7, 5, 15, 14, 1, 9]
  | 6 => #v[12, 5, 1, 15, 14, 13, 4, 10, 0, 7, 6, 3, 9, 2, 8, 11]
  | 7 => #v[13, 11, 7, 14, 12, 1, 3, 9, 5, 0, 15, 4, 8, 6, 2, 10]
  | 8 => #v[6, 15, 14, 9, 11, 3, 0, 8, 12, 2, 13, 7, 1, 4, 10, 5]
  | _ => #v[10, 2, 8, 4, 7, 6, 1, 5, 15, 11, 9, 14, 3, 12, 13, 0]

/-! ## The compression function -/

/-- The mixing function `G(v, a, b, c, d, x, y)` (41_blake2.md R148). -/
def mixG (var : Variant) (v : Vector Word 16) (a b c d : Fin 16) (x y : Word) : Vector Word 16 :=
  let (r1, r2, r3, r4) := var.rotations
  let va := var.add (var.add (v.get a) (v.get b)) x
  let vd := var.rotr (v.get d ^^^ va) r1
  let vc := var.add (v.get c) vd
  let vb := var.rotr (v.get b ^^^ vc) r2
  let va := var.add (var.add va vb) y
  let vd := var.rotr (vd ^^^ va) r3
  let vc := var.add vc vd
  let vb := var.rotr (vb ^^^ vc) r4
  (((v.set a va).set b vb).set c vc).set d vd

/-- One round on the working array: the columns, then the diagonals (41_blake2.md R149). -/
def mixRound (var : Variant) (m : Vector Word 16) (v : Vector Word 16) (r : Nat) : Vector Word 16 :=
  let s := sigmaRow r
  let v := mixG var v 0 4 8 12 (m.get (s.get 0)) (m.get (s.get 1))
  let v := mixG var v 1 5 9 13 (m.get (s.get 2)) (m.get (s.get 3))
  let v := mixG var v 2 6 10 14 (m.get (s.get 4)) (m.get (s.get 5))
  let v := mixG var v 3 7 11 15 (m.get (s.get 6)) (m.get (s.get 7))
  let v := mixG var v 0 5 10 15 (m.get (s.get 8)) (m.get (s.get 9))
  let v := mixG var v 1 6 11 12 (m.get (s.get 10)) (m.get (s.get 11))
  let v := mixG var v 2 7 8 13 (m.get (s.get 12)) (m.get (s.get 13))
  mixG var v 3 4 9 14 (m.get (s.get 14)) (m.get (s.get 15))

/-- The sixteen message words of a block, little-endian (41_blake2.md R149). -/
def messageWords (var : Variant) (block : Bytes) : Vector Word 16 :=
  Vector.ofFn fun i => BitVec.ofNat 64 (le (slice block (i.val * (var.width / 8)) ((i.val + 1) * (var.width / 8))))

/-- The working array before the rounds: h and IV, words 12 and 13 with the counter, word 14 complemented on the last block
(41_blake2.md R149). -/
def workingArray (var : Variant) (h : Vector Word 8) (t : BitVec 128) (last : Bool) : Vector Word 16 :=
  let v : Vector Word 16 := h ++ var.iv
  let v := v.set 12 (v.get 12 ^^^ BitVec.ofNat 64 (t.toNat % 2 ^ var.width))
  let v := v.set 13 (v.get 13 ^^^ BitVec.ofNat 64 (t.toNat / 2 ^ var.width))
  if last then v.set 14 (v.get 14 ^^^ var.mask) else v

/-- The compression function `F(var, h, block, t, last)` (41_blake2.md R149). -/
def compress (var : Variant) (h : Vector Word 8) (block : Bytes) (t : BitVec 128) (last : Bool) : Vector Word 8 :=
  let v := (List.range var.rounds).foldl (mixRound var (messageWords var block)) (workingArray var h t last)
  Vector.ofFn fun i => h.get i ^^^ v.get ⟨i.val, by omega⟩ ^^^ v.get ⟨i.val + 8, by omega⟩

/-! ## The session (R142, R143, R145, R150) -/

/-- `CompressPending(last)`: the one place where the counter advances and F is applied (41_blake2.md R150). -/
def Blake2.compressPending (b : Blake2) (last : Bool) : Blake2 :=
  let t := if b.cfb then b.t else BitVec.ofNat 128 ((b.t.toNat + b.fill) % 2 ^ (2 * b.var.width))
  { b with
    cfb := false
    t := t
    h := compress b.var b.h (b.buf.toList.take b.var.blockBytes) t last
    fill := 0 }

/-- `InitSession(var, key, ol)` over the session `b` that it replaces (41_blake2.md R142). -/
def Blake2.init (b : Blake2) (var : Variant) (key : Bytes) (ol : Nat) : Blake2 :=
  let kn := key.length
  let b := { b with
    var := var
    h := var.iv.set 0 (var.iv.get 0 ^^^ BitVec.ofNat 64 (0x01010000 ||| kn <<< 8 ||| ol))
    outlen := ol
    t := 0, fill := 0, cfb := false
    phase := .active }
  if kn = 0 then b
  else { b with
    buf := overwrite b.buf (key ++ zeros (var.blockBytes - kn))
    fill := var.blockBytes
    t := BitVec.ofNat 128 var.blockBytes
    cfb := true }

/-- One byte of B2.UPDATE: a full buffer is compressed only when another byte arrives (41_blake2.md R143). -/
def Blake2.absorbByte (b : Blake2) (d : Byte) : Blake2 :=
  let b := if b.fill = b.var.blockBytes then b.compressPending false else b
  { b with buf := b.buf.setIfInBounds b.fill d, fill := b.fill + 1 }

/-- `B2.UPDATE` on a byte string (41_blake2.md R143). -/
def Blake2.absorb (b : Blake2) (data : Bytes) : Blake2 := data.foldl Blake2.absorbByte b

/-- `buf[fill .. BB − 1] <- 0` (41_blake2.md R145). -/
def Blake2.padded (b : Blake2) : Blake2 :=
  { b with buf := Vector.ofFn fun i => if b.fill ≤ i.val ∧ i.val < b.var.blockBytes then 0 else b.buf.get i }

/-- The session after `B2.FINAL`: padded, the last block compressed, DONE (41_blake2.md R145). -/
def Blake2.finish (b : Blake2) : Blake2 := { b.padded.compressPending true with phase := .done }

/-- The digest of a finished session: its state words little-endian, truncated (41_blake2.md R145). -/
def Blake2.digest (b : Blake2) : Bytes :=
  (b.h.toList.flatMap fun word => toLe word.toNat (b.var.width / 8)).take b.outlen

/-- The digest that INIT, UPDATE, FINAL give on a private instance (41_blake2.md R151; 45_kdf.md R240). -/
def blake2Hash (var : Variant) (key : Bytes) (ol : Nat) (msg : Bytes) : Bytes :=
  ((Blake2.zero.init var key ol).absorb msg).finish.digest

/-! ## The commands -/

/-- A key length and a digest length of a variant are in range (41_blake2.md R140, R141; 45_kdf.md R241). -/
def hashLengthsOk (var : Variant) (kn ol : Nat) : Bool :=
  decide (kn ≤ var.maxLen) && decide (1 ≤ ol) && decide (ol ≤ var.maxLen)

/-- The checks of B2B.INIT and B2S.INIT: lengths, then the key span (R140, R141). -/
def b2InitChecks (var : Variant) (sa : SpanReg) (xb : Reg) (s : State) : List Check :=
  [needLength (hashLengthsOk var (s.spanLen sa) (s.xNat xb)), needSpan s (s.spanAddr sa) (s.spanLen sa)]

/-- `InitSession(var, MemRead(x[ra], kn), ol)` (R140, R141). -/
def b2InitEffect (var : Variant) (sa : SpanReg) (xb : Reg) (s : State) : State :=
  { s with b2 := s.b2.init var (s.readSpan sa) (s.xNat xb) }

/-- `B2B.INIT sa, xb` (41_blake2.md R140). -/
def execB2bInit (sa : SpanReg) (xb : Reg) (s : State) : Result :=
  commit (encode (.b2bInit sa xb)) (b2InitChecks .blake2b sa xb s) (b2InitEffect .blake2b sa xb) s

/-- `B2S.INIT sa, xb` (41_blake2.md R141). -/
def execB2sInit (sa : SpanReg) (xb : Reg) (s : State) : Result :=
  commit (encode (.b2sInit sa xb)) (b2InitChecks .blake2s sa xb s) (b2InitEffect .blake2s sa xb) s

/-- The checks of B2.UPDATE: phase, then the data span (R143, R144). -/
def b2UpdateChecks (sa : SpanReg) (s : State) : List Check :=
  [needPhase (s.b2.phase == .active), needSpan s (s.spanAddr sa) (s.spanLen sa)]

/-- The data absorbed (R143). -/
def b2UpdateEffect (sa : SpanReg) (s : State) : State := { s with b2 := s.b2.absorb (s.readSpan sa) }

/-- `B2.UPDATE sa` (41_blake2.md R143). -/
def execB2Update (sa : SpanReg) (s : State) : Result :=
  commit (encode (.b2Update sa)) (b2UpdateChecks sa s) (b2UpdateEffect sa) s

/-- The checks of B2.FINAL: phase, then the digest's region (R144, R145). -/
def b2FinalChecks (xa : Reg) (s : State) : List Check :=
  [needPhase (s.b2.phase == .active), needSpan s (s.xNat xa) s.b2.outlen]

/-- The session finished and the digest written (R145). -/
def b2FinalEffect (xa : Reg) (s : State) : State :=
  { s with b2 := s.b2.finish }.memWrite (s.xNat xa) s.b2.finish.digest

/-- `B2.FINAL xa` (41_blake2.md R145). -/
def execB2Final (xa : Reg) (s : State) : Result :=
  commit (encode (.b2Final xa)) (b2FinalChecks xa s) (b2FinalEffect xa) s

end Sys2Proof.Machine
end

