-- ==== Sys2Proof/Machine/Control.lean ====
section
/-! DEFINITION. The control unit (spec/40_control.md): NOP, LDI, LDS, MOV, RDSR, CLRERR. -/

namespace Sys2Proof.Machine

/-- `NOP` (40_control.md R120): only CMDCNT and the status. -/
def execNop (s : State) : Result := commit (encode .nop) [] id s

/-- `x[ra] <- imm20` (R121). -/
def ldiEffect (xa : Reg) (imm20 : BitVec 20) (s : State) : State := s.setXNat xa imm20.toNat

/-- `LDI xa, imm20` (40_control.md R121). -/
def execLdi (xa : Reg) (imm20 : BitVec 20) (s : State) : Result :=
  commit (encode (.ldi xa imm20)) [] (ldiEffect xa imm20) s

/-- `x[ra] <- ((x[ra] << 20) | imm20) mod 2^64` (R122). -/
def ldsEffect (xa : Reg) (imm20 : BitVec 20) (s : State) : State :=
  s.setXNat xa (s.xNat xa <<< 20 ||| imm20.toNat)

/-- `LDS xa, imm20` (40_control.md R122). -/
def execLds (xa : Reg) (imm20 : BitVec 20) (s : State) : Result :=
  commit (encode (.lds xa imm20)) [] (ldsEffect xa imm20) s

/-- `x[ra] <- x[rb]` (R123). -/
def movEffect (xa xb : Reg) (s : State) : State := s.setX xa (s.getX xb)

/-- `MOV xa, xb` (40_control.md R123). -/
def execMov (xa xb : Reg) (s : State) : Result := commit (encode (.mov xa xb)) [] (movEffect xa xb) s

/-- RDSR of a number above 4 is an illegal command (10_state.md R26; 40_control.md R124). Decoding refuses such a word before
it is a command, so only an ill-formed term meets this check [log 11]. -/
def rdsrChecks (imm8 : BitVec 8) : List Check := [(statusNumberOk imm8, .usage .illegalCmd)]

/-- `x[ra] <- SR[imm8]` (R124). -/
def rdsrEffect (xa : Reg) (imm8 : BitVec 8) (s : State) : State := s.setX xa (s.statusRegister imm8.toNat)

/-- `RDSR xa, imm8` (40_control.md R124). -/
def execRdsr (xa : Reg) (imm8 : BitVec 8) (s : State) : Result :=
  commit (encode (.rdsr xa imm8)) (rdsrChecks imm8) (rdsrEffect xa imm8) s

/-- `SR0 <- 0; SR1 <- 0; SR2 <- 0` (R125). -/
def clrerrEffect (s : State) : State := { s with errflags := 0, lasterr := 0, lastcmd := 0 }

/-- `CLRERR` (40_control.md R125). -/
def execClrerr (s : State) : Result := commit (encode .clrerr) [] clrerrEffect s

end Sys2Proof.Machine
end

