-- ==== Sys2Proof/Machine/KdfUnit.lean ====
section
/-! DEFINITION. The PBKDF2 and HKDF engines on keyed BLAKE2 (spec/45_kdf.md). -/

namespace Sys2Proof.Machine

/-- `H(m)`: the BLAKE2 digest under the configuration held in `kdf`, on a private instance (45_kdf.md R240). -/
def Kdf.hash (k : Kdf) (m : Bytes) : Bytes := blake2Hash k.var (k.key.toList.take k.keylen) k.outlen m

/-- The variant that the immediate of KDF.CFG names: 0 BLAKE2b, 1 BLAKE2s (45_kdf.md R241). -/
def variantOf (imm8 : BitVec 8) : Variant := if imm8.toNat = 0 then .blake2b else .blake2s

/-- The checks of KDF.CFG: the lengths, then the key span (R241). Another immediate is an illegal command; decoding refuses
it before it is a command, so only an ill-formed term meets the first check [log 11]. -/
def kdfCfgChecks (sa : SpanReg) (xb : Reg) (imm8 : BitVec 8) (s : State) : List Check :=
  [(variantNumberOk imm8, .usage .illegalCmd),
   needLength (hashLengthsOk (variantOf imm8) (s.spanLen sa) (s.xNat xb)),
   needSpan s (s.spanAddr sa) (s.spanLen sa)]

/-- The configuration held (R241). -/
def kdfCfgEffect (sa : SpanReg) (xb : Reg) (imm8 : BitVec 8) (s : State) : State :=
  { s with
    kdf :=
      { phase := .ready
        var := variantOf imm8
        key := overwrite (.replicate 64 0) (s.readSpan sa)
        keylen := s.spanLen sa
        outlen := s.xNat xb } }

/-- `KDF.CFG sa, xb, imm8` (45_kdf.md R241). -/
def execKdfCfg (sa : SpanReg) (xb : Reg) (imm8 : BitVec 8) (s : State) : Result :=
  commit (encode (.kdfCfg sa xb imm8)) (kdfCfgChecks sa xb imm8 s) (kdfCfgEffect sa xb imm8) s

/-- `repeat k times: U <- H(U); T <- T xor U` (R243). -/
def pbkdf2Iterate (k : Kdf) : Nat → Bytes → Bytes → Bytes
  | 0, _, t => t
  | n + 1, u, t => pbkdf2Iterate k n (k.hash u) (xorBytes t (k.hash u))

/-- The block T_i of PBKDF2 (45_kdf.md R243). -/
def pbkdf2Block (k : Kdf) (salt : Bytes) (c i : Nat) : Bytes :=
  let u := k.hash (salt ++ toBe i 4)
  pbkdf2Iterate k (c - 1) u u

/-- The L bytes of PBKDF2 (45_kdf.md R242, R243). -/
def pbkdf2Output (k : Kdf) (salt : Bytes) (c len : Nat) : Bytes :=
  ((List.range (ceilDiv len k.outlen)).flatMap fun j => pbkdf2Block k salt c (j + 1)).take len

/-- The blocks T_i ‖ T_(i+1) ‖ ... of HKDF, `n` of them, after the block `prev` (empty before T_1) (45_kdf.md R244). -/
def hkdfBlocks (k : Kdf) (data : Bytes) : Nat → Nat → Bytes → Bytes
  | 0, _, _ => []
  | n + 1, i, prev =>
    let t := k.hash (prev ++ data ++ [BitVec.ofNat 8 i])
    t ++ hkdfBlocks k data n (i + 1) t

/-- The L bytes of HKDF (45_kdf.md R242, R244). -/
def hkdfOutput (k : Kdf) (data : Bytes) (len : Nat) : Bytes :=
  (hkdfBlocks k data (ceilDiv len k.outlen) 1 []).take len

/-- The checks of PBKDF2, in order (R243 (1) to (4)). -/
def pbkdf2Checks (sa sb : SpanReg) (xc : Reg) (s : State) : List Check :=
  [needPhase (s.kdf.phase == .ready),
   needCount (decide (1 ≤ s.xNat xc) && decide (1 ≤ s.spanLen sa)
     && decide (ceilDiv (s.spanLen sa) s.kdf.outlen ≤ 2 ^ 32 - 1)),
   needSpan s (s.spanAddr sa) (s.spanLen sa), needSpan s (s.spanAddr sb) (s.spanLen sb),
   needDistinct (!overlap (s.spanAddr sa) (s.spanLen sa) (s.spanAddr sb) (s.spanLen sb))]

/-- The derived key written (R243). -/
def pbkdf2Effect (sa sb : SpanReg) (xc : Reg) (s : State) : State :=
  s.memWrite (s.spanAddr sa) (pbkdf2Output s.kdf (s.readSpan sb) (s.xNat xc) (s.spanLen sa))

/-- `PBKDF2 sa, sb, xc` (45_kdf.md R243). -/
def execPbkdf2 (sa sb : SpanReg) (xc : Reg) (s : State) : Result :=
  commit (encode (.pbkdf2 sa sb xc)) (pbkdf2Checks sa sb xc s) (pbkdf2Effect sa sb xc) s

/-- The checks of HKDF, in order (R244 (1) to (4)). -/
def hkdfChecks (sa sb : SpanReg) (s : State) : List Check :=
  [needPhase (s.kdf.phase == .ready),
   needCount (decide (1 ≤ s.spanLen sa) && decide (s.spanLen sa ≤ 255 * s.kdf.outlen)),
   needSpan s (s.spanAddr sa) (s.spanLen sa), needSpan s (s.spanAddr sb) (s.spanLen sb),
   needDistinct (!overlap (s.spanAddr sa) (s.spanLen sa) (s.spanAddr sb) (s.spanLen sb))]

/-- The derived key written (R244). -/
def hkdfEffect (sa sb : SpanReg) (s : State) : State :=
  s.memWrite (s.spanAddr sa) (hkdfOutput s.kdf (s.readSpan sb) (s.spanLen sa))

/-- `HKDF sa, sb` (45_kdf.md R244). -/
def execHkdf (sa sb : SpanReg) (s : State) : Result :=
  commit (encode (.hkdf sa sb)) (hkdfChecks sa sb s) (hkdfEffect sa sb) s

end Sys2Proof.Machine
end

