-- ==== Sys2Proof/Machine/Pcg32.lean ====
section
/-! DEFINITION. The PCG32 generator (spec/47_pcg32.md). -/

namespace Sys2Proof.Machine

/-- `PCG_MULT` (47_pcg32.md R280). -/
def pcgMult : Word := 0x5851F42D4C957F2D

/-- `Step()` (47_pcg32.md R282). -/
def Pcg.step (g : Pcg) : Pcg := { g with lcg := g.lcg * pcgMult + g.inc }

/-- `Output(old)` (47_pcg32.md R280, R282). -/
def pcgOutput (old : Word) : Word32 :=
  rotr (((old >>> 18 ^^^ old) >>> 27).setWidth 32) (old >>> 59).toNat

/-- `Draw()`: the output of the state before the step, and the generator after it (47_pcg32.md R282). -/
def Pcg.draw (g : Pcg) : Word32 × Pcg := (pcgOutput g.lcg, g.step)

/-- One turn of the redraw loop: the result and the generator if the draw is accepted, else the generator after the rejected
draw (47_pcg32.md R284). -/
def drawOnce (lo range thr : Nat) (g : Pcg) : Except Pcg (Nat × Pcg) :=
  let m := g.draw.1.toNat * range
  if thr ≤ m % 2 ^ 32 then .ok (lo + m / 2 ^ 32, g.draw.2) else .error g.draw.2

/-- Up to 2^k turns of the redraw loop, stopping at the first accepted draw (47_pcg32.md R284). -/
def drawUpTo (lo range thr : Nat) : Nat → Pcg → Except Pcg (Nat × Pcg)
  | 0, g => drawOnce lo range thr g
  | k + 1, g =>
    match drawUpTo lo range thr k g with
    | .ok r => .ok r
    | .error g' => drawUpTo lo range thr k g'

/-- `Bounded(lo, hi)` for lo ≤ hi < 2^32 (47_pcg32.md R284). A loop that rejects 2^64 draws has seen every state it will ever
see and never ends; the answer is then none [log 6]. -/
def Pcg.bounded (g : Pcg) (lo hi : Nat) : Option (Nat × Pcg) :=
  let range := hi - lo + 1
  if range = 2 ^ 32 then some (g.draw.1.toNat, g.draw.2)
  else
    match drawUpTo lo range (2 ^ 32 % range) 64 g with
    | .ok r => some r
    | .error _ => none

/-- The loop of PCG.JUMP: (am, ap) after at most `fuel` turns, one for each bit of delta (47_pcg32.md R286). -/
def jumpLoop : Nat → Nat → Word → Word → Word → Word → Word × Word
  | 0, _, am, ap, _, _ => (am, ap)
  | fuel + 1, delta, am, ap, cm, cp =>
    if delta = 0 then (am, ap)
    else if delta % 2 = 1 then jumpLoop fuel (delta / 2) (am * cm) (ap * cm + cp) (cm * cm) ((cm + 1) * cp)
    else jumpLoop fuel (delta / 2) am ap (cm * cm) ((cm + 1) * cp)

/-- The generator advanced by `delta` steps (47_pcg32.md R286). -/
def Pcg.jump (g : Pcg) (delta : Word) : Pcg :=
  let r := jumpLoop 64 delta.toNat 1 0 pcgMult g.inc
  { g with lcg := r.1 * g.lcg + r.2 }

/-! ## The commands -/

/-- `pcg.state <- x[ra]; pcg.inc <- x[rb] | 1` (R281). -/
def pcgSeedEffect (xa xb : Reg) (s : State) : State := { s with pcg := { lcg := s.getX xa, inc := s.getX xb ||| 1 } }

/-- `PCG.SEED xa, xb` (47_pcg32.md R281). -/
def execPcgSeed (xa xb : Reg) (s : State) : Result := commit (encode (.pcgSeed xa xb)) [] (pcgSeedEffect xa xb) s

/-- `x[ra] <- Draw()` (R283). -/
def pcgNextEffect (xa : Reg) (s : State) : State :=
  { s with pcg := s.pcg.draw.2 }.setX xa (s.pcg.draw.1.setWidth 64)

/-- `PCG.NEXT xa` (47_pcg32.md R283). -/
def execPcgNext (xa : Reg) (s : State) : Result := commit (encode (.pcgNext xa)) [] (pcgNextEffect xa) s

/-- The lower and the upper bound of PCG.RANGE: the low halves of the bound registers, in order (R285). -/
def pcgBounds (xb xc : Reg) (s : State) : Nat × Nat :=
  let x := s.xNat xb % 2 ^ 32
  let y := s.xNat xc % 2 ^ 32
  (min x y, max x y)

/-- The result written and the generator advanced (R285). -/
def pcgRangeEffect (xa : Reg) (r : Nat × Pcg) (s : State) : State := { s with pcg := r.2 }.setXNat xa r.1

/-- `PCG.RANGE xa, xb, xc` (47_pcg32.md R285). -/
def execPcgRange (xa xb xc : Reg) (s : State) : Result :=
  match s.pcg.bounded (pcgBounds xb xc s).1 (pcgBounds xb xc s).2 with
  | some r => commit (encode (.pcgRange xa xb xc)) [] (pcgRangeEffect xa r) s
  | none => .fault .redrawEndless

/-- The generator jumps by the register's value (R286). -/
def pcgJumpEffect (xa : Reg) (s : State) : State := { s with pcg := s.pcg.jump (s.getX xa) }

/-- `PCG.JUMP xa` (47_pcg32.md R286). -/
def execPcgJump (xa : Reg) (s : State) : Result := commit (encode (.pcgJump xa)) [] (pcgJumpEffect xa) s

/-- `x[ra] <- pcg.state` (R287). -/
def pcgGetsEffect (xa : Reg) (s : State) : State := s.setX xa s.pcg.lcg

/-- `PCG.GETS xa` (47_pcg32.md R287). -/
def execPcgGets (xa : Reg) (s : State) : Result := commit (encode (.pcgGets xa)) [] (pcgGetsEffect xa) s

end Sys2Proof.Machine
end

