-- ==== Sys2Proof/Machine/Dispatch.lean ====
section
/-! DEFINITION. One arm per command: each is one call of its meaning. -/

namespace Sys2Proof.Machine

def exec (i : Instr) (s : State) : Host.Outcome State Fault Refusal :=
  match i with
  | .nop => Sys2Proof.Machine.execNop s
  | .ldi xa imm20 => Sys2Proof.Machine.execLdi xa imm20 s
  | .lds xa imm20 => Sys2Proof.Machine.execLds xa imm20 s
  | .mov xa xb => Sys2Proof.Machine.execMov xa xb s
  | .rdsr xa imm8 => Sys2Proof.Machine.execRdsr xa imm8 s
  | .clrerr => Sys2Proof.Machine.execClrerr s
  | .b2bInit sa xb => Sys2Proof.Machine.execB2bInit sa xb s
  | .b2sInit sa xb => Sys2Proof.Machine.execB2sInit sa xb s
  | .b2Update sa => Sys2Proof.Machine.execB2Update sa s
  | .b2Final xa => Sys2Proof.Machine.execB2Final xa s
  | .cc20Init sa sb => Sys2Proof.Machine.execCc20Init sa sb s
  | .xcc20Init sa sb => Sys2Proof.Machine.execXcc20Init sa sb s
  | .ccXform xa sb xc => Sys2Proof.Machine.execCcXform xa sb xc s
  | .p13Init sa => Sys2Proof.Machine.execP13Init sa s
  | .p13Update sa => Sys2Proof.Machine.execP13Update sa s
  | .p13Final xa => Sys2Proof.Machine.execP13Final xa s
  | .aeadInit sa sb sc => Sys2Proof.Machine.execAeadInit sa sb sc s
  | .aeadEnc xa sb sc => Sys2Proof.Machine.execAeadEnc xa sb sc s
  | .aeadDec xa sb sc => Sys2Proof.Machine.execAeadDec xa sb sc s
  | .kdfCfg sa xb imm8 => Sys2Proof.Machine.execKdfCfg sa xb imm8 s
  | .pbkdf2 sa sb xc => Sys2Proof.Machine.execPbkdf2 sa sb xc s
  | .hkdf sa sb => Sys2Proof.Machine.execHkdf sa sb s
  | .pcgSeed xa xb => Sys2Proof.Machine.execPcgSeed xa xb s
  | .pcgNext xa => Sys2Proof.Machine.execPcgNext xa s
  | .pcgRange xa xb xc => Sys2Proof.Machine.execPcgRange xa xb xc s
  | .pcgJump xa => Sys2Proof.Machine.execPcgJump xa s
  | .pcgGets xa => Sys2Proof.Machine.execPcgGets xa s
  | .rotl32 xa xb xc => Sys2Proof.Machine.execRotl32 xa xb xc s
  | .rotr32 xa xb xc => Sys2Proof.Machine.execRotr32 xa xb xc s
  | .rotl64 xa xb xc => Sys2Proof.Machine.execRotl64 xa xb xc s
  | .rotr64 xa xb xc => Sys2Proof.Machine.execRotr64 xa xb xc s
  | .lzcnt32 xa xb => Sys2Proof.Machine.execLzcnt32 xa xb s
  | .lzcnt64 xa xb => Sys2Proof.Machine.execLzcnt64 xa xb s
  | .tzcnt32 xa xb => Sys2Proof.Machine.execTzcnt32 xa xb s
  | .tzcnt64 xa xb => Sys2Proof.Machine.execTzcnt64 xa xb s
  | .popcnt32 xa xb => Sys2Proof.Machine.execPopcnt32 xa xb s
  | .popcnt64 xa xb => Sys2Proof.Machine.execPopcnt64 xa xb s
  | .log2f xa xb => Sys2Proof.Machine.execLog2f xa xb s
  | .log2c xa xb => Sys2Proof.Machine.execLog2c xa xb s
  | .ispow2 xa xb => Sys2Proof.Machine.execIspow2 xa xb s
  | .gcd xa xb xc => Sys2Proof.Machine.execGcd xa xb xc s
  | .modinv xa xb => Sys2Proof.Machine.execModinv xa xb s
  | .cteq xa sb sc => Sys2Proof.Machine.execCteq xa sb sc s
  | .xorb xa sb sc => Sys2Proof.Machine.execXorb xa sb sc s

end Sys2Proof.Machine
end

