-- ==== Sys2Proof/Machine/Port.lean ====
section
/-! DEFINITION. The command port and the host (spec/10_state.md R22, R24, R26; spec/20_memory.md R72; spec/70_reset_and_hazards.md
R380, R381, R384): what the host does between commands, and what it can read. -/

namespace Sys2Proof.Machine

/-- The host's next event and the state without it; none when the host does nothing. -/
def State.takeEvent (s : State) : Option (HostEvent × State) :=
  match s.port with
  | [] => none
  | e :: rest => some (e, { s with port := rest })

/-- A word that is no command: `UsageError(ILLEGAL_CMD)` and nothing else (30_encoding.md R97). -/
def illegalCommand (w : Word32) (s : State) : Result := .next (s.raise w (.usage .illegalCmd))

/-- The host writes bytes to BUF between commands (10_state.md R43; 20_memory.md R69, R72). It is no command: CMDCNT and the
status stay. An access outside BUF stops the model [log 7]. -/
def hostWrite (addr : Nat) (bytes : Bytes) (s : State) : Result :=
  if s.spanOk addr bytes.length then .next (s.memWrite addr bytes) else .fault .hostWriteOutsideBuf

/-- The reset event (70_reset_and_hazards.md R380): every piece of state at its reset value, BUF's bytes arbitrary anew; what
the host does afterwards and the instance's parameters are no state of the CORE and stay [log 5]. -/
def resetEvent (s : State) : State := State.afterReset s.cfg (s.resets + 1) s.port

/-- What the host reads of a general register between commands (10_state.md R22) [log 15]. -/
def hostReadX (s : State) (r : Reg) : Word := s.getX r

/-- What the host reads of a status register between commands (10_state.md R26) [log 15]. -/
def hostReadSr (s : State) (n : Fin 5) : Word := s.statusRegister n.val

/-- What the host reads of BUF between commands (10_state.md R43; 20_memory.md R69); none outside BUF [log 15]. -/
def hostReadBuf (s : State) (addr n : Nat) : Option Bytes :=
  if s.spanOk addr n then some (s.memRead addr n) else none

end Sys2Proof.Machine
end

