-- ==== Sys2Proof/Machine/Step.lean ====
section
/-! DEFINITION. One step of the machine: the host's next event. A command word is decoded and executed to completion before
the next is taken (spec/10_state.md R24; spec/20_memory.md R72; spec/70_reset_and_hazards.md R383, R384). -/

namespace Sys2Proof.Machine

/-- The CORE takes a command word from the port: decode it, then execute the command or refuse the word
(30_encoding.md R97, R98; 60_exceptions.md R345). -/
def acceptCommand (w : Word32) (s : State) : Result :=
  match decode w with
  | .ok i => exec i s
  | .error _ => illegalCommand w s

/-- One step: the host's next event takes effect. With no event the CORE holds its state and does nothing
(60_exceptions.md R357). -/
def step (s : State) : Host.Outcome State Fault Refusal :=
  match s.takeEvent with
  | none => .next s
  | some (.command w, s') => acceptCommand w s'
  | some (.writeBuf addr bytes, s') => hostWrite addr bytes s'
  | some (.reset, s') => .next (resetEvent s')

/-- The state in which the host's next event is the command word `w`, numbered as spec/opcode_table.json numbers it, its bits
from `nbits` up zero [log 1]. -/
def State.withFetchWord (s : State) (nbits w : Nat) : State :=
  { s with port := .command (BitVec.ofNat 32 (w % 2 ^ nbits)) :: s.port }

end Sys2Proof.Machine
end

