-- ==== Sys2Proof/Machine/Assembler.lean ====
section
/-! DEFINITION. The assembler's text of a command and the pseudo-instructions LI and LSPAN (spec/30_encoding.md R100, R101).
They add no state and no command to the hardware. -/

namespace Sys2Proof.Machine

/-- A scalar register operand, `x0` .. `x15` (R100). -/
def asmX (r : Reg) : String := "x" ++ toString r.val
/-- A span operand, `s0` .. `s15` (R100). -/
def asmS (r : SpanReg) : String := "s" ++ toString r.val
/-- A mnemonic and its operands, separated by commas (R100). -/
def asmLine (mnemonic : String) (operands : List String) : String :=
  if operands = [] then mnemonic else mnemonic ++ " " ++ String.intercalate ", " operands

/-- The assembly text of a command: the mnemonic as in the table, the operands in the order ra, rb, rc, immediate; immediates
in decimal (R100). -/
def asm : Instr → String
  | .nop => asmLine "NOP" []
  | .ldi xa imm20 => asmLine "LDI" [asmX xa, toString imm20.toNat]
  | .lds xa imm20 => asmLine "LDS" [asmX xa, toString imm20.toNat]
  | .mov xa xb => asmLine "MOV" [asmX xa, asmX xb]
  | .rdsr xa imm8 => asmLine "RDSR" [asmX xa, toString imm8.toNat]
  | .clrerr => asmLine "CLRERR" []
  | .b2bInit sa xb => asmLine "B2B.INIT" [asmS sa, asmX xb]
  | .b2sInit sa xb => asmLine "B2S.INIT" [asmS sa, asmX xb]
  | .b2Update sa => asmLine "B2.UPDATE" [asmS sa]
  | .b2Final xa => asmLine "B2.FINAL" [asmX xa]
  | .cc20Init sa sb => asmLine "CC20.INIT" [asmS sa, asmS sb]
  | .xcc20Init sa sb => asmLine "XCC20.INIT" [asmS sa, asmS sb]
  | .ccXform xa sb xc => asmLine "CC.XFORM" [asmX xa, asmS sb, asmX xc]
  | .p13Init sa => asmLine "P13.INIT" [asmS sa]
  | .p13Update sa => asmLine "P13.UPDATE" [asmS sa]
  | .p13Final xa => asmLine "P13.FINAL" [asmX xa]
  | .aeadInit sa sb sc => asmLine "AEAD.INIT" [asmS sa, asmS sb, asmS sc]
  | .aeadEnc xa sb sc => asmLine "AEAD.ENC" [asmX xa, asmS sb, asmS sc]
  | .aeadDec xa sb sc => asmLine "AEAD.DEC" [asmX xa, asmS sb, asmS sc]
  | .kdfCfg sa xb imm8 => asmLine "KDF.CFG" [asmS sa, asmX xb, toString imm8.toNat]
  | .pbkdf2 sa sb xc => asmLine "PBKDF2" [asmS sa, asmS sb, asmX xc]
  | .hkdf sa sb => asmLine "HKDF" [asmS sa, asmS sb]
  | .pcgSeed xa xb => asmLine "PCG.SEED" [asmX xa, asmX xb]
  | .pcgNext xa => asmLine "PCG.NEXT" [asmX xa]
  | .pcgRange xa xb xc => asmLine "PCG.RANGE" [asmX xa, asmX xb, asmX xc]
  | .pcgJump xa => asmLine "PCG.JUMP" [asmX xa]
  | .pcgGets xa => asmLine "PCG.GETS" [asmX xa]
  | .rotl32 xa xb xc => asmLine "ROTL32" [asmX xa, asmX xb, asmX xc]
  | .rotr32 xa xb xc => asmLine "ROTR32" [asmX xa, asmX xb, asmX xc]
  | .rotl64 xa xb xc => asmLine "ROTL64" [asmX xa, asmX xb, asmX xc]
  | .rotr64 xa xb xc => asmLine "ROTR64" [asmX xa, asmX xb, asmX xc]
  | .lzcnt32 xa xb => asmLine "LZCNT32" [asmX xa, asmX xb]
  | .lzcnt64 xa xb => asmLine "LZCNT64" [asmX xa, asmX xb]
  | .tzcnt32 xa xb => asmLine "TZCNT32" [asmX xa, asmX xb]
  | .tzcnt64 xa xb => asmLine "TZCNT64" [asmX xa, asmX xb]
  | .popcnt32 xa xb => asmLine "POPCNT32" [asmX xa, asmX xb]
  | .popcnt64 xa xb => asmLine "POPCNT64" [asmX xa, asmX xb]
  | .log2f xa xb => asmLine "LOG2F" [asmX xa, asmX xb]
  | .log2c xa xb => asmLine "LOG2C" [asmX xa, asmX xb]
  | .ispow2 xa xb => asmLine "ISPOW2" [asmX xa, asmX xb]
  | .gcd xa xb xc => asmLine "GCD" [asmX xa, asmX xb, asmX xc]
  | .modinv xa xb => asmLine "MODINV" [asmX xa, asmX xb]
  | .cteq xa sb sc => asmLine "CTEQ" [asmX xa, asmS sb, asmS sc]
  | .xorb xa sb sc => asmLine "XORB" [asmX xa, asmS sb, asmS sc]

/-- `LI xa, v`: one LDI for v < 2^20, otherwise LDI and three LDS, the highest bits first (R101). The spec lets leading all-zero
steps be dropped (two commands for v < 2^40, three for v < 2^60); that none is dropped is the model's choice, which CMDCNT
shows [log 19]. -/
def li (xa : Reg) (v : Nat) : List Instr :=
  if v < 2 ^ 20 then [.ldi xa (BitVec.ofNat 20 v)]
  else
    [.ldi xa (BitVec.ofNat 20 (v / 2 ^ 60 % 2 ^ 4)), .lds xa (BitVec.ofNat 20 (v / 2 ^ 40)),
     .lds xa (BitVec.ofNat 20 (v / 2 ^ 20)), .lds xa (BitVec.ofNat 20 v)]

/-- `LSPAN sN, addr, n` (R101). -/
def lspan (r : SpanReg) (addr n : Nat) : List Instr := li r addr ++ li (r + 1) n

end Sys2Proof.Machine
end

