-- ==== Sys2Proof/Machine/HostSequences.lean ====
section
/-! DEFINITION. The host's software around the block (spec/46_host_sequences.md R260 to R268): command sequences and codecs.
They add no state and no command to the hardware (spec/00_scope.md R4). What the spec leaves open of them is an argument
(`HEX_CASE`, `SHUFFLE_INCLUSIVE`, what a ShuffleBag does with one slot left, the digest length and the iteration count of
PasswordHash) [log 18]. -/

namespace Sys2Proof.Machine

/-- The commands of a list executed in order, as long as each answers a next state (R260). -/
def runCommands : List Instr → State → Result
  | [], s => .next s
  | i :: is, s =>
    match exec i s with
    | .next t => runCommands is t
    | .fault f => .fault f
    | .refused r => .refused r

/-- PasswordHash.generate: the password of `pn` bytes at `p`, the salt of `sn` bytes at `sAddr`, `len` result bytes at `d`, `c`
iterations of a keyed BLAKE2b of digest length `ol` (46_host_sequences.md R261). -/
def passwordHashGenerate (p pn sAddr sn d len c ol : Nat) : List Instr :=
  li 2 p ++ li 3 pn ++ li 4 ol ++ [.kdfCfg 2 4 0] ++ li 6 d ++ li 7 len ++ li 8 sAddr ++ li 9 sn ++ li 10 c
    ++ [.pbkdf2 6 8 10]

/-- PasswordHash.validate: generate, then compare with the candidate of `cn` bytes at `cAddr`; x0 = 1 only if it has the same
length and bytes (R262). -/
def passwordHashValidate (p pn sAddr sn d len c ol cAddr cn : Nat) : List Instr :=
  passwordHashGenerate p pn sAddr sn d len c ol ++ li 12 cAddr ++ li 13 cn ++ [.cteq 0 6 12]

/-- The case of the digits that the hex codec emits: the open parameter `HEX_CASE` (R263). -/
inductive HexCase where
  | lower
  | upper
  deriving DecidableEq, Repr

/-- The character code of a hex digit 0 .. 15 in a case. -/
def hexDigit (hc : HexCase) (d : Nat) : Nat :=
  if d < 10 then 48 + d else match hc with
    | .lower => 87 + d
    | .upper => 55 + d

/-- The value of a hex digit's character code; both cases are accepted (R263). -/
def hexValue (ch : Nat) : Option Nat :=
  if 48 ≤ ch ∧ ch ≤ 57 then some (ch - 48)
  else if 97 ≤ ch ∧ ch ≤ 102 then some (ch - 87)
  else if 65 ≤ ch ∧ ch ≤ 70 then some (ch - 55)
  else none

/-- encode: two digits a byte, high nibble first, as character codes (R263). -/
def hexEncode (hc : HexCase) (b : Bytes) : List Nat :=
  b.flatMap fun x => [hexDigit hc (x.toNat / 16), hexDigit hc (x.toNat % 16)]

/-- decode: even length, hex digits of either case; the empty text is the empty byte string. What malformed text does is not in
the source: none (R263; 93_implementation_defined.md U8). -/
def hexDecode : List Nat → Option Bytes
  | [] => some []
  | [_] => none
  | hi :: lo :: rest =>
    match hexValue hi, hexValue lo, hexDecode rest with
    | some h, some l, some bs => some (BitVec.ofNat 8 (16 * h + l) :: bs)
    | _, _, _ => none

/-! ### ShuffleBag (R264, R265) -/

/-- What a draw does when one slot is left unshuffled. The spec leaves it open for the host to fix (R264;
91_not_in_source.md N26); that a host has these three ways is the model's choice [log 18]. -/
inductive LastSlot where
  /-- PCG.RANGE with both bounds at the slot: the generator takes a step, the slot is yielded -/
  | drawn
  /-- no command: the slot is yielded -/
  | kept
  /-- no draw: the bag is at its end -/
  | refused
  deriving DecidableEq, Repr

/-- What the host fixes of its bags: the open parameter `SHUFFLE_INCLUSIVE`, and the draw with one slot left (R264). -/
structure ShuffleParams where
  inclusive : Bool
  lastSlot : LastSlot
  deriving DecidableEq, Repr

/-- A bag over the host's element array: the window's first index and the number m of slots still unshuffled (R264). -/
structure ShuffleBag (α : Type) where
  elems : List α
  offset : Nat
  remaining : Nat
  deriving DecidableEq, Repr

/-- The index bounds of the draw with `m` slots still unshuffled, the last of them at `offset + m − 1`: whether that slot may be
chosen itself is `SHUFFLE_INCLUSIVE` (R264). None where the draw issues no command: no slot left, or the last one kept or
refused [log 18]. -/
def shuffleBounds (p : ShuffleParams) (offset : Nat) : Nat → Option (Nat × Nat)
  | 0 => none
  | 1 =>
    match p.lastSlot with
    | .drawn => some (offset, offset)
    | .kept => none
    | .refused => none
  | m + 2 => some (offset, if p.inclusive then offset + m + 1 else offset + m)

/-- The commands that put the bounds into `xlo` and `xhi` (R101). -/
def shuffleLoad (xlo xhi : Reg) (bounds : Nat × Nat) : List Instr := li xlo bounds.1 ++ li xhi bounds.2

/-- The command of a forward draw: the index goes to `xd`, the bounds stand in `xlo` and `xhi` (R264). -/
def shuffleDraw (xd xlo xhi : Reg) : List Instr := [.pcgRange xd xlo xhi]

/-- The commands of one reverse step, `xm` holding 2^64 − 1: back, the same draw again, back (R265). -/
def shuffleReverse (xd xlo xhi xm : Reg) : List Instr := [.pcgJump xm, .pcgRange xd xlo xhi, .pcgJump xm]

/-- The host's swap of two slots of its element array (R264). -/
def shuffleSwap {α : Type} (xs : List α) (i j : Nat) : List α :=
  match xs[i]?, xs[j]? with
  | some a, some b => (xs.set i b).set j a
  | _, _ => xs

/-- The host's part of a forward draw whose index is `i`: swap slot `i` with the last unshuffled one, yield the element that is
there now, and shrink the window by one (R264). -/
def ShuffleBag.take {α : Type} (b : ShuffleBag α) (i : Nat) : Option (α × ShuffleBag α) :=
  match b.remaining with
  | 0 => none
  | m + 1 =>
    let elems := shuffleSwap b.elems i (b.offset + m)
    elems[b.offset + m]?.map fun a => (a, { b with elems, remaining := m })

/-- The host's part of a reverse step whose regenerated index is `i`: the window grows by one, and the same two elements are
swapped back (R265). -/
def ShuffleBag.untake {α : Type} (b : ShuffleBag α) (i : Nat) : ShuffleBag α :=
  { b with elems := shuffleSwap b.elems i (b.offset + b.remaining), remaining := b.remaining + 1 }

/-- The CORE after a list of commands, if every one answered a next state. -/
def afterCommands (is : List Instr) (s : State) : Option State :=
  match runCommands is s with
  | .next t => some t
  | .fault _ => none
  | .refused _ => none

/-- One forward draw of a bag: the bounds loaded, PCG.RANGE, the host's swap at the index it reads from `xd`; the element
yielded, the bag and the CORE afterwards (R264). -/
def ShuffleBag.draw {α : Type} (p : ShuffleParams) (b : ShuffleBag α) (xd xlo xhi : Reg) (s : State) :
    Option (α × ShuffleBag α × State) :=
  match shuffleBounds p b.offset b.remaining with
  | some bounds =>
    (afterCommands (shuffleLoad xlo xhi bounds ++ shuffleDraw xd xlo xhi) s).bind fun t =>
      (b.take (hostReadX t xd).toNat).map fun r => (r.1, r.2, t)
  | none =>
    if p.lastSlot = .kept then (b.take b.offset).map fun r => (r.1, r.2, s) else none

/-- One reverse step of a bag, undoing its latest draw: the bounds of that draw and 2^64 − 1 loaded, jump, draw, jump, then the
host's swap back. It restores the bag when that draw took one generator step (R265; 90_conflicts.md C5). -/
def ShuffleBag.undraw {α : Type} (p : ShuffleParams) (b : ShuffleBag α) (xd xlo xhi xm : Reg) (s : State) :
    Option (ShuffleBag α × State) :=
  match shuffleBounds p b.offset (b.remaining + 1) with
  | some bounds =>
    (afterCommands (shuffleLoad xlo xhi bounds ++ li xm (2 ^ 64 - 1) ++ shuffleReverse xd xlo xhi xm) s).map fun t =>
      (b.untake (hostReadX t xd).toNat, t)
  | none => if p.lastSlot = .kept then some (b.untake b.offset, s) else none

/-! ### Seeding and streaming (R266, R267) -/

/-- Seeding as the published pcg32 does, up to the host's addition: state 0, increment `initseq × 2 + 1`, one step, the state
read into x1 (R267). -/
def pcg32SeedFirst (initseq : Nat) : List Instr :=
  li 1 0 ++ li 2 ((initseq * 2 + 1) % 2 ^ 64) ++ [.pcgSeed 1 2, .pcgNext 0, .pcgGets 1]

/-- The rest of the seeding: x1 set to the read state plus `initstate`, seeded, one step; x2 still holds the increment
(R267). -/
def pcg32SeedSecond (readState initstate : Nat) : List Instr :=
  li 1 ((readState + initstate) % 2 ^ 64) ++ [.pcgSeed 1 2, .pcgNext 0]

/-- One chunk of a streamed hash (R266). -/
def streamHashChunk (addr n : Nat) : List Instr := lspan 4 addr n ++ [.b2Update 4]
/-- One chunk of a streamed MAC (R266). -/
def streamMacChunk (addr n : Nat) : List Instr := lspan 4 addr n ++ [.p13Update 4]
/-- One chunk of a streamed cipher, the counter register x8 carried from one chunk to the next; every chunk but the last a
multiple of 64 bytes (R266). -/
def streamCipherChunk (src n dst : Nat) : List Instr := lspan 4 src n ++ li 6 dst ++ [.ccXform 6 4 8]

end Sys2Proof.Machine
end

