-- ==== Sys2Proof/Safety.lean ====
section
/-! DEFINITION. The terms in which claims speak of the CORE: the invariant of a state (spec/10_state.md R27 to R42), what a
command leaves unchanged, its checks, when its rule refuses it, its operands, its destination register, the regions and the
engine it writes, and reference definitions that claims compare the machine with. -/

namespace Sys2Proof.Machine

/-! ## The invariant -/

/-- A BLAKE2 session (10_state.md R30, R31): the fill is within the block, the counter and the state words within their widths,
the digest length in range; a session whose first block is still to be compressed is ACTIVE, full, and counts it. -/
structure Blake2.Inv (b : Blake2) : Prop where
  fill : b.fill ≤ b.var.blockBytes
  words : ∀ i, (b.h.get i).toNat < 2 ^ b.var.width
  counter : b.t.toNat < 2 ^ (2 * b.var.width)
  outlen : b.outlen ≤ b.var.maxLen
  activeLen : b.phase = .active → 1 ≤ b.outlen
  first : b.cfb = true → b.phase = .active ∧ b.fill = b.var.blockBytes ∧ b.t.toNat = b.var.blockBytes

/-- The words of a context that is in use (10_state.md R33): the constants, and counter word 0. -/
def contextWords (w : Vector Word32 16) : Prop :=
  w.get 0 = chachaConst.get 0 ∧ w.get 1 = chachaConst.get 1 ∧ w.get 2 = chachaConst.get 2 ∧ w.get 3 = chachaConst.get 3
    ∧ w.get 12 = 0

/-- The ChaCha context (10_state.md R33): word 13 is 0 for XChaCha20. -/
structure Chacha.Inv (c : Chacha) : Prop where
  words : c.phase = .ready → contextWords c.w
  nonce : c.var = .xchacha20 → c.w.get 13 = 0

/-- The limbs between commands (10_state.md R36): below 2^26, but limb 1 below 2^26 + 2^7. -/
structure Limbs.Reduced (l : Limbs) : Prop where
  l0 : l.l0 < 2 ^ 26
  l1 : l.l1 < 2 ^ 26 + 2 ^ 7
  l2 : l.l2 < 2 ^ 26
  l3 : l.l3 < 2 ^ 26
  l4 : l.l4 < 2 ^ 26

/-- A Poly1305 session (10_state.md R36). -/
structure PolyMac.Inv (p : PolyMac) : Prop where
  h : (Limbs.ofFields p.h).Reduced
  r : ∀ i, (p.r.get i).toNat < 2 ^ 26
  s5 : ∀ i : Fin 4, (p.s5.get i).toNat = 5 * (p.r.get i.succ).toNat
  fill : p.fill ≤ 15

/-- The AEAD controller (10_state.md R38, R39): when READY the associated data and its padding are absorbed whole. -/
structure Aead.Inv (a : Aead) : Prop where
  p : a.p.Inv
  words : a.phase = .ready → contextWords a.w
  whole : a.phase = .ready → a.p.fill = 0

/-- The KDF engine (10_state.md R40; 45_kdf.md R241): lengths in range, the key padded with zero bytes. -/
structure Kdf.Inv (k : Kdf) : Prop where
  keylen : k.keylen ≤ k.var.maxLen
  outlen : k.outlen ≤ k.var.maxLen
  readyLen : k.phase = .ready → 1 ≤ k.outlen
  padding : ∀ i : Fin 64, k.keylen ≤ i.val → k.key.get i = 0

/-- The invariant of the machine. -/
structure State.Inv (s : State) : Prop where
  /-- BUF_BYTES is in its range (00_scope.md R7) -/
  cfg : s.cfg.wf
  /-- memory is in its canonical form -/
  memWf : s.buf.wf
  /-- every written byte lies in BUF (20_memory.md R60) -/
  memIn : ∀ c ∈ s.buf, c.1 < s.cfg.bufBytes
  /-- bits 63:3 of SR0 are zero (10_state.md R27) -/
  sr0 : s.errflags.toNat < 2 ^ 3
  /-- SR1 is 0 or the record of an error, whose bit is set in SR0 (10_state.md R27, R28) -/
  sr1 : (s.lasterr = 0 ∧ s.errflags = 0) ∨ ∃ e : Error, s.lasterr = e.record ∧ s.errflags &&& e.flag = e.flag
  /-- bits 63:32 of SR2 are zero (10_state.md R28) -/
  sr2 : s.lastcmd.toNat < 2 ^ 32
  b2 : s.b2.Inv
  cc : s.cc.Inv
  p13 : s.p13.mac.Inv
  aead : s.aead.Inv
  kdf : s.kdf.Inv
  /-- `pcg.inc` is odd (10_state.md R42) -/
  pcg : s.pcg.inc.toNat % 2 = 1

/-! ## What a command leaves unchanged -/

/-- Every general register but `xa` is unchanged. -/
def KeepsRegsBut (xa : Reg) (s t : State) : Prop := ∀ r, r ≠ xa → t.getX r = s.getX r

/-- Every general register is unchanged. -/
def KeepsRegs (s t : State) : Prop := ∀ r, t.getX r = s.getX r

/-- SR0, SR1 and SR2 are unchanged. -/
def KeepsErrors (s t : State) : Prop := t.errflags = s.errflags ∧ t.lasterr = s.lasterr ∧ t.lastcmd = s.lastcmd

/-- Every byte of BUF reads as before. -/
def KeepsBuf (s t : State) : Prop := ∀ a, t.readByte a = s.readByte a

/-- Every byte of BUF outside the region (addr, n) reads as before. -/
def KeepsBufOutside (addr n : Nat) (s t : State) : Prop :=
  ∀ a, a < addr ∨ addr + n ≤ a → t.readByte a = s.readByte a

/-- Every session, and the generator, is unchanged. -/
def KeepsSessions (s t : State) : Prop :=
  t.b2 = s.b2 ∧ t.cc = s.cc ∧ t.p13 = s.p13 ∧ t.aead = s.aead ∧ t.kdf = s.kdf ∧ t.pcg = s.pcg

/-- The instance's parameters, the count of resets and the host's pending events are unchanged. -/
def KeepsEnv (s t : State) : Prop := t.cfg = s.cfg ∧ t.resets = s.resets ∧ t.port = s.port

/-- The command completed with status OK and was counted (10_state.md R24; 60_exceptions.md R343). -/
def CompletedOk (s t : State) : Prop := t.cmdcnt = s.cmdcnt + 1 ∧ t.status = some .ok

/-- The command completed OK and wrote `v` to `xa`, and nothing else changed. -/
def WroteOnlyReg (xa : Reg) (v : Word) (s t : State) : Prop :=
  t.getX xa = v ∧ KeepsRegsBut xa s t ∧ KeepsErrors s t ∧ KeepsBuf s t ∧ KeepsSessions s t ∧ KeepsEnv s t ∧ CompletedOk s t

/-- The command completed OK and wrote the byte string `v` to BUF from `addr` on, and nothing but what the claim names apart
from this changed: registers, SR0 to SR2, BUF outside the region, the environment. -/
def WroteOnlyBuf (addr : Nat) (v : Bytes) (s t : State) : Prop :=
  t.memRead addr v.length = v ∧ KeepsBufOutside addr v.length s t ∧ KeepsRegs s t ∧ KeepsErrors s t ∧ KeepsEnv s t
    ∧ CompletedOk s t

/-- The command completed OK and changed no register, no byte of BUF and none of SR0 to SR2: what is left is a session. -/
def WroteOnlySession (s t : State) : Prop :=
  KeepsRegs s t ∧ KeepsErrors s t ∧ KeepsBuf s t ∧ KeepsEnv s t ∧ CompletedOk s t

/-- The command of word `w` raised `e` and nothing happened but (b) to (f) of 60_exceptions.md R344. -/
def RaisedOnly (w : Word32) (e : Error) (s t : State) : Prop :=
  t.errflags = s.errflags ||| BitVec.ofNat 64 (2 ^ (e.cause - 1)) ∧ t.lasterr.toNat = e.cause + e.detail * 2 ^ 8
    ∧ t.lastcmd.toNat = w.toNat ∧ t.cmdcnt = s.cmdcnt + 1 ∧ t.status = some e.status
    ∧ KeepsRegs s t ∧ KeepsBuf s t ∧ KeepsSessions s t ∧ KeepsEnv s t

/-! ## Per command: its checks, its destination register, the regions it writes -/

/-- The checks of a command on a state, in order; AEAD.DEC's comparison of tags comes after them. -/
def checksOf (s : State) : Instr → List Check
  | .nop => []
  | .ldi _ _ => []
  | .lds _ _ => []
  | .mov _ _ => []
  | .rdsr _ imm8 => rdsrChecks imm8
  | .clrerr => []
  | .b2bInit sa xb => b2InitChecks .blake2b sa xb s
  | .b2sInit sa xb => b2InitChecks .blake2s sa xb s
  | .b2Update sa => b2UpdateChecks sa s
  | .b2Final xa => b2FinalChecks xa s
  | .cc20Init sa sb => ccInitChecks 12 sa sb s
  | .xcc20Init sa sb => ccInitChecks 24 sa sb s
  | .ccXform xa sb xc => ccXformChecks xa sb xc s
  | .p13Init sa => p13InitChecks sa s
  | .p13Update sa => p13UpdateChecks sa s
  | .p13Final xa => p13FinalChecks xa s
  | .aeadInit sa sb sc => aeadInitChecks sa sb sc s
  | .aeadEnc xa sb sc => aeadPayloadChecks xa sb sc s
  | .aeadDec xa sb sc => aeadPayloadChecks xa sb sc s
  | .kdfCfg sa xb imm8 => kdfCfgChecks sa xb imm8 s
  | .pbkdf2 sa sb xc => pbkdf2Checks sa sb xc s
  | .hkdf sa sb => hkdfChecks sa sb s
  | .pcgSeed _ _ => []
  | .pcgNext _ => []
  | .pcgRange _ _ _ => []
  | .pcgJump _ => []
  | .pcgGets _ => []
  | .rotl32 _ _ _ => []
  | .rotr32 _ _ _ => []
  | .rotl64 _ _ _ => []
  | .rotr64 _ _ _ => []
  | .lzcnt32 _ _ => []
  | .lzcnt64 _ _ => []
  | .tzcnt32 _ _ => []
  | .tzcnt64 _ _ => []
  | .popcnt32 _ _ => []
  | .popcnt64 _ _ => []
  | .log2f _ _ => []
  | .log2c _ _ => []
  | .ispow2 _ _ => []
  | .gcd _ _ _ => []
  | .modinv _ xb => modinvChecks xb s
  | .cteq _ sb sc => cteqChecks sb sc s
  | .xorb xa sb sc => xorbChecks xa sb sc s

/-- Every check of the command passes. -/
def Accepts (s : State) (i : Instr) : Prop := ∀ c ∈ checksOf s i, c.1 = true

/-- A region that CheckSpan refuses: it is not empty and reaches past BUF (20_memory.md R64, R65). -/
def OutsideBuf (s : State) (addr n : Nat) : Prop := n ≠ 0 ∧ s.cfg.bufBytes < addr + n

/-- Two regions share a byte (20_memory.md R66). -/
def ShareByte (a1 n1 a2 n2 : Nat) : Prop := ∃ k, (a1 ≤ k ∧ k < a1 + n1) ∧ (a2 ≤ k ∧ k < a2 + n2)

/-- When a key length and a digest length are refused, `maxLen` being the variant's limit (41_blake2.md R140, R141;
45_kdf.md R241). -/
def LengthsOutOfRange (maxLen kn ol : Nat) : Prop := maxLen < kn ∨ ol = 0 ∨ maxLen < ol

/-- When AEAD.ENC and AEAD.DEC are refused before the tag is looked at (44_aead.md R223, R224, R225), one-shot use included
(R220). -/
def aeadRefusals (s : State) (xa : Reg) (sb sc : SpanReg) : List (Prop × Error) :=
  [(s.aead.phase ≠ .ready, .usage .badPhase), (s.spanLen sc ≠ 16, .usage .badLength),
   (OutsideBuf s (s.spanAddr sb) (s.spanLen sb), .usage .badSpan), (OutsideBuf s (s.xNat xa) (s.spanLen sb), .usage .badSpan),
   (OutsideBuf s (s.spanAddr sc) 16, .usage .badSpan),
   ((s.xNat xa ≠ s.spanAddr sb ∧ ShareByte (s.xNat xa) (s.spanLen sb) (s.spanAddr sb) (s.spanLen sb))
      ∨ ShareByte (s.spanAddr sc) 16 (s.spanAddr sb) (s.spanLen sb) ∨ ShareByte (s.spanAddr sc) 16 (s.xNat xa) (s.spanLen sb),
     .usage .overlap),
   (2 ^ 64 - 1 < 1 + (s.aead.w.get 13).toNat * 2 ^ 32 + (s.spanLen sb + 63) / 64, .arithmeticOverflow)]

/-- When a command is refused and with which error, written from the command's own rule over numbers and not over the machine's
checks: conditions in the rule's order, the first that holds decides (60_exceptions.md R345). -/
def refusals (s : State) : Instr → List (Prop × Error)
  | .b2bInit sa xb =>
    [(LengthsOutOfRange 64 (s.spanLen sa) (s.xNat xb), .usage .badLength),
     (OutsideBuf s (s.spanAddr sa) (s.spanLen sa), .usage .badSpan)]
  | .b2sInit sa xb =>
    [(LengthsOutOfRange 32 (s.spanLen sa) (s.xNat xb), .usage .badLength),
     (OutsideBuf s (s.spanAddr sa) (s.spanLen sa), .usage .badSpan)]
  | .b2Update sa =>
    [(s.b2.phase ≠ .active, .usage .badPhase), (OutsideBuf s (s.spanAddr sa) (s.spanLen sa), .usage .badSpan)]
  | .b2Final xa =>
    [(s.b2.phase ≠ .active, .usage .badPhase), (OutsideBuf s (s.xNat xa) s.b2.outlen, .usage .badSpan)]
  | .cc20Init sa sb =>
    [(s.spanLen sa ≠ 32 ∨ s.spanLen sb ≠ 12, .usage .badLength),
     (OutsideBuf s (s.spanAddr sa) (s.spanLen sa), .usage .badSpan),
     (OutsideBuf s (s.spanAddr sb) (s.spanLen sb), .usage .badSpan)]
  | .xcc20Init sa sb =>
    [(s.spanLen sa ≠ 32 ∨ s.spanLen sb ≠ 24, .usage .badLength),
     (OutsideBuf s (s.spanAddr sa) (s.spanLen sa), .usage .badSpan),
     (OutsideBuf s (s.spanAddr sb) (s.spanLen sb), .usage .badSpan)]
  | .ccXform xa sb xc =>
    [(s.cc.phase ≠ .ready, .usage .badPhase), (OutsideBuf s (s.spanAddr sb) (s.spanLen sb), .usage .badSpan),
     (OutsideBuf s (s.xNat xa) (s.spanLen sb), .usage .badSpan),
     (s.xNat xa ≠ s.spanAddr sb ∧ ShareByte (s.xNat xa) (s.spanLen sb) (s.spanAddr sb) (s.spanLen sb), .usage .overlap),
     (s.cc.var = .chacha20 ∧ 2 ^ 32 ≤ s.xNat xc, .usage .badCounter),
     (2 ^ 64 - 1 < s.xNat xc + (s.cc.w.get 13).toNat * 2 ^ 32 + (s.spanLen sb + 63) / 64, .arithmeticOverflow)]
  | .p13Init sa =>
    [(s.spanLen sa ≠ 32, .usage .badLength), (OutsideBuf s (s.spanAddr sa) (s.spanLen sa), .usage .badSpan)]
  | .p13Update sa =>
    [(s.p13.phase ≠ .active, .usage .badPhase), (OutsideBuf s (s.spanAddr sa) (s.spanLen sa), .usage .badSpan)]
  | .p13Final xa => [(s.p13.phase ≠ .active, .usage .badPhase), (OutsideBuf s (s.xNat xa) 16, .usage .badSpan)]
  | .aeadInit sa sb sc =>
    [(s.spanLen sa ≠ 32 ∨ s.spanLen sb ≠ 12, .usage .badLength),
     (OutsideBuf s (s.spanAddr sa) (s.spanLen sa), .usage .badSpan),
     (OutsideBuf s (s.spanAddr sb) (s.spanLen sb), .usage .badSpan),
     (OutsideBuf s (s.spanAddr sc) (s.spanLen sc), .usage .badSpan)]
  | .aeadEnc xa sb sc => aeadRefusals s xa sb sc
  | .aeadDec xa sb sc => aeadRefusals s xa sb sc
  | .kdfCfg sa xb imm8 =>
    [(LengthsOutOfRange (if imm8 = 0 then 64 else 32) (s.spanLen sa) (s.xNat xb), .usage .badLength),
     (OutsideBuf s (s.spanAddr sa) (s.spanLen sa), .usage .badSpan)]
  | .pbkdf2 sa sb xc =>
    [(s.kdf.phase ≠ .ready, .usage .badPhase),
     (s.xNat xc = 0 ∨ s.spanLen sa = 0 ∨ 2 ^ 32 - 1 < ceilDiv (s.spanLen sa) s.kdf.outlen, .usage .badCount),
     (OutsideBuf s (s.spanAddr sa) (s.spanLen sa), .usage .badSpan),
     (OutsideBuf s (s.spanAddr sb) (s.spanLen sb), .usage .badSpan),
     (ShareByte (s.spanAddr sa) (s.spanLen sa) (s.spanAddr sb) (s.spanLen sb), .usage .overlap)]
  | .hkdf sa sb =>
    [(s.kdf.phase ≠ .ready, .usage .badPhase),
     (s.spanLen sa = 0 ∨ 255 * s.kdf.outlen < s.spanLen sa, .usage .badCount),
     (OutsideBuf s (s.spanAddr sa) (s.spanLen sa), .usage .badSpan),
     (OutsideBuf s (s.spanAddr sb) (s.spanLen sb), .usage .badSpan),
     (ShareByte (s.spanAddr sa) (s.spanLen sa) (s.spanAddr sb) (s.spanLen sb), .usage .overlap)]
  | .modinv _ xb => [(s.xNat xb % 2 = 0, .usage .badOperand)]
  | .cteq _ sb sc =>
    [(OutsideBuf s (s.spanAddr sb) (s.spanLen sb), .usage .badSpan),
     (OutsideBuf s (s.spanAddr sc) (s.spanLen sc), .usage .badSpan)]
  | .xorb xa sb sc =>
    [(s.spanLen sb ≠ s.spanLen sc, .usage .badLength), (OutsideBuf s (s.spanAddr sb) (s.spanLen sb), .usage .badSpan),
     (OutsideBuf s (s.spanAddr sc) (s.spanLen sc), .usage .badSpan),
     (OutsideBuf s (s.xNat xa) (s.spanLen sb), .usage .badSpan),
     ((s.xNat xa ≠ s.spanAddr sb ∧ ShareByte (s.xNat xa) (s.spanLen sb) (s.spanAddr sb) (s.spanLen sb))
        ∨ (s.xNat xa ≠ s.spanAddr sc ∧ ShareByte (s.xNat xa) (s.spanLen sb) (s.spanAddr sc) (s.spanLen sb)),
       .usage .overlap)]
  | .nop => []
  | .ldi _ _ => []
  | .lds _ _ => []
  | .mov _ _ => []
  | .rdsr _ _ => []
  | .clrerr => []
  | .pcgSeed _ _ => []
  | .pcgNext _ => []
  | .pcgRange _ _ _ => []
  | .pcgJump _ => []
  | .pcgGets _ => []
  | .rotl32 _ _ _ => []
  | .rotr32 _ _ _ => []
  | .rotl64 _ _ _ => []
  | .rotr64 _ _ _ => []
  | .lzcnt32 _ _ => []
  | .lzcnt64 _ _ => []
  | .tzcnt32 _ _ => []
  | .tzcnt64 _ _ => []
  | .popcnt32 _ _ => []
  | .popcnt64 _ _ => []
  | .log2f _ _ => []
  | .log2c _ _ => []
  | .ispow2 _ _ => []
  | .gcd _ _ _ => []

/-- The place of an error in the priority order of 60_exceptions.md R345. -/
def Error.priority : Error → Nat
  | .usage d => d.code
  | .arithmeticOverflow => 9
  | .authentication => 10

/-- The general register a command writes, if any (10_state.md R22). -/
def destRegister : Instr → Option Reg
  | .ldi xa _ => some xa
  | .lds xa _ => some xa
  | .mov xa _ => some xa
  | .rdsr xa _ => some xa
  | .ccXform _ _ xc => some xc
  | .pcgNext xa => some xa
  | .pcgRange xa _ _ => some xa
  | .pcgGets xa => some xa
  | .rotl32 xa _ _ => some xa
  | .rotr32 xa _ _ => some xa
  | .rotl64 xa _ _ => some xa
  | .rotr64 xa _ _ => some xa
  | .lzcnt32 xa _ => some xa
  | .lzcnt64 xa _ => some xa
  | .tzcnt32 xa _ => some xa
  | .tzcnt64 xa _ => some xa
  | .popcnt32 xa _ => some xa
  | .popcnt64 xa _ => some xa
  | .log2f xa _ => some xa
  | .log2c xa _ => some xa
  | .ispow2 xa _ => some xa
  | .gcd xa _ _ => some xa
  | .modinv xa _ => some xa
  | .cteq xa _ _ => some xa
  | .nop => none
  | .clrerr => none
  | .b2bInit _ _ => none
  | .b2sInit _ _ => none
  | .b2Update _ => none
  | .b2Final _ => none
  | .cc20Init _ _ => none
  | .xcc20Init _ _ => none
  | .p13Init _ => none
  | .p13Update _ => none
  | .p13Final _ => none
  | .aeadInit _ _ _ => none
  | .aeadEnc _ _ _ => none
  | .aeadDec _ _ _ => none
  | .kdfCfg _ _ _ => none
  | .pbkdf2 _ _ _ => none
  | .hkdf _ _ => none
  | .pcgSeed _ _ => none
  | .pcgJump _ => none
  | .xorb _ _ _ => none

/-- The regions (address, length) of BUF that a command writes when it completes OK (20_memory.md R61). -/
def writeRegions (s : State) : Instr → List (Nat × Nat)
  | .b2Final xa => [(s.xNat xa, s.b2.outlen)]
  | .p13Final xa => [(s.xNat xa, 16)]
  | .ccXform xa sb _ => [(s.xNat xa, s.spanLen sb)]
  | .aeadEnc xa sb sc => [(s.xNat xa, s.spanLen sb), (s.spanAddr sc, 16)]
  | .aeadDec xa sb _ => [(s.xNat xa, s.spanLen sb)]
  | .pbkdf2 sa _ _ => [(s.spanAddr sa, s.spanLen sa)]
  | .hkdf sa _ => [(s.spanAddr sa, s.spanLen sa)]
  | .xorb xa sb _ => [(s.xNat xa, s.spanLen sb)]
  | .nop => []
  | .ldi _ _ => []
  | .lds _ _ => []
  | .mov _ _ => []
  | .rdsr _ _ => []
  | .clrerr => []
  | .b2bInit _ _ => []
  | .b2sInit _ _ => []
  | .b2Update _ => []
  | .cc20Init _ _ => []
  | .xcc20Init _ _ => []
  | .p13Init _ => []
  | .p13Update _ => []
  | .aeadInit _ _ _ => []
  | .kdfCfg _ _ _ => []
  | .pcgSeed _ _ => []
  | .pcgNext _ => []
  | .pcgRange _ _ _ => []
  | .pcgJump _ => []
  | .pcgGets _ => []
  | .rotl32 _ _ _ => []
  | .rotr32 _ _ _ => []
  | .rotl64 _ _ _ => []
  | .rotr64 _ _ _ => []
  | .lzcnt32 _ _ => []
  | .lzcnt64 _ _ => []
  | .tzcnt32 _ _ => []
  | .tzcnt64 _ _ => []
  | .popcnt32 _ _ => []
  | .popcnt64 _ _ => []
  | .log2f _ _ => []
  | .log2c _ _ => []
  | .ispow2 _ _ => []
  | .gcd _ _ _ => []
  | .modinv _ _ => []
  | .cteq _ _ _ => []

/-- The register operands of a command in the order ra, rb, rc of its word (30_encoding.md R91, R96, R100). -/
def operands : Instr → List Reg
  | .nop => []
  | .ldi xa _ => [xa]
  | .lds xa _ => [xa]
  | .mov xa xb => [xa, xb]
  | .rdsr xa _ => [xa]
  | .clrerr => []
  | .b2bInit sa xb => [sa, xb]
  | .b2sInit sa xb => [sa, xb]
  | .b2Update sa => [sa]
  | .b2Final xa => [xa]
  | .cc20Init sa sb => [sa, sb]
  | .xcc20Init sa sb => [sa, sb]
  | .ccXform xa sb xc => [xa, sb, xc]
  | .p13Init sa => [sa]
  | .p13Update sa => [sa]
  | .p13Final xa => [xa]
  | .aeadInit sa sb sc => [sa, sb, sc]
  | .aeadEnc xa sb sc => [xa, sb, sc]
  | .aeadDec xa sb sc => [xa, sb, sc]
  | .kdfCfg sa xb _ => [sa, xb]
  | .pbkdf2 sa sb xc => [sa, sb, xc]
  | .hkdf sa sb => [sa, sb]
  | .pcgSeed xa xb => [xa, xb]
  | .pcgNext xa => [xa]
  | .pcgRange xa xb xc => [xa, xb, xc]
  | .pcgJump xa => [xa]
  | .pcgGets xa => [xa]
  | .rotl32 xa xb xc => [xa, xb, xc]
  | .rotr32 xa xb xc => [xa, xb, xc]
  | .rotl64 xa xb xc => [xa, xb, xc]
  | .rotr64 xa xb xc => [xa, xb, xc]
  | .lzcnt32 xa xb => [xa, xb]
  | .lzcnt64 xa xb => [xa, xb]
  | .tzcnt32 xa xb => [xa, xb]
  | .tzcnt64 xa xb => [xa, xb]
  | .popcnt32 xa xb => [xa, xb]
  | .popcnt64 xa xb => [xa, xb]
  | .log2f xa xb => [xa, xb]
  | .log2c xa xb => [xa, xb]
  | .ispow2 xa xb => [xa, xb]
  | .gcd xa xb xc => [xa, xb, xc]
  | .modinv xa xb => [xa, xb]
  | .cteq xa sb sc => [xa, sb, sc]
  | .xorb xa sb sc => [xa, sb, sc]

/-- The immediate of a command, if it has one: its width in bits, and its value (30_encoding.md R91, R92, R93). -/
def immediate : Instr → Option (Nat × Nat)
  | .nop => none
  | .ldi _ imm20 => some (20, imm20.toNat)
  | .lds _ imm20 => some (20, imm20.toNat)
  | .mov _ _ => none
  | .rdsr _ imm8 => some (8, imm8.toNat)
  | .clrerr => none
  | .b2bInit _ _ => none
  | .b2sInit _ _ => none
  | .b2Update _ => none
  | .b2Final _ => none
  | .cc20Init _ _ => none
  | .xcc20Init _ _ => none
  | .ccXform _ _ _ => none
  | .p13Init _ => none
  | .p13Update _ => none
  | .p13Final _ => none
  | .aeadInit _ _ _ => none
  | .aeadEnc _ _ _ => none
  | .aeadDec _ _ _ => none
  | .kdfCfg _ _ imm8 => some (8, imm8.toNat)
  | .pbkdf2 _ _ _ => none
  | .hkdf _ _ => none
  | .pcgSeed _ _ => none
  | .pcgNext _ => none
  | .pcgRange _ _ _ => none
  | .pcgJump _ => none
  | .pcgGets _ => none
  | .rotl32 _ _ _ => none
  | .rotr32 _ _ _ => none
  | .rotl64 _ _ _ => none
  | .rotr64 _ _ _ => none
  | .lzcnt32 _ _ => none
  | .lzcnt64 _ _ => none
  | .tzcnt32 _ _ => none
  | .tzcnt64 _ _ => none
  | .popcnt32 _ _ => none
  | .popcnt64 _ _ => none
  | .log2f _ _ => none
  | .log2c _ _ => none
  | .ispow2 _ _ => none
  | .gcd _ _ _ => none
  | .modinv _ _ => none
  | .cteq _ _ _ => none
  | .xorb _ _ _ => none

/-- The mnemonic of a command (30_encoding.md R96). -/
def mnemonic : Instr → String
  | .nop => "NOP"
  | .ldi _ _ => "LDI"
  | .lds _ _ => "LDS"
  | .mov _ _ => "MOV"
  | .rdsr _ _ => "RDSR"
  | .clrerr => "CLRERR"
  | .b2bInit _ _ => "B2B.INIT"
  | .b2sInit _ _ => "B2S.INIT"
  | .b2Update _ => "B2.UPDATE"
  | .b2Final _ => "B2.FINAL"
  | .cc20Init _ _ => "CC20.INIT"
  | .xcc20Init _ _ => "XCC20.INIT"
  | .ccXform _ _ _ => "CC.XFORM"
  | .p13Init _ => "P13.INIT"
  | .p13Update _ => "P13.UPDATE"
  | .p13Final _ => "P13.FINAL"
  | .aeadInit _ _ _ => "AEAD.INIT"
  | .aeadEnc _ _ _ => "AEAD.ENC"
  | .aeadDec _ _ _ => "AEAD.DEC"
  | .kdfCfg _ _ _ => "KDF.CFG"
  | .pbkdf2 _ _ _ => "PBKDF2"
  | .hkdf _ _ => "HKDF"
  | .pcgSeed _ _ => "PCG.SEED"
  | .pcgNext _ => "PCG.NEXT"
  | .pcgRange _ _ _ => "PCG.RANGE"
  | .pcgJump _ => "PCG.JUMP"
  | .pcgGets _ => "PCG.GETS"
  | .rotl32 _ _ _ => "ROTL32"
  | .rotr32 _ _ _ => "ROTR32"
  | .rotl64 _ _ _ => "ROTL64"
  | .rotr64 _ _ _ => "ROTR64"
  | .lzcnt32 _ _ => "LZCNT32"
  | .lzcnt64 _ _ => "LZCNT64"
  | .tzcnt32 _ _ => "TZCNT32"
  | .tzcnt64 _ _ => "TZCNT64"
  | .popcnt32 _ _ => "POPCNT32"
  | .popcnt64 _ _ => "POPCNT64"
  | .log2f _ _ => "LOG2F"
  | .log2c _ _ => "LOG2C"
  | .ispow2 _ _ => "ISPOW2"
  | .gcd _ _ _ => "GCD"
  | .modinv _ _ => "MODINV"
  | .cteq _ _ _ => "CTEQ"
  | .xorb _ _ _ => "XORB"

/-- The errors a command can raise once its word has been decoded, from the table of 60_exceptions.md R342 and from R346 (which
says that AEAD.ENC and AEAD.DEC name ArithmeticOverflow and cannot reach it). -/
def mayRaise : Instr → List Error
  | .nop => []
  | .ldi _ _ => []
  | .lds _ _ => []
  | .mov _ _ => []
  | .rdsr _ _ => []
  | .clrerr => []
  | .b2bInit _ _ => [.usage .badLength, .usage .badSpan]
  | .b2sInit _ _ => [.usage .badLength, .usage .badSpan]
  | .b2Update _ => [.usage .badPhase, .usage .badSpan]
  | .b2Final _ => [.usage .badPhase, .usage .badSpan]
  | .cc20Init _ _ => [.usage .badLength, .usage .badSpan]
  | .xcc20Init _ _ => [.usage .badLength, .usage .badSpan]
  | .ccXform _ _ _ => [.usage .badPhase, .usage .badSpan, .usage .overlap, .usage .badCounter, .arithmeticOverflow]
  | .p13Init _ => [.usage .badLength, .usage .badSpan]
  | .p13Update _ => [.usage .badPhase, .usage .badSpan]
  | .p13Final _ => [.usage .badPhase, .usage .badSpan]
  | .aeadInit _ _ _ => [.usage .badLength, .usage .badSpan]
  | .aeadEnc _ _ _ => [.usage .badPhase, .usage .badLength, .usage .badSpan, .usage .overlap]
  | .aeadDec _ _ _ => [.usage .badPhase, .usage .badLength, .usage .badSpan, .usage .overlap, .authentication]
  | .kdfCfg _ _ _ => [.usage .badLength, .usage .badSpan]
  | .pbkdf2 _ _ _ => [.usage .badPhase, .usage .badCount, .usage .badSpan, .usage .overlap]
  | .hkdf _ _ => [.usage .badPhase, .usage .badCount, .usage .badSpan, .usage .overlap]
  | .pcgSeed _ _ => []
  | .pcgNext _ => []
  | .pcgRange _ _ _ => []
  | .pcgJump _ => []
  | .pcgGets _ => []
  | .rotl32 _ _ _ => []
  | .rotr32 _ _ _ => []
  | .rotl64 _ _ _ => []
  | .rotr64 _ _ _ => []
  | .lzcnt32 _ _ => []
  | .lzcnt64 _ _ => []
  | .tzcnt32 _ _ => []
  | .tzcnt64 _ _ => []
  | .popcnt32 _ _ => []
  | .popcnt64 _ _ => []
  | .log2f _ _ => []
  | .log2c _ _ => []
  | .ispow2 _ _ => []
  | .gcd _ _ _ => []
  | .modinv _ _ => [.usage .badOperand]
  | .cteq _ _ _ => [.usage .badSpan]
  | .xorb _ _ _ => [.usage .badLength, .usage .badSpan, .usage .overlap]

/-- The engines whose sessions or state the CORE holds (10_state.md, sections 5 to 10). -/
inductive Engine where
  | blake2
  | chacha
  | poly1305
  | aead
  | kdf
  | pcg
  deriving DecidableEq, Repr

/-- The engine whose state a command can write, if any (10_state.md R34, R38, R40, R41; 41_blake2.md R152): CC.XFORM only reads
the ChaCha context, PBKDF2 and HKDF only read the KDF's configuration, PCG.GETS only reads the generator. -/
def writesEngine : Instr → Option Engine
  | .nop => none
  | .ldi _ _ => none
  | .lds _ _ => none
  | .mov _ _ => none
  | .rdsr _ _ => none
  | .clrerr => none
  | .b2bInit _ _ => some .blake2
  | .b2sInit _ _ => some .blake2
  | .b2Update _ => some .blake2
  | .b2Final _ => some .blake2
  | .cc20Init _ _ => some .chacha
  | .xcc20Init _ _ => some .chacha
  | .ccXform _ _ _ => none
  | .p13Init _ => some .poly1305
  | .p13Update _ => some .poly1305
  | .p13Final _ => some .poly1305
  | .aeadInit _ _ _ => some .aead
  | .aeadEnc _ _ _ => some .aead
  | .aeadDec _ _ _ => some .aead
  | .kdfCfg _ _ _ => some .kdf
  | .pbkdf2 _ _ _ => none
  | .hkdf _ _ => none
  | .pcgSeed _ _ => some .pcg
  | .pcgNext _ => some .pcg
  | .pcgRange _ _ _ => some .pcg
  | .pcgJump _ => some .pcg
  | .pcgGets _ => none
  | .rotl32 _ _ _ => none
  | .rotr32 _ _ _ => none
  | .rotl64 _ _ _ => none
  | .rotr64 _ _ _ => none
  | .lzcnt32 _ _ => none
  | .lzcnt64 _ _ => none
  | .tzcnt32 _ _ => none
  | .tzcnt64 _ _ => none
  | .popcnt32 _ _ => none
  | .popcnt64 _ _ => none
  | .log2f _ _ => none
  | .log2c _ _ => none
  | .ispow2 _ _ => none
  | .gcd _ _ _ => none
  | .modinv _ _ => none
  | .cteq _ _ _ => none
  | .xorb _ _ _ => none

/-! ## What reset leaves -/

/-- Every piece of state at the value of 10_state.md R45: every field of every session zero, `pcg.inc` one, every byte of BUF
arbitrary. -/
structure AtReset (t : State) : Prop where
  x : ∀ r, t.getX r = 0
  sr : ∀ n : Fin 5, hostReadSr t n = 0
  status : t.status = none
  b2 : t.b2.phase.code = 0 ∧ t.b2.var.code = 0 ∧ t.b2.cfb = false ∧ t.b2.fill = 0 ∧ t.b2.t = 0 ∧ t.b2.outlen = 0
    ∧ (∀ i, t.b2.h.get i = 0) ∧ ∀ i, t.b2.buf.get i = 0
  cc : t.cc.phase.code = 0 ∧ t.cc.var.code = 0 ∧ ∀ i, t.cc.w.get i = 0
  p13 : t.p13.phase.code = 0 ∧ t.p13.mac.fill = 0 ∧ (∀ i, t.p13.mac.h.get i = 0) ∧ (∀ i, t.p13.mac.r.get i = 0)
    ∧ (∀ i, t.p13.mac.s5.get i = 0) ∧ (∀ i, t.p13.mac.pad.get i = 0) ∧ ∀ i, t.p13.mac.buf.get i = 0
  aead : t.aead.phase.code = 0 ∧ t.aead.aadlen = 0 ∧ (∀ i, t.aead.w.get i = 0) ∧ t.aead.p.fill = 0
    ∧ (∀ i, t.aead.p.h.get i = 0) ∧ (∀ i, t.aead.p.r.get i = 0) ∧ (∀ i, t.aead.p.s5.get i = 0)
    ∧ (∀ i, t.aead.p.pad.get i = 0) ∧ ∀ i, t.aead.p.buf.get i = 0
  kdf : t.kdf.phase.code = 0 ∧ t.kdf.var.code = 0 ∧ t.kdf.keylen = 0 ∧ t.kdf.outlen = 0 ∧ ∀ i, t.kdf.key.get i = 0
  pcg : t.pcg.lcg = 0 ∧ t.pcg.inc = 1
  buf : ∀ a, t.readByte a = Config.unwrittenByte t.resets a

/-! ## Reference definitions that the machine does not use -/

/-- A word of the command port is the command `i` exactly when it is the number `n`. -/
def EncodedAs (i : Instr) (n : Nat) : Prop := ∀ w : Word32, decode w = .ok i ↔ w.toNat = n

/-- The fields that 10_state.md R29 packs into SR3, read out of a value; every other bit is zero. -/
def PhaseFields (s : State) (v : Word) : Prop :=
  v.toNat % 4 = s.b2.phase.code ∧ v.toNat / 2 ^ 2 % 2 = s.b2.var.code ∧ v.toNat / 2 ^ 3 % 2 = s.b2.cfb.toNat
    ∧ v.toNat / 2 ^ 4 % 4 = s.cc.phase.code ∧ v.toNat / 2 ^ 6 % 2 = s.cc.var.code ∧ v.toNat / 2 ^ 7 % 2 = 0
    ∧ v.toNat / 2 ^ 8 % 4 = s.p13.phase.code ∧ v.toNat / 2 ^ 10 % 4 = 0
    ∧ v.toNat / 2 ^ 12 % 4 = s.aead.phase.code ∧ v.toNat / 2 ^ 14 % 4 = 0
    ∧ v.toNat / 2 ^ 16 % 4 = s.kdf.phase.code ∧ v.toNat / 2 ^ 18 % 2 = s.kdf.var.code ∧ v.toNat / 2 ^ 19 = 0

/-- The session that 41_blake2.md R142 starts, field by field, over the session `old`. -/
structure StartedHash (v : Variant) (key : Bytes) (ol : Nat) (old new : Blake2) : Prop where
  var : new.var = v
  phase : new.phase = .active
  outlen : new.outlen = ol
  h0 : new.h.get 0 = v.iv.get 0 ^^^ BitVec.ofNat 64 (0x01010000 + key.length * 2 ^ 8 + ol)
  h : ∀ i, i ≠ 0 → new.h.get i = v.iv.get i
  unkeyed : key = [] → new.t = 0 ∧ new.fill = 0 ∧ new.cfb = false ∧ new.buf = old.buf
  keyed : key ≠ [] → new.t.toNat = v.blockBytes ∧ new.fill = v.blockBytes ∧ new.cfb = true
    ∧ ∀ i : Fin 128, new.buf.get i = if i.val < v.blockBytes then key.getD i.val 0 else old.buf.get i

/-- Block `i` of a byte string cut into blocks of BB bytes, the last one padded with zero bytes. -/
def hashBlock (var : Variant) (input : Bytes) (i : Nat) : Bytes :=
  let b := slice input (i * var.blockBytes) ((i + 1) * var.blockBytes)
  b ++ zeros (var.blockBytes - b.length)

/-- The BLAKE2 digest of a whole message, written over the message and not over a session (41_blake2.md R151): the zero-padded
key block, if there is a key, then the message, cut into blocks; block `i` is compressed with the number of bytes up to and
including it, the last one with the last-block flag; an empty input is one block of zero bytes. -/
def blake2Reference (var : Variant) (key : Bytes) (ol : Nat) (msg : Bytes) : Bytes :=
  let input := (if key = [] then [] else key ++ zeros (var.blockBytes - key.length)) ++ msg
  let n := max 1 (ceilDiv input.length var.blockBytes)
  let h0 := var.iv.set 0 (var.iv.get 0 ^^^ BitVec.ofNat 64 (0x01010000 + key.length * 2 ^ 8 + ol))
  let h := (List.range n).foldl
    (fun h i => compress var h (hashBlock var input i)
      (BitVec.ofNat 128 (min input.length ((i + 1) * var.blockBytes) % 2 ^ (2 * var.width))) (i + 1 == n)) h0
  (h.toList.flatMap fun word => toLe word.toNat (var.width / 8)).take ol

/-- The words that 30_encoding.md R97 calls illegal: an unassigned opcode, a must-be-zero field that is not zero, RDSR of a
number above 4, KDF.CFG of a variant above 1. -/
def IllegalWord (w : Word32) : Prop :=
  let opc := bits w 31 24
  (0x06 ≤ opc ∧ opc ≤ 0x0F) ∨ (0x14 ≤ opc ∧ opc ≤ 0x1F) ∨ (0x23 ≤ opc ∧ opc ≤ 0x2F) ∨ (0x33 ≤ opc ∧ opc ≤ 0x3F)
    ∨ (0x43 ≤ opc ∧ opc ≤ 0x4F) ∨ (0x53 ≤ opc ∧ opc ≤ 0x5F) ∨ (0x65 ≤ opc ∧ opc ≤ 0x6F) ∨ opc = 0x7F ∨ 0x82 ≤ opc
    ∨ (∃ row ∈ opcodeTable, row.opmatch.toNat / 2 ^ 24 = opc ∧ w &&& row.mask ≠ row.opmatch)
    ∨ (opc = 0x04 ∧ 4 < bits w 7 0) ∨ (opc = 0x50 ∧ 1 < bits w 7 0)

/-- Block T_i of PBKDF2, written as 45_kdf.md R243 says it in words: the XOR of `c` successive hash applications. -/
def pbkdf2Reference (k : Kdf) (salt : Bytes) (c i : Nat) : Bytes :=
  let u := k.hash (salt ++ toBe i 4)
  ((List.range (c - 1)).map fun j => k.hash^[j + 1] u).foldl xorBytes u

/-- T_i of HKDF by recursion on i, T_0 being empty (45_kdf.md R244). -/
def hkdfReference (k : Kdf) (data : Bytes) : Nat → Bytes
  | 0 => []
  | i + 1 => k.hash (hkdfReference k data i ++ data ++ [BitVec.ofNat 8 (i + 1)])

/-- A draw is accepted by a range, and the number it gives (47_pcg32.md R284). -/
def drawAccepted (range : Nat) (d : Word32) : Prop := range = 2 ^ 32 ∨ 2 ^ 32 % range ≤ d.toNat * range % 2 ^ 32

end Sys2Proof.Machine
end

