-- ==== Sys2Proof/Certificates/Slice0/Obligations.lean ====
section
/-! DEFINITION. The statements for the provers: one definition for each, in the terms of Sys2Proof/Safety.lean. None is proved
here. -/

open Sys2Proof Sys2Proof.Machine

/-! ## Encoding -/

/-- For every command whose immediate is in range, with every operand at every value the encoding admits, decoding its word
gives exactly that command (R91, R92, R94, R96, R98). -/
def Obligations.DecodeOfEncode : Prop :=
  ∀ i : Instr, i.wellFormed = true → decode (encode i) = .ok i

/-- If a word decodes to a command, the command is well formed and its encoding is that very word: no bit of a legal word is
ignored, and each command has one word (R94, R96, R97, R98). -/
def Obligations.EncodeOfDecode : Prop :=
  ∀ (w : Word32) (i : Instr), decode w = .ok i → encode i = w ∧ i.wellFormed = true

/-- The table of match and mask has 44 rows, no word matches two of them, a word decodes to a command of some mnemonic only
if it matches the row of that mnemonic, and a word that matches a row (with the immediate of RDSR at most 4) decodes to a
command of that row's mnemonic. For all 44 commands the register operands of a decoded word are its fields ra = W[23:20], rb
= W[19:16], rc = W[15:12] in this order, and the immediate is W[7:0] (RDSR, KDF.CFG) or W[19:0] (LDI, LDS) (R91, R92, R95,
R96, R97, R98). -/
def Obligations.DecodingFollowsOpcodeTable : Prop :=
  opcodeTable.length = 44
    ∧ opcodeTable.Pairwise (fun r q => ∀ w : Word32, ¬(w &&& r.mask = r.opmatch ∧ w &&& q.mask = q.opmatch))
    ∧ ∀ w : Word32,
        (∀ i, decode w = .ok i → (∃ row ∈ opcodeTable, row.mnemonic = mnemonic i ∧ row.matches w)
          ∧ (∀ r k, (operands i)[k]? = some r → k ≤ 2 ∧ r.val = w.toNat / 2 ^ (20 - 4 * k) % 16)
          ∧ ∀ width v, immediate i = some (width, v) → v = w.toNat % 2 ^ width)
        ∧ ∀ row ∈ opcodeTable, row.matches w → ∃ i, decode w = .ok i ∧ mnemonic i = row.mnemonic

/-- Sanity: the words 0x01400100, 0x02123456, 0x03290000, 0x04000000, 0x05000000, 0x10020000, 0x22648000, 0x50240000,
0x60120000, 0x7D012000, 0x80024000 and 0x81624000 decode to the commands the spec writes beside them (R100, R121, R122,
R123, R124, R125, R140, R241, R281, R314, R316, R317). -/
def Obligations.SpecExampleWordsDecode : Prop :=
  decode 0x01400100 = .ok (.ldi 4 0x100) ∧ decode 0x02123456 = .ok (.lds 1 0x23456) ∧ decode 0x03290000 = .ok (.mov 2 9)
    ∧ decode 0x04000000 = .ok (.rdsr 0 0) ∧ decode 0x05000000 = .ok .clrerr ∧ decode 0x10020000 = .ok (.b2bInit 0 2)
    ∧ decode 0x22648000 = .ok (.ccXform 6 4 8) ∧ decode 0x50240000 = .ok (.kdfCfg 2 4 0)
    ∧ decode 0x60120000 = .ok (.pcgSeed 1 2) ∧ decode 0x7D012000 = .ok (.gcd 0 1 2)
    ∧ decode 0x80024000 = .ok (.cteq 0 2 4) ∧ decode 0x81624000 = .ok (.xorb 6 2 4)

/-! ## A step -/

/-- When the next event of the host is a command word, the step takes the event off the port and executes the decoded
command on the state that is left, or raises ILLEGAL_CMD if the word decodes to nothing. A state made by withFetchWord runs
its word in the very next step. (The port as a list of host events is the model's choice, log 1.) (R24, R72, R97, R98). -/
def Obligations.StepRunsTheDecodedCommand : Prop :=
  (∀ (s : State) (w : Word32) (rest : List HostEvent), s.port = .command w :: rest →
      (∀ i, decode w = .ok i → step s = exec i { s with port := rest })
      ∧ ∀ e, decode w = .error e → step s = .next (({ s with port := rest } : State).raise w (.usage .illegalCmd)))
    ∧ ∀ (s : State) (nbits w : Nat), step (s.withFetchWord nbits w) = acceptCommand (BitVec.ofNat 32 (w % 2 ^ nbits)) s

/-- The words that decode to no command are exactly those with an unassigned opcode, a must-be-zero field that is not zero,
RDSR with imm8 above 4, or KDF.CFG with imm8 above 1; in every state such a word completes with UsageError(ILLEGAL_CMD)
recorded and no register, byte of BUF or session written (R97). -/
def Obligations.IllegalWordsOnlyRaise : Prop :=
  ∀ (w : Word32) (s : State),
    (IllegalWord w ↔ ∀ i, decode w ≠ .ok i)
    ∧ (IllegalWord w → ∃ t, acceptCommand w s = .next t ∧ RaisedOnly w (.usage .illegalCmd) s t)

/-- With no host event a step changes nothing. A host write inside BUF makes BUF read back the bytes written, leaves every
other byte, every register, status register, session and CMDCNT. A host write outside BUF is no access the spec knows: the
model stops there (log 7) (R43, R69, R72, R357). -/
def Obligations.HostActionsBetweenCommands : Prop :=
  ∀ s : State,
    (s.port = [] → step s = .next s)
    ∧ (∀ (a : Nat) (bs : Bytes) (rest : List HostEvent), s.port = .writeBuf a bs :: rest → s.spanOk a bs.length = true →
        ∃ t, step s = .next t ∧ t.memRead a bs.length = bs ∧ KeepsBufOutside a bs.length s t ∧ KeepsRegs s t
          ∧ KeepsErrors s t ∧ KeepsSessions s t ∧ t.cmdcnt = s.cmdcnt ∧ t.status = s.status ∧ t.cfg = s.cfg
          ∧ t.resets = s.resets ∧ t.port = rest)
    ∧ ∀ (a : Nat) (bs : Bytes) (rest : List HostEvent), s.port = .writeBuf a bs :: rest → s.spanOk a bs.length = false →
        step s = .fault .hostWriteOutsideBuf

/-! ## Reset -/

/-- Registers 0, SR0 to SR4 0, every session idle with zero fields, pcg.state 0, pcg.inc 1, and each byte of BUF a free
value. (The status port before any command, log 4, and the instance's BUF_BYTES, the spec's default, log 3, are the model's
choices.) (R45, R7, R23). -/
def Obligations.ResetLeavesTheStatedValues : Prop :=
  AtReset State.reset ∧ State.reset.cfg.bufBytes = 65536

/-- Whatever the state, a reset event leaves the values of R45; the bytes of BUF are free values of a new epoch. (Reset as a
host event and the count of resets are the model's form, log 5, and so is the empty status port, log 4.) (R380, R381, R45).
-/
def Obligations.ResetEventClearsAllState : Prop :=
  ∀ (s : State) (rest : List HostEvent), s.port = .reset :: rest →
    ∃ t, step s = .next t ∧ AtReset t ∧ t.resets = s.resets + 1 ∧ t.cfg = s.cfg ∧ t.port = rest

/-- For every step that is not a reset event: a session that is idle afterwards was idle before, CMDCNT stays or goes up by
one, and every bit set in SR0 stays set unless the command word is CLRERR (R381, R27, R25). -/
def Obligations.OnlyResetEndsSessionsAndCount : Prop :=
  ∀ s t : State, step s = .next t → (∀ rest, s.port ≠ .reset :: rest) →
    ((t.b2.phase = .idle → s.b2.phase = .idle) ∧ (t.cc.phase = .idle → s.cc.phase = .idle)
      ∧ (t.p13.phase = .idle → s.p13.phase = .idle) ∧ (t.aead.phase = .idle → s.aead.phase = .idle)
      ∧ (t.kdf.phase = .idle → s.kdf.phase = .idle))
    ∧ (t.cmdcnt = s.cmdcnt ∨ t.cmdcnt = s.cmdcnt + 1)
    ∧ ((∀ rest, s.port ≠ .command 0x05000000 :: rest) → t.errflags &&& s.errflags = s.errflags)

/-! ## Errors -/

/-- For every command and state, the first failing check's error c, d is raised: SR0 gets bit c-1, SR1 becomes c + d*2^8,
SR2 the command word, CMDCNT goes up by one, the status is c, and no register, byte of BUF or session changes; AEAD.DEC with
a wrong tag does the same with AuthenticationError and leaves aead.phase DONE (R344). -/
def Obligations.FailingChecksRaise : Prop :=
  (∀ (i : Instr) (s : State) (before after : List Check) (e : Error), checksOf s i = before ++ (false, e) :: after →
      (∀ c ∈ before, c.1 = true) → ∃ t, exec i s = .next t ∧ RaisedOnly (encode i) e s t)
    ∧ ∀ (xa : Reg) (sb sc : SpanReg) (s : State), Accepts s (.aeadDec xa sb sc) → aeadVerified sb sc s = false →
        ∃ t, exec (.aeadDec xa sb sc) s = .next t
          ∧ RaisedOnly (encode (.aeadDec xa sb sc)) .authentication { s with aead := { s.aead with phase := .done } } t

/-- The list of checks of every command is in the order ILLEGAL_CMD, BAD_PHASE, BAD_LENGTH, BAD_COUNT, BAD_SPAN, OVERLAP,
BAD_COUNTER, BAD_OPERAND, ArithmeticOverflow; a command that does not complete OK records an error whose check failed and
that no other failing check precedes, or AuthenticationError when all of them passed. In the terms of the rules: for every
command the first of its rule's conditions that holds (a session out of phase, one-shot AEAD use included; a length, count
or digest length out of range; a region past BUF; regions that share a byte; a counter of 2^32 or more for ChaCha20, or a
block counter past 2^64 - 1; an even operand) raises its error and nothing else happens, and where none holds the command
completes OK, but for AEAD.DEC's AuthenticationError (R345, R64, R65, R66, R140, R141, R143, R144, R145, R174, R175, R177,
R178, R202, R205, R206, R220, R221, R223, R224, R225, R241, R243, R244, R315, R316, R317). -/
def Obligations.FirstFailingCheckIsReported : Prop :=
  ∀ (i : Instr) (s : State),
    (checksOf s i).Pairwise (fun c d => c.2.priority ≤ d.2.priority)
    ∧ (∀ t, exec i s = .next t → t.status ≠ some .ok →
        ∃ e : Error, t.status = some e.status ∧ t.lasterr = e.record
          ∧ ((false, e) ∈ checksOf s i ∨ (e = .authentication ∧ Accepts s i))
          ∧ ∀ c ∈ checksOf s i, c.1 = false → e.priority ≤ c.2.priority)
    ∧ (i.wellFormed = true →
        (∀ before P e after, refusals s i = before ++ (P, e) :: after → (∀ c ∈ before, ¬c.1) → P →
          ∃ t, exec i s = .next t ∧ RaisedOnly (encode i) e s t)
        ∧ ((∀ c ∈ refusals s i, ¬c.1) → ∀ t, exec i s = .next t →
          t.status = some .ok ∨ t.status = some .authenticationError ∧ ∃ xa sb sc, i = .aeadDec xa sb sc))

/-- NOP, LDI, LDS, MOV, RDSR, CLRERR, the PCG commands and the BitOps register commands but MODINV always complete OK; every
other command raises only the detail codes its row of R342 allows; ArithmeticOverflow comes from CC.XFORM alone (BUF_BYTES
is at most 2^32, so the AEAD commands cannot reach it) and AuthenticationError from AEAD.DEC alone (R342, R346, R223). -/
def Obligations.CommandsRaiseOnlyTheirOwnErrors : Prop :=
  ∀ (i : Instr) (s t : State), i.wellFormed = true → s.cfg.wf → exec i s = .next t →
    t.status = some .ok ∨ ∃ e ∈ mayRaise i, t.status = some e.status ∧ t.lasterr = e.record

/-- A command that completes with status OK leaves SR0, SR1 and SR2 as they were (CLRERR zeroes them); a command that raises
sets its bit in SR0, keeps the others, and writes its own cause, detail and word to SR1 and SR2 (R27, R28, R347). -/
def Obligations.ErrorRecordIsSticky : Prop :=
  ∀ (i : Instr) (s t : State), exec i s = .next t →
    (t.status = some .ok ∧ (i ≠ .clrerr → KeepsErrors s t) ∧ (i = .clrerr → t.errflags = 0 ∧ t.lasterr = 0 ∧ t.lastcmd = 0))
    ∨ ∃ e : Error, t.status = some e.status ∧ t.errflags = s.errflags ||| BitVec.ofNat 64 (2 ^ (e.cause - 1))
        ∧ t.lasterr.toNat = e.cause + e.detail * 2 ^ 8 ∧ t.lastcmd.toNat = (encode i).toNat

/-- A step that takes a command word increments CMDCNT whether it completes OK or with an error, and leaves a completion
status that is 0 or the cause held in SR1; a host write to BUF is not counted (R24, R343, R353). -/
def Obligations.EveryCommandIsCountedAndReports : Prop :=
  ∀ s t : State, step s = .next t →
    (∀ w rest, s.port = .command w :: rest →
      t.cmdcnt = s.cmdcnt + 1 ∧ t.port = rest ∧ ∃ st, t.status = some st ∧ (st.code = 0 ∨ st.code = t.lasterr.toNat % 4))
    ∧ ∀ a bs rest, s.port = .writeBuf a bs :: rest → t.cmdcnt = s.cmdcnt ∧ t.status = s.status ∧ t.port = rest

/-! ## The invariant -/

/-- The invariant of the machine (State.Inv) holds of the state after reset for every instance (R45, R27, R30, R36, R40,
R42). -/
def Obligations.ResetMeetsTheInvariant : Prop :=
  ∀ (cfg : Config) (resets : Nat) (port : List HostEvent), cfg.wf → (State.afterReset cfg resets port).Inv

/-- From every state that meets the invariant, not only from reset, a step gives a state that meets it: SR0 below 8, SR1
zero or the record of an error whose SR0 bit is set, SR2 below 2^32, BLAKE2 words, counter, fill and digest length within
their variant's bounds and a pending key block counted, ChaCha constants in place, Poly1305 limbs below 2^26 (limb 1 below
2^26 + 2^7) with s5 = 5 r, an AEAD session that is READY with no half block, KDF lengths in range with the key padded by
zeros, pcg.inc odd, BUF in canonical form and inside BUF_BYTES (R27, R28, R30, R31, R33, R36, R38, R40, R42, R60, R69). -/
def Obligations.StepKeepsTheInvariant : Prop :=
  ∀ s t : State, s.Inv → step s = .next t → t.Inv

/-- In every state that meets the invariant every one of the 2^32 command words completes, with a result or with a recorded
error; no model stop is reached. For PCG.RANGE this rests on the generator's full period, which makes the redraw loop end. A
step stops only on a host write outside BUF. (The two stops are the model's: log 6 and log 7.) (R97, R284, R344, R346). -/
def Obligations.MachineNeverStops : Prop :=
  ∀ s : State, s.Inv →
    (∀ w : Word32, ∃ t, acceptCommand w s = .next t)
    ∧ ((∀ a bs rest, s.port = .writeBuf a bs :: rest → s.spanOk a bs.length = true) → ∃ t, step s = .next t)

/-! ## Frames -/

/-- For all 44 commands, whether they complete OK or raise, every general register keeps its value except the destination of
LDI, LDS, MOV, RDSR, CC.XFORM (its counter register), PCG.NEXT, PCG.RANGE, PCG.GETS, the BitOps register commands and CTEQ
(R22, R23). -/
def Obligations.OnlyTheDestinationRegisterChanges : Prop :=
  ∀ (i : Instr) (s t : State), exec i s = .next t → ∀ r : Reg, destRegister i ≠ some r → t.getX r = s.getX r

/-- For all 44 commands: B2.FINAL writes its digest's region, P13.FINAL its tag's, CC.XFORM, XORB and AEAD.DEC their
destination, AEAD.ENC destination and tag, PBKDF2 and HKDF the derived key's span; every other byte, and all of BUF for
every other command, reads as before. The regions are computed from the registers before the command (R61, R69, R77). -/
def Obligations.BufChangesOnlyInWrittenRegions : Prop :=
  ∀ (i : Instr) (s t : State), exec i s = .next t →
    ∀ a : Nat, (∀ region ∈ writeRegions s i, a < region.1 ∨ region.1 + region.2 ≤ a) → t.readByte a = s.readByte a

/-- The BLAKE2 session changes only by the four BLAKE2 commands, the ChaCha context only by the two INITs, p13 only by the
P13 commands, the AEAD controller only by the AEAD commands, the KDF configuration only by KDF.CFG, the generator only by
SEED, NEXT, RANGE and JUMP; no command changes the instance's parameters or the host's pending events (R34, R38, R40, R41,
R44, R152). -/
def Obligations.EnginesChangeOnlyByTheirOwnCommands : Prop :=
  ∀ (i : Instr) (s t : State), exec i s = .next t →
    (writesEngine i ≠ some .blake2 → t.b2 = s.b2) ∧ (writesEngine i ≠ some .chacha → t.cc = s.cc)
    ∧ (writesEngine i ≠ some .poly1305 → t.p13 = s.p13) ∧ (writesEngine i ≠ some .aead → t.aead = s.aead)
    ∧ (writesEngine i ≠ some .kdf → t.kdf = s.kdf) ∧ (writesEngine i ≠ some .pcg → t.pcg = s.pcg)
    ∧ KeepsEnv s t

/-! ## Operands -/

/-- The address of sN is xN and its length x((N+1) mod 16), unscaled; a region passes CheckSpan when it is empty or ends
inside BUF, with no wrap of the sum; two regions overlap when they share a byte; the in-place exception admits a destination
at the source's own address (R21, R64, R65, R66, R77). -/
def Obligations.OperandFormsAndRegionChecks : Prop :=
  (∀ (s : State) (r : SpanReg), s.spanAddr r = (s.getX r).toNat
      ∧ s.spanLen r = (s.getX ⟨(r.val + 1) % 16, Nat.mod_lt _ (by decide)⟩).toNat)
    ∧ (∀ (s : State) (a n : Nat), s.spanOk a n = true ↔ n = 0 ∨ a + n ≤ s.cfg.bufBytes)
    ∧ (∀ a1 n1 a2 n2 : Nat, overlap a1 n1 a2 n2 = true ↔ ∃ k, (a1 ≤ k ∧ k < a1 + n1) ∧ (a2 ≤ k ∧ k < a2 + n2))
    ∧ ∀ d a n : Nat, disjointOrSame d a n = true ↔ d = a ∨ ∀ k, ¬((d ≤ k ∧ k < d + n) ∧ (a ≤ k ∧ k < a + n))

/-! ## Control -/

/-- NOP completes OK in every state and changes no register, status record, byte of BUF or session; its only word is 0, and
a word with opcode 0 and another bit set is illegal (R120). -/
def Obligations.NopOnlyCounts : Prop :=
  EncodedAs .nop 0 ∧ (∀ (w : Word32) (s : State), bits w 31 24 = 0 → w ≠ 0 →
      ∃ t, acceptCommand w s = .next t ∧ RaisedOnly w (.usage .illegalCmd) s t)
    ∧ ∀ s : State, ∃ t, exec .nop s = .next t ∧ KeepsRegs s t ∧ KeepsErrors s t ∧ KeepsBuf s t ∧ KeepsSessions s t
        ∧ KeepsEnv s t ∧ CompletedOk s t

/-- LDI writes the zero-extended immediate, LDS the old value shifted left by 20 with the immediate below it, modulo 2^64,
MOV the source register; nothing else changes but CMDCNT and the status; each has exactly the word of its rule (R121, R122,
R123). -/
def Obligations.ImmediateAndMoveResults : Prop :=
  (∀ (xa : Reg) (imm20 : BitVec 20), EncodedAs (.ldi xa imm20) (0x01 * 2 ^ 24 + xa.val * 2 ^ 20 + imm20.toNat)
      ∧ EncodedAs (.lds xa imm20) (0x02 * 2 ^ 24 + xa.val * 2 ^ 20 + imm20.toNat))
    ∧ (∀ xa xb : Reg, EncodedAs (.mov xa xb) (0x03 * 2 ^ 24 + xa.val * 2 ^ 20 + xb.val * 2 ^ 16))
    ∧ ∀ (s : State) (xa xb : Reg) (imm20 : BitVec 20),
        (∃ t, exec (.ldi xa imm20) s = .next t ∧ WroteOnlyReg xa (BitVec.ofNat 64 imm20.toNat) s t)
        ∧ (∃ t, exec (.lds xa imm20) s = .next t
            ∧ WroteOnlyReg xa (BitVec.ofNat 64 ((s.getX xa).toNat * 2 ^ 20 + imm20.toNat)) s t)
        ∧ ∃ t, exec (.mov xa xb) s = .next t ∧ WroteOnlyReg xa (s.getX xb) s t

/-- RDSR of 0, 1, 2 and 4 writes ERRFLAGS, LASTERR, LASTCMD and the count of commands completed before it; of 3 a value
whose fields are the phases, variants and cfb of the sessions at the bit positions of R29 with every other bit zero; nothing
else changes; a word of RDSR with imm8 above 4 raises ILLEGAL_CMD (R124). -/
def Obligations.RdsrReadsStatusRegisters : Prop :=
  (∀ (xa : Reg) (imm8 : BitVec 8), imm8.toNat ≤ 4 →
      EncodedAs (.rdsr xa imm8) (0x04 * 2 ^ 24 + xa.val * 2 ^ 20 + imm8.toNat))
    ∧ (∀ (w : Word32) (s : State), bits w 31 24 = 0x04 → 4 < bits w 7 0 →
        ∃ t, acceptCommand w s = .next t ∧ RaisedOnly w (.usage .illegalCmd) s t)
    ∧ ∀ (s : State) (xa : Reg),
        (∃ t, exec (.rdsr xa 0) s = .next t ∧ WroteOnlyReg xa s.errflags s t)
        ∧ (∃ t, exec (.rdsr xa 1) s = .next t ∧ WroteOnlyReg xa s.lasterr s t)
        ∧ (∃ t, exec (.rdsr xa 2) s = .next t ∧ WroteOnlyReg xa s.lastcmd s t)
        ∧ (∃ t v, exec (.rdsr xa 3) s = .next t ∧ WroteOnlyReg xa v s t ∧ PhaseFields s v)
        ∧ ∃ t, exec (.rdsr xa 4) s = .next t ∧ WroteOnlyReg xa s.cmdcnt s t

/-- CLRERR completes OK in every state, leaves SR0, SR1 and SR2 zero, and changes nothing else but CMDCNT and the status;
its word is 0x05000000 (R125). -/
def Obligations.ClrerrClearsTheRecord : Prop :=
  EncodedAs .clrerr 0x05000000
    ∧ ∀ s : State, ∃ t, exec .clrerr s = .next t ∧ t.errflags = 0 ∧ t.lasterr = 0 ∧ t.lastcmd = 0 ∧ KeepsRegs s t
        ∧ KeepsBuf s t ∧ KeepsSessions s t ∧ KeepsEnv s t ∧ CompletedOk s t

/-! ## BLAKE2 -/

/-- With a key of 0 to 64 (32) bytes inside BUF and a digest length of 1 to 64 (32), INIT completes OK whatever the old
session: phase ACTIVE, h the IV with the parameter word xored into h[0], counter, fill and cfb zero without a key; with a
key the zero-padded key block in the buffer, counter and fill one block, cfb set. No register, byte of BUF, status record or
other session changes (R140, R141, R142, R25). -/
def Obligations.B2InitStartsASession : Prop :=
  ∀ (s : State) (sa : SpanReg) (xb : Reg),
    (s.spanLen sa ≤ 64 → 1 ≤ s.xNat xb → s.xNat xb ≤ 64 → s.spanOk (s.spanAddr sa) (s.spanLen sa) = true →
        ∃ t, exec (.b2bInit sa xb) s = .next t ∧ WroteOnlySession s t ∧ t.cc = s.cc ∧ t.p13 = s.p13 ∧ t.aead = s.aead
          ∧ t.kdf = s.kdf ∧ t.pcg = s.pcg ∧ StartedHash .blake2b (s.readSpan sa) (s.xNat xb) s.b2 t.b2)
    ∧ (s.spanLen sa ≤ 32 → 1 ≤ s.xNat xb → s.xNat xb ≤ 32 → s.spanOk (s.spanAddr sa) (s.spanLen sa) = true →
        ∃ t, exec (.b2sInit sa xb) s = .next t ∧ WroteOnlySession s t ∧ t.cc = s.cc ∧ t.p13 = s.p13 ∧ t.aead = s.aead
          ∧ t.kdf = s.kdf ∧ t.pcg = s.pcg ∧ StartedHash .blake2s (s.readSpan sa) (s.xNat xb) s.b2 t.b2)

/-- In phase ACTIVE with the data inside BUF, UPDATE completes OK and changes nothing but the BLAKE2 session, which absorbs
the bytes in order; as long as they fit the block buffer no compression happens and the bytes stand in the buffer after
those already there (R143, R25). -/
def Obligations.B2UpdateAbsorbsItsSpan : Prop :=
  ∀ (s : State) (sa : SpanReg), s.b2.phase = .active → s.spanOk (s.spanAddr sa) (s.spanLen sa) = true →
    ∃ t, exec (.b2Update sa) s = .next t ∧ WroteOnlySession s t ∧ t.cc = s.cc ∧ t.p13 = s.p13 ∧ t.aead = s.aead
      ∧ t.kdf = s.kdf ∧ t.pcg = s.pcg ∧ t.b2 = s.b2.absorb (s.readSpan sa) ∧ t.b2.phase = .active
      ∧ (s.b2.fill + s.spanLen sa ≤ s.b2.var.blockBytes →
          t.b2.h = s.b2.h ∧ t.b2.t = s.b2.t ∧ t.b2.cfb = s.b2.cfb ∧ t.b2.fill = s.b2.fill + s.spanLen sa
          ∧ ∀ k : Fin 128, t.b2.buf.get k = if s.b2.fill ≤ k.val ∧ k.val < s.b2.fill + s.spanLen sa
              then s.readByte (s.spanAddr sa + (k.val - s.b2.fill)) else s.b2.buf.get k)

/-- In phase ACTIVE with the digest's region inside BUF, FINAL completes OK: the counter advances by the fill unless the key
block is the last, the padded block is compressed as the last one, b2.outlen bytes of the little-endian state words are
written at x[ra], and the session is DONE; no register, status record, other byte of BUF or other session changes (R145,
R149, R150). -/
def Obligations.B2FinalWritesTheDigest : Prop :=
  ∀ (s : State) (xa : Reg), s.b2.phase = .active → s.b2.Inv → s.spanOk (s.xNat xa) s.b2.outlen = true →
    ∃ t digest, exec (.b2Final xa) s = .next t ∧ WroteOnlyBuf (s.xNat xa) digest s t ∧ digest.length = s.b2.outlen
      ∧ digest = (t.b2.h.toList.flatMap fun word => toLe word.toNat (s.b2.var.width / 8)).take s.b2.outlen
      ∧ t.b2.t.toNat = (if s.b2.cfb then s.b2.t.toNat else (s.b2.t.toNat + s.b2.fill) % 2 ^ (2 * s.b2.var.width))
      ∧ t.b2.h = compress s.b2.var s.b2.h
          (s.b2.buf.toList.take s.b2.fill ++ zeros (s.b2.var.blockBytes - s.b2.fill)) t.b2.t true
      ∧ t.b2.phase = .done ∧ t.b2.cfb = false ∧ t.b2.fill = 0 ∧ t.b2.var = s.b2.var ∧ t.b2.outlen = s.b2.outlen
      ∧ t.cc = s.cc ∧ t.p13 = s.p13 ∧ t.aead = s.aead ∧ t.kdf = s.kdf ∧ t.pcg = s.pcg

/-- For both variants, every key and digest length in range, every old session and every way to cut a message into chunks,
the digest of the session machinery (buffering, deferred compression, pre-advanced counter) equals the block-by-block digest
written over the whole message, with the zero-padded key block first (R151, R30, R143, R145, R150). -/
def Obligations.HashOfAnyChunkingIsTheReference : Prop :=
  ∀ (var : Variant) (old : Blake2) (key : Bytes) (ol : Nat) (chunks : List Bytes), hashLengthsOk var key.length ol = true →
    (chunks.foldl Blake2.absorb (old.init var key ol)).finish.digest = blake2Reference var key ol chunks.flatten

/-! ## ChaCha -/

/-- With a 32-byte key and a 12-byte (24-byte) nonce inside BUF the INIT completes OK in every phase and builds the sixteen
words: constants, key (or HChaCha20 subkey), zero counter word, nonce words (zero and the last two for XChaCha20); nothing
but the ChaCha context changes (R33, R174, R175, R179). -/
def Obligations.ChachaInitBuildsTheContext : Prop :=
  ∀ (s : State) (sa sb : SpanReg), s.spanLen sa = 32 → s.spanOk (s.spanAddr sa) 32 = true →
    s.spanOk (s.spanAddr sb) (s.spanLen sb) = true →
    (s.spanLen sb = 12 → ∃ t, exec (.cc20Init sa sb) s = .next t ∧ WroteOnlySession s t ∧ t.b2 = s.b2 ∧ t.p13 = s.p13
      ∧ t.aead = s.aead ∧ t.kdf = s.kdf ∧ t.pcg = s.pcg ∧ t.cc.phase = .ready ∧ t.cc.var = .chacha20
      ∧ ∀ i : Fin 16, t.cc.w.get i = if h : i.val < 4 then chachaConst.get ⟨i.val, h⟩
          else if i.val < 12 then wordAt (s.readSpan sa) (i.val - 4) else if i.val = 12 then 0
          else wordAt (s.readSpan sb) (i.val - 13))
    ∧ (s.spanLen sb = 24 → ∃ t, exec (.xcc20Init sa sb) s = .next t ∧ WroteOnlySession s t ∧ t.b2 = s.b2 ∧ t.p13 = s.p13
      ∧ t.aead = s.aead ∧ t.kdf = s.kdf ∧ t.pcg = s.pcg ∧ t.cc.phase = .ready ∧ t.cc.var = .xchacha20
      ∧ ∀ i : Fin 16, t.cc.w.get i = if h : i.val < 4 then chachaConst.get ⟨i.val, h⟩
          else if i.val < 12 then wordAt (hchacha20 (s.readSpan sa) ((s.readSpan sb).take 16)) (i.val - 4)
          else if i.val < 14 then 0 else wordAt (s.readSpan sb) (i.val - 10))

/-- Under exactly the checks of R177 and R178, CC.XFORM completes OK: byte k of the destination is byte k of the source xor
byte k mod 64 of the keystream block CTR0 + k div 64, the counter register becomes c + ceil(n/64), the context, the other
registers, the status record and every other byte of BUF are unchanged. The forms include the transform in place and an xc
that names an operand register (R173, R176, R177, R178). -/
def Obligations.XformXorsTheKeystream : Prop :=
  ∀ (s : State) (xa xc : Reg) (sb : SpanReg), s.cc.phase = .ready → s.spanOk (s.spanAddr sb) (s.spanLen sb) = true →
    s.spanOk (s.xNat xa) (s.spanLen sb) = true → disjointOrSame (s.xNat xa) (s.spanAddr sb) (s.spanLen sb) = true →
    (s.cc.var = .chacha20 → s.xNat xc < 2 ^ 32) →
    s.xNat xc + (s.cc.w.get 13).toNat * 2 ^ 32 + (s.spanLen sb + 63) / 64 ≤ 2 ^ 64 - 1 →
    ∃ t, exec (.ccXform xa sb xc) s = .next t
      ∧ (∀ k < s.spanLen sb, t.readByte (s.xNat xa + k) = s.readByte (s.spanAddr sb + k)
          ^^^ (chachaBlock s.cc.w (s.xNat xc + (s.cc.w.get 13).toNat * 2 ^ 32 + k / 64)).getD (k % 64) 0)
      ∧ KeepsBufOutside (s.xNat xa) (s.spanLen sb) s t ∧ (t.getX xc).toNat = s.xNat xc + (s.spanLen sb + 63) / 64
      ∧ KeepsRegsBut xc s t ∧ KeepsErrors s t ∧ KeepsSessions s t ∧ KeepsEnv s t ∧ CompletedOk s t

/-- When every earlier check passes: a ChaCha20 caller counter of 2^32 or more raises BAD_COUNTER; otherwise CTR0 + nb above
2^64 - 1 raises ArithmeticOverflow with no byte or register written; a transform of length 0 is never refused and leaves the
counter register as it was (R176, R177, R178). -/
def Obligations.XformRefusesCounterOverflow : Prop :=
  ∀ (s : State) (xa xc : Reg) (sb : SpanReg), s.cc.phase = .ready → s.spanOk (s.spanAddr sb) (s.spanLen sb) = true →
    s.spanOk (s.xNat xa) (s.spanLen sb) = true → disjointOrSame (s.xNat xa) (s.spanAddr sb) (s.spanLen sb) = true →
    (s.cc.var = .chacha20 → 2 ^ 32 ≤ s.xNat xc →
      ∃ t, exec (.ccXform xa sb xc) s = .next t ∧ RaisedOnly (encode (.ccXform xa sb xc)) (.usage .badCounter) s t)
    ∧ ((s.cc.var = .chacha20 → s.xNat xc < 2 ^ 32) →
        2 ^ 64 - 1 < s.xNat xc + (s.cc.w.get 13).toNat * 2 ^ 32 + (s.spanLen sb + 63) / 64 →
        ∃ t, exec (.ccXform xa sb xc) s = .next t ∧ RaisedOnly (encode (.ccXform xa sb xc)) .arithmeticOverflow s t)
    ∧ ((s.cc.var = .chacha20 → s.xNat xc < 2 ^ 32) → s.cc.Inv → s.spanLen sb = 0 →
        ∃ t, exec (.ccXform xa sb xc) s = .next t ∧ t.status = some .ok ∧ t.getX xc = s.getX xc ∧ KeepsBuf s t)

/-- If one CC.XFORM completes OK, and another completes OK later with the same ChaCha context, its source span being the
first one's destination with the bytes the first one wrote, and its counter register holding the same starting value, then
what the second writes is the first one's source, byte for byte, in place or not (R180, R177). -/
def Obligations.XformIsSelfInverse : Prop :=
  ∀ (s t v u : State) (xa xc xa' xc' : Reg) (sb sb' : SpanReg),
    exec (.ccXform xa sb xc) s = .next t → t.status = some .ok →
    v.cc = s.cc → v.spanAddr sb' = s.xNat xa → v.spanLen sb' = s.spanLen sb → v.xNat xc' = s.xNat xc →
    (∀ k < s.spanLen sb, v.readByte (s.xNat xa + k) = t.readByte (s.xNat xa + k)) →
    exec (.ccXform xa' sb' xc') v = .next u → u.status = some .ok →
    ∀ k < s.spanLen sb, u.readByte (v.xNat xa' + k) = s.readByte (s.spanAddr sb + k)

/-! ## Poly1305 -/

/-- With a 32-byte key inside BUF the command completes OK in every phase: accumulator 0, nothing buffered, the five 26-bit
limbs of r stand for the first 16 bytes clamped, s5 is 5 times r, the four pad words stand for the last 16 bytes; nothing
but p13 changes (R36, R200, R201, R202). -/
def Obligations.P13InitCutsTheKey : Prop :=
  ∀ (s : State) (sa : SpanReg), s.spanLen sa = 32 → s.spanOk (s.spanAddr sa) 32 = true →
    ∃ t, exec (.p13Init sa) s = .next t ∧ WroteOnlySession s t ∧ t.b2 = s.b2 ∧ t.cc = s.cc ∧ t.aead = s.aead ∧ t.kdf = s.kdf
      ∧ t.pcg = s.pcg ∧ t.p13.phase = .active ∧ t.p13.mac.fill = 0 ∧ t.p13.mac.acc = 0
      ∧ t.p13.mac.rValue = le ((s.readSpan sa).take 16) &&& 0x0FFFFFFC0FFFFFFC0FFFFFFC0FFFFFFF
      ∧ t.p13.mac.sValue = le ((s.readSpan sa).drop 16) ∧ (∀ i, (t.p13.mac.r.get i).toNat < 2 ^ 26)
      ∧ ∀ i : Fin 4, (t.p13.mac.s5.get i).toNat = 5 * (t.p13.mac.r.get i.succ).toNat

/-- From limbs within their bounds, absorbing a block of 16 bytes leaves an accumulator congruent to (H + block value) times
r modulo p and below 2^130 + 2^33, with every limb within its bound again: the 32-bit limb fields never overflow (log 13)
(R36, R203, R204). -/
def Obligations.AbsorbBlockMultipliesModP : Prop :=
  ∀ (p : PolyMac) (b : Bytes) (hibit : Nat), p.Inv → b.length = 16 → hibit ≤ 1 →
    (p.absorbBlock b hibit).acc % polyP = (p.acc + (le b + hibit * 2 ^ 128)) * p.rValue % polyP
    ∧ (p.absorbBlock b hibit).acc < 2 ^ 130 + 2 ^ 33 ∧ (p.absorbBlock b hibit).Inv

/-- In phase ACTIVE with the data inside BUF the command completes OK and changes only p13: the bytes are absorbed in order,
the fill is the total modulo 16, the accumulator is untouched while no block is complete, r, s5 and pad never change (R37,
R205). -/
def Obligations.P13UpdateAbsorbsItsSpan : Prop :=
  ∀ (s : State) (sa : SpanReg), s.p13.phase = .active → s.p13.mac.Inv → s.spanOk (s.spanAddr sa) (s.spanLen sa) = true →
    ∃ t, exec (.p13Update sa) s = .next t ∧ WroteOnlySession s t ∧ t.b2 = s.b2 ∧ t.cc = s.cc ∧ t.aead = s.aead
      ∧ t.kdf = s.kdf ∧ t.pcg = s.pcg ∧ t.p13.phase = .active ∧ t.p13.mac = s.p13.mac.absorb (s.readSpan sa)
      ∧ t.p13.mac.fill = (s.p13.mac.fill + s.spanLen sa) % 16 ∧ t.p13.mac.r = s.p13.mac.r ∧ t.p13.mac.s5 = s.p13.mac.s5
      ∧ t.p13.mac.pad = s.p13.mac.pad ∧ (s.p13.mac.fill + s.spanLen sa < 16 → t.p13.mac.h = s.p13.mac.h)

/-- In phase ACTIVE with the tag's 16 bytes inside BUF the command completes OK: a partial block of the left-over bytes is
absorbed, the accumulator is fully reduced modulo 2^130 - 5, s is added modulo 2^128, and the 16 bytes are written little-
endian; nothing else changes but p13, which is DONE (R203, R206, R207). -/
def Obligations.P13FinalWritesTheTag : Prop :=
  ∀ (s : State) (xa : Reg), s.p13.phase = .active → s.p13.mac.Inv → s.spanOk (s.xNat xa) 16 = true →
    ∃ t, exec (.p13Final xa) s = .next t
      ∧ WroteOnlyBuf (s.xNat xa)
          (toLe (((if s.p13.mac.fill = 0 then s.p13.mac.acc
              else (s.p13.mac.acc + polyBlockValue (s.p13.mac.buf.toList.take s.p13.mac.fill)) * s.p13.mac.rValue) % polyP
            + s.p13.mac.sValue) % 2 ^ 128) 16) s t
      ∧ t.p13.phase = .done ∧ t.b2 = s.b2 ∧ t.cc = s.cc ∧ t.aead = s.aead ∧ t.kdf = s.kdf ∧ t.pcg = s.pcg

/-- For every 32-byte key, every old session and every way to cut a message into UPDATEs, the tag that the 26-bit-limb
session gives equals ((acc mod p) + s) mod 2^128 with acc computed on whole numbers block by block (R203, R204, R205, R206,
R207). -/
def Obligations.TagOfAnyChunkingIsTheMathematicalTag : Prop :=
  ∀ (old : PolyMac) (key : Bytes) (chunks : List Bytes), key.length = 32 →
    (chunks.foldl PolyMac.absorb (old.init key)).finish.tag = polyTag key chunks.flatten

/-! ## AEAD -/

/-- With a 32-byte key, a 12-byte nonce and associated data inside BUF the command completes OK in every phase: the private
context is the ChaCha20 context, the private MAC session is keyed with the first 32 bytes of the block at caller counter 0
and has absorbed the associated data and its zero padding whole, and the length is kept; cc, p13, registers and BUF are
untouched (R38, R221). -/
def Obligations.AeadInitDerivesKeyAndAbsorbsAad : Prop :=
  ∀ (s : State) (sa sb sc : SpanReg), s.spanLen sa = 32 → s.spanLen sb = 12 → s.spanOk (s.spanAddr sa) 32 = true →
    s.spanOk (s.spanAddr sb) 12 = true → s.spanOk (s.spanAddr sc) (s.spanLen sc) = true →
    ∃ t otk, exec (.aeadInit sa sb sc) s = .next t ∧ WroteOnlySession s t ∧ t.b2 = s.b2 ∧ t.cc = s.cc ∧ t.p13 = s.p13
      ∧ t.kdf = s.kdf ∧ t.pcg = s.pcg ∧ t.aead.phase = .ready ∧ t.aead.w = chacha20Words (s.readSpan sa) (s.readSpan sb)
      ∧ otk = (chachaBlock t.aead.w ((t.aead.w.get 13).toNat * 2 ^ 32)).take 32
      ∧ t.aead.p.rValue = polyKeyR otk ∧ t.aead.p.sValue = polyKeyS otk ∧ t.aead.p.fill = 0
      ∧ t.aead.p.acc % polyP
          = polyAccumulate (polyKeyR otk) (polyBlocks (s.spanLen sc + 16) (s.readSpan sc ++ pad16 (s.spanLen sc)))
      ∧ t.aead.aadlen = BitVec.ofNat 64 (s.spanLen sc)

/-- Under exactly the phase, length, span and distinctness checks of R223 (the overflow check cannot fail), AEAD.ENC
completes OK: each byte of the destination is plaintext xor keystream from block 1 on, the 16 tag bytes are Tag of the
ciphertext written, every other byte of BUF, every register and every other session is unchanged (R222, R223, R225). -/
def Obligations.AeadEncSeals : Prop :=
  ∀ (s : State) (xa : Reg) (sb sc : SpanReg), s.aead.phase = .ready → s.spanLen sc = 16 →
    s.spanOk (s.spanAddr sb) (s.spanLen sb) = true → s.spanOk (s.xNat xa) (s.spanLen sb) = true →
    s.spanOk (s.spanAddr sc) 16 = true → disjointOrSame (s.xNat xa) (s.spanAddr sb) (s.spanLen sb) = true →
    overlap (s.spanAddr sc) 16 (s.spanAddr sb) (s.spanLen sb) = false →
    overlap (s.spanAddr sc) 16 (s.xNat xa) (s.spanLen sb) = false → s.cfg.wf →
    ∃ t, exec (.aeadEnc xa sb sc) s = .next t
      ∧ (∀ k < s.spanLen sb, t.readByte (s.xNat xa + k) = s.readByte (s.spanAddr sb + k)
          ^^^ (chachaBlock s.aead.w (1 + (s.aead.w.get 13).toNat * 2 ^ 32 + k / 64)).getD (k % 64) 0)
      ∧ t.memRead (s.spanAddr sc) 16 = s.aead.tag (t.memRead (s.xNat xa) (s.spanLen sb))
      ∧ (∀ a, a < s.xNat xa ∨ s.xNat xa + s.spanLen sb ≤ a → a < s.spanAddr sc ∨ s.spanAddr sc + 16 ≤ a →
          t.readByte a = s.readByte a)
      ∧ t.aead.phase = .done ∧ t.b2 = s.b2 ∧ t.cc = s.cc ∧ t.p13 = s.p13 ∧ t.kdf = s.kdf ∧ t.pcg = s.pcg
      ∧ KeepsRegs s t ∧ KeepsErrors s t ∧ KeepsEnv s t ∧ CompletedOk s t

/-- Under the checks of AEAD.ENC, when the received 16 bytes are Tag of the ciphertext, AEAD.DEC completes OK: each byte of
the destination is ciphertext xor keystream from block 1 on, every other byte of BUF (the tag among them), every register
and every other session is unchanged (R222, R224, R225, R226). -/
def Obligations.AeadDecOpensAVerifiedMessage : Prop :=
  ∀ (s : State) (xa : Reg) (sb sc : SpanReg), s.aead.phase = .ready → s.spanLen sc = 16 →
    s.spanOk (s.spanAddr sb) (s.spanLen sb) = true → s.spanOk (s.xNat xa) (s.spanLen sb) = true →
    s.spanOk (s.spanAddr sc) 16 = true → disjointOrSame (s.xNat xa) (s.spanAddr sb) (s.spanLen sb) = true →
    overlap (s.spanAddr sc) 16 (s.spanAddr sb) (s.spanLen sb) = false →
    overlap (s.spanAddr sc) 16 (s.xNat xa) (s.spanLen sb) = false → s.cfg.wf →
    s.memRead (s.spanAddr sc) 16 = s.aead.tag (s.readSpan sb) →
    ∃ t, exec (.aeadDec xa sb sc) s = .next t
      ∧ (∀ k < s.spanLen sb, t.readByte (s.xNat xa + k) = s.readByte (s.spanAddr sb + k)
          ^^^ (chachaBlock s.aead.w (1 + (s.aead.w.get 13).toNat * 2 ^ 32 + k / 64)).getD (k % 64) 0)
      ∧ KeepsBufOutside (s.xNat xa) (s.spanLen sb) s t
      ∧ t.aead.phase = .done ∧ t.b2 = s.b2 ∧ t.cc = s.cc ∧ t.p13 = s.p13 ∧ t.kdf = s.kdf ∧ t.pcg = s.pcg
      ∧ KeepsRegs s t ∧ KeepsErrors s t ∧ KeepsEnv s t ∧ CompletedOk s t

/-- When the received 16 bytes differ from Tag of the ciphertext in any bit, the status is 2, SR0 gets bit AE, SR1 becomes
0x0002, the session is DONE, and no byte of BUF, no register and no other session changes: no plaintext is released. (That
aead.p too is left as it was, although R222 absorbs into it, is the model's reading: log 10.) (R224, R226, R344). -/
def Obligations.AeadDecReleasesNothingOnMismatch : Prop :=
  ∀ (s : State) (xa : Reg) (sb sc : SpanReg), s.aead.phase = .ready → s.spanLen sc = 16 →
    s.spanOk (s.spanAddr sb) (s.spanLen sb) = true → s.spanOk (s.xNat xa) (s.spanLen sb) = true →
    s.spanOk (s.spanAddr sc) 16 = true → disjointOrSame (s.xNat xa) (s.spanAddr sb) (s.spanLen sb) = true →
    overlap (s.spanAddr sc) 16 (s.spanAddr sb) (s.spanLen sb) = false →
    overlap (s.spanAddr sc) 16 (s.xNat xa) (s.spanLen sb) = false → s.cfg.wf →
    s.memRead (s.spanAddr sc) 16 ≠ s.aead.tag (s.readSpan sb) →
    ∃ t, exec (.aeadDec xa sb sc) s = .next t ∧ t.status = some .authenticationError
      ∧ t.errflags = s.errflags ||| 2 ∧ t.lasterr = 2 ∧ t.lastcmd.toNat = (encode (.aeadDec xa sb sc)).toNat
      ∧ t.cmdcnt = s.cmdcnt + 1 ∧ t.aead = { s.aead with phase := .done } ∧ KeepsRegs s t ∧ KeepsBuf s t
      ∧ t.b2 = s.b2 ∧ t.cc = s.cc ∧ t.p13 = s.p13 ∧ t.kdf = s.kdf ∧ t.pcg = s.pcg ∧ KeepsEnv s t

/-- For every key, nonce, associated data and ciphertext, and whatever session was there before, Tag of the session that
AEAD.INIT builds is the whole-number Poly1305 tag, keyed by the first 32 bytes of block 0, of AAD, zero padding, ciphertext,
zero padding, and the two 8-byte little-endian lengths (R221, R222). -/
def Obligations.AeadTagIsPoly1305OfTheTagInput : Prop :=
  ∀ (old : Aead) (key nonce aad ct : Bytes),
    (old.init key nonce aad).tag ct
      = polyTag ((chachaBlock (chacha20Words key nonce) (((chacha20Words key nonce).get 13).toNat * 2 ^ 32)).take 32)
          (aad ++ pad16 aad.length ++ ct ++ pad16 ct.length ++ toLe aad.length 8 ++ toLe ct.length 8)

/-- If AEAD.ENC completes OK on a session built from a key, nonce and associated data, then AEAD.DEC on a session built anew
from the same three, over the ciphertext and tag bytes that ENC wrote, with its own checks passing, completes OK and writes
the original plaintext, in place or not (R220, R221, R222, R223, R224). -/
def Obligations.AeadOpensWhatItSealed : Prop :=
  ∀ (s t v : State) (old old' : Aead) (key nonce aad : Bytes) (xa xa' : Reg) (sb sc sb' sc' : SpanReg),
    s.aead = old.init key nonce aad → exec (.aeadEnc xa sb sc) s = .next t → t.status = some .ok →
    v.aead = old'.init key nonce aad → v.spanAddr sb' = s.xNat xa → v.spanLen sb' = s.spanLen sb →
    v.spanAddr sc' = s.spanAddr sc →
    (∀ k < s.spanLen sb, v.readByte (s.xNat xa + k) = t.readByte (s.xNat xa + k)) →
    (∀ k < 16, v.readByte (s.spanAddr sc + k) = t.readByte (s.spanAddr sc + k)) → Accepts v (.aeadDec xa' sb' sc') →
    ∃ u, exec (.aeadDec xa' sb' sc') v = .next u ∧ u.status = some .ok
      ∧ ∀ k < s.spanLen sb, u.readByte (v.xNat xa' + k) = s.readByte (s.spanAddr sb + k)

/-! ## Key derivation -/

/-- With the key inside BUF and both lengths within the variant's limit the command completes OK in every phase and holds
the configuration; a key shorter than 64 bytes is followed by zero bytes; nothing but kdf changes (R40, R241). -/
def Obligations.KdfCfgHoldsTheConfiguration : Prop :=
  ∀ (s : State) (sa : SpanReg) (xb : Reg) (imm8 : BitVec 8), imm8.toNat ≤ 1 →
    s.spanLen sa ≤ (if imm8.toNat = 0 then 64 else 32) → 1 ≤ s.xNat xb → s.xNat xb ≤ (if imm8.toNat = 0 then 64 else 32) →
    s.spanOk (s.spanAddr sa) (s.spanLen sa) = true →
    ∃ t, exec (.kdfCfg sa xb imm8) s = .next t ∧ WroteOnlySession s t ∧ t.b2 = s.b2 ∧ t.cc = s.cc ∧ t.p13 = s.p13
      ∧ t.aead = s.aead ∧ t.pcg = s.pcg ∧ t.kdf.phase = .ready ∧ t.kdf.var.code = imm8.toNat ∧ t.kdf.keylen = s.spanLen sa
      ∧ t.kdf.outlen = s.xNat xb
      ∧ ∀ i : Fin 64, t.kdf.key.get i = if i.val < s.spanLen sa then s.readByte (s.spanAddr sa + i.val) else 0

/-- Under exactly the checks of R243 the command completes OK and writes L bytes: T_i is the XOR of c iterates of the keyed
hash, the first over the salt and the 4-byte big-endian index i, and the keyed hash is the BLAKE2 digest under kdf.var, the
first kdf.keylen bytes of kdf.key and digest length kdf.outlen; no register, status record, other byte of BUF or session (b2
and kdf among them) changes (R240, R242, R243, R151). -/
def Obligations.Pbkdf2WritesTheDerivedKey : Prop :=
  ∀ (s : State) (sa sb : SpanReg) (xc : Reg), s.kdf.phase = .ready → s.kdf.Inv → 1 ≤ s.xNat xc → 1 ≤ s.spanLen sa →
    ceilDiv (s.spanLen sa) s.kdf.outlen ≤ 2 ^ 32 - 1 → s.spanOk (s.spanAddr sa) (s.spanLen sa) = true →
    s.spanOk (s.spanAddr sb) (s.spanLen sb) = true →
    overlap (s.spanAddr sa) (s.spanLen sa) (s.spanAddr sb) (s.spanLen sb) = false →
    ∃ t out, exec (.pbkdf2 sa sb xc) s = .next t ∧ out.length = s.spanLen sa ∧ WroteOnlyBuf (s.spanAddr sa) out s t
      ∧ out = ((List.range (ceilDiv (s.spanLen sa) s.kdf.outlen)).flatMap
          fun j => pbkdf2Reference s.kdf (s.readSpan sb) (s.xNat xc) (j + 1)).take (s.spanLen sa)
      ∧ KeepsSessions s t
      ∧ ∀ m, s.kdf.hash m = blake2Reference s.kdf.var (s.kdf.key.toList.take s.kdf.keylen) s.kdf.outlen m

/-- Under exactly the checks of R244 the command completes OK and writes L bytes: T_1 hashes the data and the byte 1, T_i
hashes T_(i-1), the data and the byte i, with the BLAKE2 digest under kdf.var, the first kdf.keylen bytes of kdf.key and
digest length kdf.outlen; no register, status record, other byte of BUF or session changes (R240, R242, R244, R151). -/
def Obligations.HkdfWritesTheDerivedKey : Prop :=
  ∀ (s : State) (sa sb : SpanReg), s.kdf.phase = .ready → s.kdf.Inv → 1 ≤ s.spanLen sa →
    s.spanLen sa ≤ 255 * s.kdf.outlen → s.spanOk (s.spanAddr sa) (s.spanLen sa) = true →
    s.spanOk (s.spanAddr sb) (s.spanLen sb) = true →
    overlap (s.spanAddr sa) (s.spanLen sa) (s.spanAddr sb) (s.spanLen sb) = false →
    ∃ t out, exec (.hkdf sa sb) s = .next t ∧ out.length = s.spanLen sa ∧ WroteOnlyBuf (s.spanAddr sa) out s t
      ∧ out = ((List.range (ceilDiv (s.spanLen sa) s.kdf.outlen)).flatMap
          fun j => hkdfReference s.kdf (s.readSpan sb) (j + 1)).take (s.spanLen sa)
      ∧ KeepsSessions s t
      ∧ ∀ m, s.kdf.hash m = blake2Reference s.kdf.var (s.kdf.key.toList.take s.kdf.keylen) s.kdf.outlen m

/-- For every configuration with lengths in range and every data, the key that HKDF derives for length l1 is the first l1
bytes of the key it derives for any longer length l2 (R244). -/
def Obligations.HkdfShorterOutputIsAPrefix : Prop :=
  ∀ (k : Kdf) (data : Bytes) (l1 l2 : Nat), k.Inv → 1 ≤ k.outlen → l1 ≤ l2 →
    hkdfOutput k data l1 = (hkdfOutput k data l2).take l1

/-! ## The generator -/

/-- SEED takes the state as given and the increment with its low bit set; NEXT writes the 32-bit output of the state before
the step, rotated right by its top five bits, and steps the generator; GETS reads the state; each has exactly the word of
its rule, and nothing else changes (R281, R282, R283, R287). -/
def Obligations.PcgSeedNextAndGets : Prop :=
  (∀ xa xb : Reg, EncodedAs (.pcgSeed xa xb) (0x60 * 2 ^ 24 + xa.val * 2 ^ 20 + xb.val * 2 ^ 16)
      ∧ EncodedAs (.pcgNext xa) (0x61 * 2 ^ 24 + xa.val * 2 ^ 20) ∧ EncodedAs (.pcgGets xa) (0x64 * 2 ^ 24 + xa.val * 2 ^ 20))
    ∧ ∀ (s : State) (xa xb : Reg),
      (∃ t, exec (.pcgSeed xa xb) s = .next t ∧ WroteOnlySession s t ∧ t.b2 = s.b2 ∧ t.cc = s.cc ∧ t.p13 = s.p13
          ∧ t.aead = s.aead ∧ t.kdf = s.kdf ∧ t.pcg.lcg = s.getX xa ∧ t.pcg.inc = s.getX xb ||| 1)
      ∧ (∃ t, exec (.pcgNext xa) s = .next t ∧ KeepsRegsBut xa s t ∧ KeepsErrors s t ∧ KeepsBuf s t ∧ KeepsEnv s t
          ∧ CompletedOk s t ∧ t.b2 = s.b2 ∧ t.cc = s.cc ∧ t.p13 = s.p13 ∧ t.aead = s.aead ∧ t.kdf = s.kdf
          ∧ t.pcg.lcg = s.pcg.lcg * 6364136223846793005 + s.pcg.inc ∧ t.pcg.inc = s.pcg.inc
          ∧ t.getX xa = ((((s.pcg.lcg >>> 18 ^^^ s.pcg.lcg) >>> 27).setWidth 32 : Word32).rotateRight
              (s.pcg.lcg >>> 59).toNat).setWidth 64)
      ∧ ∃ t, exec (.pcgGets xa) s = .next t ∧ WroteOnlyReg xa s.pcg.lcg s t

/-- For every generator with an odd increment (every generator a run can have) and any bounds in either order, PCG.RANGE
completes OK: there is a number n of draws that the rejection threshold refuses, the next draw is accepted and gives lo +
draw * range / 2^32, which lies within the bounds, and the generator has taken n + 1 steps. (The model bounds the redraw
loop at 2^64 draws: log 6.) (R284, R285, R42). -/
def Obligations.PcgRangeReturnsTheFirstAcceptedDraw : Prop :=
  ∀ (s : State) (xa xb xc : Reg), s.pcg.inc.toNat % 2 = 1 →
    ∃ (t : State) (n lo hi : Nat), exec (.pcgRange xa xb xc) s = .next t
      ∧ lo = min (s.xNat xb % 2 ^ 32) (s.xNat xc % 2 ^ 32) ∧ hi = max (s.xNat xb % 2 ^ 32) (s.xNat xc % 2 ^ 32)
      ∧ (∀ j < n, ¬drawAccepted (hi - lo + 1) (pcgOutput (Pcg.step^[j] s.pcg).lcg))
      ∧ drawAccepted (hi - lo + 1) (pcgOutput (Pcg.step^[n] s.pcg).lcg)
      ∧ (t.getX xa).toNat = lo + (pcgOutput (Pcg.step^[n] s.pcg).lcg).toNat * (hi - lo + 1) / 2 ^ 32
      ∧ lo ≤ (t.getX xa).toNat ∧ (t.getX xa).toNat ≤ hi ∧ t.pcg = Pcg.step^[n + 1] s.pcg
      ∧ KeepsRegsBut xa s t ∧ KeepsErrors s t ∧ KeepsBuf s t ∧ KeepsEnv s t ∧ CompletedOk s t
      ∧ t.b2 = s.b2 ∧ t.cc = s.cc ∧ t.p13 = s.p13 ∧ t.aead = s.aead ∧ t.kdf = s.kdf

/-- In every state PCG.JUMP completes OK and its 64-turn square-and-multiply loop leaves the generator exactly where x[ra]
applications of Step would, changing nothing else; since the period is 2^64, a jump by 2^64 - 1 after a step gives the state
before it (R286). -/
def Obligations.PcgJumpIsTheIteratedStep : Prop :=
  (∀ (s : State) (xa : Reg), ∃ t, exec (.pcgJump xa) s = .next t ∧ t.pcg = Pcg.step^[s.xNat xa] s.pcg ∧ WroteOnlySession s t
      ∧ t.b2 = s.b2 ∧ t.cc = s.cc ∧ t.p13 = s.p13 ∧ t.aead = s.aead ∧ t.kdf = s.kdf)
    ∧ ∀ g : Pcg, g.inc.toNat % 2 = 1 → g.step.jump (BitVec.allOnes 64) = g

/-! ## BitOps -/

/-- Each rotation writes the low 32 (all 64) bits of x[rb] rotated by x[rc] modulo the width, the 32-bit results zero-
extended, for every operand and register choice; nothing else changes; each has exactly the word of its rule (R301, R302,
R303, R304). -/
def Obligations.RotationsRotate : Prop :=
  (∀ xa xb xc : Reg, EncodedAs (.rotl32 xa xb xc) (0x70 * 2 ^ 24 + xa.val * 2 ^ 20 + xb.val * 2 ^ 16 + xc.val * 2 ^ 12)
      ∧ EncodedAs (.rotr32 xa xb xc) (0x71 * 2 ^ 24 + xa.val * 2 ^ 20 + xb.val * 2 ^ 16 + xc.val * 2 ^ 12)
      ∧ EncodedAs (.rotl64 xa xb xc) (0x72 * 2 ^ 24 + xa.val * 2 ^ 20 + xb.val * 2 ^ 16 + xc.val * 2 ^ 12)
      ∧ EncodedAs (.rotr64 xa xb xc) (0x73 * 2 ^ 24 + xa.val * 2 ^ 20 + xb.val * 2 ^ 16 + xc.val * 2 ^ 12))
    ∧ ∀ (s : State) (xa xb xc : Reg),
        (∃ t, exec (.rotl32 xa xb xc) s = .next t ∧ WroteOnlyReg xa ((((s.getX xb).setWidth 32 : Word32).rotateLeft (s.xNat xc % 32)).setWidth 64) s t)
        ∧ (∃ t, exec (.rotr32 xa xb xc) s = .next t ∧ WroteOnlyReg xa ((((s.getX xb).setWidth 32 : Word32).rotateRight (s.xNat xc % 32)).setWidth 64) s t)
        ∧ (∃ t, exec (.rotl64 xa xb xc) s = .next t ∧ WroteOnlyReg xa (((s.getX xb).rotateLeft (s.xNat xc % 64))) s t)
        ∧ (∃ t, exec (.rotr64 xa xb xc) s = .next t ∧ WroteOnlyReg xa (((s.getX xb).rotateRight (s.xNat xc % 64))) s t)

/-- LZCNT writes r with the highest set bit at index width-1-r (the width for 0), TZCNT the index of the lowest set bit (the
width for 0), POPCNT the number of set bits, of the low 32 or all 64 bits of x[rb]; nothing else changes (R300, R305, R306,
R307, R308, R309, R310). -/
def Obligations.CountsCountBits : Prop :=
  ∀ (s : State) (xa xb : Reg),
    (∃ t r, exec (.lzcnt32 xa xb) s = .next t ∧ WroteOnlyReg xa (BitVec.ofNat 64 r) s t
        ∧ ((s.xNat xb % 2 ^ 32) = 0 → r = 32) ∧ ((s.xNat xb % 2 ^ 32) ≠ 0 → r < 32 ∧ (s.xNat xb % 2 ^ 32) / 2 ^ (31 - r) = 1))
    ∧ (∃ t r, exec (.lzcnt64 xa xb) s = .next t ∧ WroteOnlyReg xa (BitVec.ofNat 64 r) s t
        ∧ (s.xNat xb = 0 → r = 64) ∧ (s.xNat xb ≠ 0 → r < 64 ∧ s.xNat xb / 2 ^ (63 - r) = 1))
    ∧ (∃ t r, exec (.tzcnt32 xa xb) s = .next t ∧ WroteOnlyReg xa (BitVec.ofNat 64 r) s t
        ∧ ((s.xNat xb % 2 ^ 32) = 0 → r = 32) ∧ ((s.xNat xb % 2 ^ 32) ≠ 0 → (s.xNat xb % 2 ^ 32) % 2 ^ r = 0 ∧ (s.xNat xb % 2 ^ 32) / 2 ^ r % 2 = 1))
    ∧ (∃ t r, exec (.tzcnt64 xa xb) s = .next t ∧ WroteOnlyReg xa (BitVec.ofNat 64 r) s t
        ∧ (s.xNat xb = 0 → r = 64) ∧ (s.xNat xb ≠ 0 → s.xNat xb % 2 ^ r = 0 ∧ s.xNat xb / 2 ^ r % 2 = 1))
    ∧ (∃ t, exec (.popcnt32 xa xb) s = .next t
        ∧ WroteOnlyReg xa (BitVec.ofNat 64 ((List.range 32).countP fun k => ((s.xNat xb % 2 ^ 32)).testBit k)) s t)
    ∧ (∃ t, exec (.popcnt64 xa xb) s = .next t
        ∧ WroteOnlyReg xa (BitVec.ofNat 64 ((List.range 64).countP fun k => (s.xNat xb).testBit k)) s t)

/-- LOG2F writes the k with 2^k at most v and v below 2^(k+1), LOG2C the least k with v at most 2^k, each 0 where R311 and
R312 say 0; ISPOW2 writes 1 exactly for powers of two; nothing else changes (R311, R312, R313). -/
def Obligations.LogarithmsAndPowerTest : Prop :=
  ∀ (s : State) (xa xb : Reg),
    (∃ t k, exec (.log2f xa xb) s = .next t ∧ WroteOnlyReg xa (BitVec.ofNat 64 k) s t ∧ k ≤ 63
        ∧ (s.xNat xb = 0 → k = 0) ∧ (1 ≤ s.xNat xb → 2 ^ k ≤ s.xNat xb ∧ s.xNat xb < 2 ^ (k + 1)))
    ∧ (∃ t k, exec (.log2c xa xb) s = .next t ∧ WroteOnlyReg xa (BitVec.ofNat 64 k) s t ∧ k ≤ 64
        ∧ (s.xNat xb ≤ 1 → k = 0) ∧ (2 ≤ s.xNat xb → s.xNat xb ≤ 2 ^ k ∧ ∀ j, s.xNat xb ≤ 2 ^ j → k ≤ j))
    ∧ ∃ t b, exec (.ispow2 xa xb) s = .next t ∧ WroteOnlyReg xa b s t ∧ (b = 0 ∨ b = 1)
        ∧ (b = 1 ↔ ∃ k, s.xNat xb = 2 ^ k)

/-- For every pair of 64-bit values, zero included, GCD writes their greatest common divisor, gcd(v, 0) being v; nothing
else changes; its word is that of its rule (R314). -/
def Obligations.GcdIsTheGreatestCommonDivisor : Prop :=
  (∀ xa xb xc : Reg, EncodedAs (.gcd xa xb xc) (0x7D * 2 ^ 24 + xa.val * 2 ^ 20 + xb.val * 2 ^ 16 + xc.val * 2 ^ 12))
    ∧ ∀ (s : State) (xa xb xc : Reg), ∃ t, exec (.gcd xa xb xc) s = .next t
        ∧ WroteOnlyReg xa (BitVec.ofNat 64 (Nat.gcd (s.xNat xb) (s.xNat xc))) s t

/-- For every odd value v, MODINV writes the unique y with v * y = 1 modulo 2^64; an even value, zero included, raises
UsageError(BAD_OPERAND) and changes no register; its word is that of its rule (R315). -/
def Obligations.ModinvInvertsOddValues : Prop :=
  (∀ xa xb : Reg, EncodedAs (.modinv xa xb) (0x7E * 2 ^ 24 + xa.val * 2 ^ 20 + xb.val * 2 ^ 16))
    ∧ ∀ (s : State) (xa xb : Reg),
        (s.xNat xb % 2 = 1 → ∃ t y, exec (.modinv xa xb) s = .next t ∧ WroteOnlyReg xa y s t
          ∧ s.getX xb * y = 1 ∧ ∀ z : Word, s.getX xb * z = 1 → z = y)
        ∧ (s.xNat xb % 2 = 0 → ∃ t, exec (.modinv xa xb) s = .next t
          ∧ RaisedOnly (encode (.modinv xa xb)) (.usage .badOperand) s t)

/-- With both spans inside BUF, CTEQ completes OK and writes 1 if the lengths and all bytes are equal and 0 otherwise; with
equal lengths and the destination inside BUF and disjoint from or equal to each source, XORB completes OK and writes the
bytewise exclusive or of the two sources as they were before; nothing else changes (R316, R317, R226). -/
def Obligations.SpanCompareAndXor : Prop :=
  ∀ (s : State) (xa : Reg) (sb sc : SpanReg), s.spanOk (s.spanAddr sb) (s.spanLen sb) = true →
    s.spanOk (s.spanAddr sc) (s.spanLen sc) = true →
    (∃ t, exec (.cteq xa sb sc) s = .next t ∧ WroteOnlyReg xa (if s.readSpan sb = s.readSpan sc then 1 else 0) s t)
    ∧ (s.spanLen sb = s.spanLen sc → s.spanOk (s.xNat xa) (s.spanLen sb) = true →
        disjointOrSame (s.xNat xa) (s.spanAddr sb) (s.spanLen sb) = true →
        disjointOrSame (s.xNat xa) (s.spanAddr sc) (s.spanLen sb) = true →
        ∃ t, exec (.xorb xa sb sc) s = .next t
          ∧ (∀ k < s.spanLen sb, t.readByte (s.xNat xa + k)
              = s.readByte (s.spanAddr sb + k) ^^^ s.readByte (s.spanAddr sc + k))
          ∧ KeepsBufOutside (s.xNat xa) (s.spanLen sb) s t ∧ KeepsRegs s t ∧ KeepsErrors s t ∧ KeepsSessions s t
          ∧ KeepsEnv s t ∧ CompletedOk s t)

/-! ## Isolation and host software -/

/-- Run a command on two states that differ only in the contents of BUF: the status, the error record, the count, the phases
and every register come out the same, for every command but AEAD.DEC, and but for the destination register of CTEQ. (The
time of a command, the other half of R386, is not in the model: log 14.) (R386, R345). -/
def Obligations.OutcomeDoesNotDependOnBufBytes : Prop :=
  ∀ (i : Instr) (s t t' : State) (m : Memory), (∀ xa sb sc, i ≠ .aeadDec xa sb sc) → exec i s = .next t →
    exec i { s with buf := m } = .next t' →
    t'.status = t.status ∧ t'.errflags = t.errflags ∧ t'.lasterr = t.lasterr ∧ t'.lastcmd = t.lastcmd
    ∧ t'.cmdcnt = t.cmdcnt ∧ t'.pcg = t.pcg ∧ (∀ r, (∀ sb sc, i ≠ .cteq r sb sc) → t'.getX r = t.getX r)
    ∧ t'.phaseWord = t.phaseWord

/-- For every 64-bit value the commands that LI expands to leave it in the register and change no other register, error
record, byte of BUF or session; LSPAN sets the address and the length register of the span, s15 included. (That LI always
gives four commands from 2^20 on is the model's choice: log 19.) (R101, R121, R122). -/
def Obligations.LoadConstantPseudoInstructions : Prop :=
  ∀ (s : State) (xa : Reg) (v : Nat), v < 2 ^ 64 →
    (∃ t, runCommands (li xa v) s = .next t ∧ (t.getX xa).toNat = v ∧ KeepsRegsBut xa s t ∧ KeepsErrors s t ∧ KeepsBuf s t
      ∧ KeepsSessions s t ∧ t.status = some .ok)
    ∧ ∀ n : Nat, n < 2 ^ 64 → ∃ t, runCommands (lspan xa v n) s = .next t ∧ t.spanAddr xa = v ∧ t.spanLen xa = n
        ∧ (∀ r, r ≠ xa → r ≠ xa + 1 → t.getX r = s.getX r) ∧ KeepsErrors s t ∧ KeepsBuf s t ∧ KeepsSessions s t
end

