-- ==== Sys2Proof/Laws/Bytes.lean ====
section
/-! SUPPORT. The small lemmas of the byte-string helpers (spec/00_scope.md R10). -/

namespace Sys2Proof.Machine

@[simp] theorem length_zeros (n : Nat) : (zeros n).length = n := by simp [zeros]
@[simp] theorem length_toLe (v n : Nat) : (toLe v n).length = n := by
  induction n generalizing v with
  | zero => rfl
  | succ n ih => simp [toLe, ih]
@[simp] theorem length_toBe (v n : Nat) : (toBe v n).length = n := by simp [toBe]
@[simp] theorem length_pad16 (n : Nat) : (pad16 n).length = (16 - n % 16) % 16 := by simp [pad16]
@[simp] theorem length_xorBytes (a b : Bytes) : (xorBytes a b).length = min a.length b.length := by simp [xorBytes]
@[simp] theorem length_slice (b : Bytes) (i j : Nat) : (slice b i j).length = min (j - i) (b.length - i) := by
  simp [slice]

@[simp] theorem le_nil : le [] = 0 := rfl
theorem le_cons (b : Byte) (bs : Bytes) : le (b :: bs) = b.toNat + 256 * le bs := rfl

theorem le_append (a b : Bytes) : le (a ++ b) = le a + 256 ^ a.length * le b := by
  induction a with
  | nil => simp
  | cons x a ih => rw [List.cons_append, le_cons, le_cons, ih, List.length_cons, Nat.pow_succ]; ring

theorem le_lt (b : Bytes) : le b < 256 ^ b.length := by
  induction b with
  | nil => simp
  | cons x b ih =>
    have := x.isLt
    rw [le_cons, List.length_cons, Nat.pow_succ]
    omega

@[simp] theorem le_zeros (n : Nat) : le (zeros n) = 0 := by
  induction n with
  | zero => rfl
  | succ n ih =>
    have : zeros (n + 1) = 0 :: zeros n := rfl
    rw [this, le_cons, ih]; rfl

/-- `le(to_le(v, n)) = v mod 256^n`. -/
theorem le_toLe (v n : Nat) : le (toLe v n) = v % 256 ^ n := by
  induction n generalizing v with
  | zero => simp [toLe, Nat.mod_one]
  | succ n ih =>
    rw [toLe, le_cons, ih, Nat.pow_succ, BitVec.toNat_ofNat, Nat.mul_comm (256 ^ n), Nat.mod_mul]

/-- A byte string is `to_le` of its value. -/
theorem toLe_le (b : Bytes) : toLe (le b) b.length = b := by
  induction b with
  | nil => rfl
  | cons x b ih =>
    have hx := x.isLt
    rw [List.length_cons, toLe, le_cons]
    congr 1
    · apply BitVec.eq_of_toNat_eq
      rw [BitVec.toNat_ofNat]; omega
    · rw [show (x.toNat + 256 * le b) / 256 = le b by omega, ih]

theorem xorBytes_self_cancel (a k : Bytes) (h : a.length ≤ k.length) : xorBytes (xorBytes a k) k = a := by
  apply List.ext_getElem
  · simp [xorBytes]; omega
  · intro i h1 h2
    simp [xorBytes]

/-- The comparison answers true exactly when the strings are equal (48_bitops.md R316). -/
theorem foldl_or_eq_zero (l : Bytes) (acc : Byte) : l.foldl (· ||| ·) acc = 0 ↔ acc = 0 ∧ ∀ b ∈ l, b = 0 := by
  have hor : ∀ x y : Byte, x ||| y = 0 ↔ x = 0 ∧ y = 0 := fun x y => BitVec.or_eq_zero_iff
  induction l generalizing acc with
  | nil => simp
  | cons b l ih =>
    have := ih (acc ||| b)
    simp only [List.foldl_cons, this, hor, List.forall_mem_cons, and_assoc]

theorem ctEqual_iff (a b : Bytes) : ctEqual a b = true ↔ a = b := by
  have hxor : ∀ x y : Byte, x ^^^ y = 0 ↔ x = y := fun x y => BitVec.xor_eq_zero_iff
  have hone : ∀ x : Byte, x ||| 1 ≠ 0 := by decide
  by_cases hl : a.length = b.length
  · simp only [ctEqual, hl, ne_eq, not_true_eq_false, if_false, beq_iff_eq]
    rw [foldl_or_eq_zero]
    constructor
    · rintro ⟨-, h⟩
      apply List.ext_getElem hl
      intro i h1 h2
      have := h (a[i] ^^^ b[i]) (by
        rw [List.mem_iff_getElem]
        exact ⟨i, by simp; omega, by simp [xorBytes]⟩)
      exact (hxor _ _).mp this
    · rintro rfl
      refine ⟨rfl, fun c hc => ?_⟩
      obtain ⟨i, hi, rfl⟩ := List.mem_iff_getElem.mp hc
      simp [xorBytes]
  · simp only [ctEqual, ne_eq, hl, not_false_eq_true, if_true, beq_iff_eq]
    constructor
    · intro h; exact absurd h (hone _)
    · rintro rfl; exact absurd rfl hl

@[simp] theorem get_overwrite {n : Nat} (buf : Vector Byte n) (bs : Bytes) (i : Fin n) :
    (overwrite buf bs).get i = bs.getD i.val (buf.get i) := by
  simp [overwrite, Vector.get_eq_getElem]

end Sys2Proof.Machine
end

