-- ==== Sys2Proof/Laws/Blake2.lean ====
section
/-! SUPPORT. What the shared operations of a BLAKE2 session do: widths of the words, the invariant of a session, the parts of a
session that each operation leaves alone (spec/10_state.md R30, R31; spec/41_blake2.md). -/

namespace Sys2Proof.Machine

/-! ## Words of w bits -/

/-- Every word of the array is below 2^w. -/
def Fits (var : Variant) {n : Nat} (v : Vector Word n) : Prop := ∀ i, (v.get i).toNat < 2 ^ var.width

theorem and_mask_lt (var : Variant) (a : Word) : (a &&& var.mask).toNat < 2 ^ var.width := by
  rw [BitVec.toNat_and]
  refine Nat.lt_of_le_of_lt Nat.and_le_right ?_
  cases var <;> decide

theorem xor_width_lt (var : Variant) (a b : Word) (ha : a.toNat < 2 ^ var.width) (hb : b.toNat < 2 ^ var.width) :
    (a ^^^ b).toNat < 2 ^ var.width := by
  rw [BitVec.toNat_xor]; exact Nat.xor_lt_two_pow ha hb

theorem get_set {α : Type} {n : Nat} (v : Vector α n) (i j : Fin n) (x : α) :
    (v.set i x).get j = if j = i then x else v.get j := by
  simp only [Vector.get_eq_getElem, Vector.getElem_set, Fin.ext_iff, eq_comm]

theorem Fits.set {var : Variant} {n : Nat} {v : Vector Word n} (h : Fits var v) (i : Fin n) (x : Word)
    (hx : x.toNat < 2 ^ var.width) : Fits var (v.set i x) := by
  intro j
  rw [get_set]
  split
  · exact hx
  · exact h j

theorem mixG_fits (var : Variant) (v : Vector Word 16) (a b c d : Fin 16) (x y : Word) (h : Fits var v) :
    Fits var (mixG var v a b c d x y) := by
  refine (((h.set a _ ?_).set b _ ?_).set c _ ?_).set d _ ?_ <;> exact and_mask_lt var _

theorem mixRound_fits (var : Variant) (m v : Vector Word 16) (r : Nat) (h : Fits var v) : Fits var (mixRound var m v r) := by
  simp only [mixRound]
  repeat' apply mixG_fits
  exact h

theorem iv_fits (var : Variant) : Fits var var.iv := by
  intro i
  cases var
  · exact BitVec.isLt _
  · revert i; decide

theorem width_le (var : Variant) : var.width ≤ 64 := by cases var <;> decide

theorem ofNat_fits (var : Variant) (n : Nat) (h : n < 2 ^ var.width) : (BitVec.ofNat 64 n).toNat < 2 ^ var.width := by
  rw [BitVec.toNat_ofNat]
  exact Nat.lt_of_le_of_lt (Nat.mod_le _ _) h

theorem workingArray_fits (var : Variant) (h : Vector Word 8) (t : BitVec 128) (last : Bool) (hh : Fits var h)
    (ht : t.toNat < 2 ^ (2 * var.width)) : Fits var (workingArray var h t last) := by
  have h0 : Fits var (h ++ var.iv) := by
    intro i
    rw [Vector.get_eq_getElem, Vector.getElem_append]
    split
    · next hi => exact hh ⟨i.val, hi⟩
    · next hi => exact iv_fits var ⟨i.val - 8, by omega⟩
  have hlo : t.toNat % 2 ^ var.width < 2 ^ var.width := Nat.mod_lt _ (Nat.two_pow_pos _)
  have hhi : t.toNat / 2 ^ var.width < 2 ^ var.width := by
    rw [Nat.div_lt_iff_lt_mul (Nat.two_pow_pos _), ← Nat.pow_add, ← Nat.two_mul]; exact ht
  have h1 := h0.set 12 _ (xor_width_lt var _ _ (h0 12) (ofNat_fits var _ hlo))
  have h2 := h1.set 13 _ (xor_width_lt var _ _ (h1 13) (ofNat_fits var _ hhi))
  have hm : var.mask.toNat < 2 ^ var.width := by cases var <;> decide
  simp only [workingArray]
  split
  · exact h2.set 14 _ (xor_width_lt var _ _ (h2 14) hm)
  · exact h2

theorem rounds_fits (var : Variant) (m : Vector Word 16) (rs : List Nat) (v : Vector Word 16) (h : Fits var v) :
    Fits var (rs.foldl (mixRound var m) v) := by
  induction rs generalizing v with
  | nil => exact h
  | cons r rs ih =>
    rw [List.foldl_cons]
    exact ih (mixRound var m v r) (mixRound_fits var m v r h)

theorem compress_fits (var : Variant) (h : Vector Word 8) (block : Bytes) (t : BitVec 128) (last : Bool) (hh : Fits var h)
    (ht : t.toNat < 2 ^ (2 * var.width)) : Fits var (compress var h block t last) := by
  intro i
  have hv := rounds_fits var (messageWords var block) (List.range var.rounds) _ (workingArray_fits var h t last hh ht)
  simp only [compress, Vector.get_eq_getElem, Vector.getElem_ofFn]
  exact xor_width_lt var _ _ (xor_width_lt var _ _ (hh i) (hv _)) (hv _)

/-! ## The session -/

theorem blockBytes_le (var : Variant) : var.blockBytes ≤ 128 := by cases var <;> decide
theorem blockBytes_pos (var : Variant) : 0 < var.blockBytes := by cases var <;> decide
theorem maxLen_lt_blockBytes (var : Variant) : var.maxLen < var.blockBytes := by cases var <;> decide
theorem blockBytes_lt_pow (var : Variant) : var.blockBytes < 2 ^ (2 * var.width) := by cases var <;> decide

section
variable (b : Blake2) (last : Bool) (d : Byte) (data : Bytes)
@[simp] theorem compressPending_phase : (b.compressPending last).phase = b.phase := rfl
@[simp] theorem compressPending_var : (b.compressPending last).var = b.var := rfl
@[simp] theorem compressPending_outlen : (b.compressPending last).outlen = b.outlen := rfl
@[simp] theorem compressPending_cfb : (b.compressPending last).cfb = false := rfl
@[simp] theorem compressPending_fill : (b.compressPending last).fill = 0 := rfl
@[simp] theorem compressPending_buf : (b.compressPending last).buf = b.buf := rfl
@[simp] theorem absorbByte_phase : (b.absorbByte d).phase = b.phase := by
  simp only [Blake2.absorbByte]; split <;> rfl
@[simp] theorem absorbByte_var : (b.absorbByte d).var = b.var := by
  simp only [Blake2.absorbByte]; split <;> rfl
@[simp] theorem absorbByte_outlen : (b.absorbByte d).outlen = b.outlen := by
  simp only [Blake2.absorbByte]; split <;> rfl
@[simp] theorem absorb_nil : b.absorb [] = b := rfl
@[simp] theorem absorb_phase : (b.absorb data).phase = b.phase := by
  induction data generalizing b with
  | nil => rfl
  | cons d ds ih => exact (ih (b.absorbByte d)).trans (absorbByte_phase b d)
@[simp] theorem absorb_var : (b.absorb data).var = b.var := by
  induction data generalizing b with
  | nil => rfl
  | cons d ds ih => exact (ih (b.absorbByte d)).trans (absorbByte_var b d)
@[simp] theorem absorb_outlen : (b.absorb data).outlen = b.outlen := by
  induction data generalizing b with
  | nil => rfl
  | cons d ds ih => exact (ih (b.absorbByte d)).trans (absorbByte_outlen b d)
@[simp] theorem padded_phase : b.padded.phase = b.phase := by simp only [Blake2.padded]
@[simp] theorem padded_var : b.padded.var = b.var := by simp only [Blake2.padded]
@[simp] theorem padded_cfb : b.padded.cfb = b.cfb := by simp only [Blake2.padded]
@[simp] theorem padded_h : b.padded.h = b.h := by simp only [Blake2.padded]
@[simp] theorem padded_fill : b.padded.fill = b.fill := by simp only [Blake2.padded]
@[simp] theorem padded_t : b.padded.t = b.t := by simp only [Blake2.padded]
@[simp] theorem padded_outlen : b.padded.outlen = b.outlen := by simp only [Blake2.padded]
@[simp] theorem finish_phase : b.finish.phase = .done := by simp only [Blake2.finish]
@[simp] theorem finish_var : b.finish.var = b.var := by
  simp only [Blake2.finish, compressPending_var, padded_var]
@[simp] theorem finish_outlen : b.finish.outlen = b.outlen := by
  simp only [Blake2.finish, compressPending_outlen, padded_outlen]
@[simp] theorem finish_cfb : b.finish.cfb = false := by simp only [Blake2.finish, compressPending_cfb]
@[simp] theorem finish_fill : b.finish.fill = 0 := by simp only [Blake2.finish, compressPending_fill]
end

/-- Absorbing a concatenation is absorbing its parts in turn (41_blake2.md R143). -/
theorem blake2_absorb_append (b : Blake2) (xs ys : Bytes) : b.absorb (xs ++ ys) = (b.absorb xs).absorb ys :=
  List.foldl_append ..

/-- One compression keeps the invariant, and leaves an empty buffer with no key block pending. -/
theorem compressPending_inv (b : Blake2) (last : Bool) (h : b.Inv) : (b.compressPending last).Inv := by
  have ht : (b.compressPending last).t.toNat < 2 ^ (2 * b.var.width) := by
    simp only [Blake2.compressPending]
    split
    · exact h.counter
    · rw [BitVec.toNat_ofNat]
      exact Nat.lt_of_le_of_lt (Nat.mod_le _ _) (Nat.mod_lt _ (Nat.two_pow_pos _))
  exact
    { fill := Nat.zero_le _
      words := compress_fits b.var b.h _ _ last h.words ht
      counter := ht
      outlen := h.outlen
      activeLen := h.activeLen
      first := fun hc => by simp at hc }

theorem absorbByte_inv (b : Blake2) (d : Byte) (h : b.Inv) : (b.absorbByte d).Inv := by
  have key : ∀ c : Blake2, c.Inv → c.fill < c.var.blockBytes →
      ({ c with buf := c.buf.setIfInBounds c.fill d, fill := c.fill + 1 } : Blake2).Inv := by
    intro c hc hlt
    exact
      { fill := hlt
        words := hc.words
        counter := hc.counter
        outlen := hc.outlen
        activeLen := hc.activeLen
        first := fun hcfb => by have := (hc.first hcfb).2.1; omega }
  simp only [Blake2.absorbByte]
  split
  · exact key _ (compressPending_inv b false h) (blockBytes_pos b.var)
  · next hne => exact key b h (Nat.lt_of_le_of_ne h.fill hne)

theorem blake2_absorb_inv (b : Blake2) (data : Bytes) (h : b.Inv) : (b.absorb data).Inv := by
  induction data generalizing b with
  | nil => exact h
  | cons d ds ih => exact ih _ (absorbByte_inv b d h)

theorem hashLengthsOk_iff (var : Variant) (kn ol : Nat) :
    hashLengthsOk var kn ol = true ↔ kn ≤ var.maxLen ∧ 1 ≤ ol ∧ ol ≤ var.maxLen := by
  simp [hashLengthsOk, and_assoc]

/-- The parameter word of a session is below 2^w. -/
theorem parameterWord_lt (kn ol : Nat) (hk : kn ≤ 64) (ho : ol ≤ 64) : 0x01010000 ||| kn <<< 8 ||| ol < 2 ^ 32 := by
  refine Nat.or_lt_two_pow (Nat.or_lt_two_pow (by decide) ?_) (by omega)
  rw [Nat.shiftLeft_eq]; omega

theorem blake2_init_inv (b : Blake2) (var : Variant) (key : Bytes) (ol : Nat)
    (hl : hashLengthsOk var key.length ol = true) : (b.init var key ol).Inv := by
  obtain ⟨hk, ho1, ho⟩ := (hashLengthsOk_iff ..).mp hl
  have hmax : var.maxLen ≤ 64 := by cases var <;> decide
  have hw : Fits var (var.iv.set 0 (var.iv.get 0 ^^^ BitVec.ofNat 64 (0x01010000 ||| key.length <<< 8 ||| ol))) := by
    refine (iv_fits var).set 0 _ (xor_width_lt var _ _ (iv_fits var 0) (ofNat_fits var _ ?_))
    refine Nat.lt_of_lt_of_le (parameterWord_lt key.length ol (by omega) (by omega)) ?_
    cases var <;> decide
  simp only [Blake2.init]
  split
  · exact
      { fill := Nat.zero_le _
        words := hw
        counter := Nat.two_pow_pos _
        outlen := ho
        activeLen := fun _ => ho1
        first := fun hc => by simp at hc }
  · have hb : (BitVec.ofNat 128 var.blockBytes).toNat = var.blockBytes := by cases var <;> rfl
    exact
      { fill := le_refl _
        words := hw
        counter := by rw [hb]; exact blockBytes_lt_pow var
        outlen := ho
        activeLen := fun _ => ho1
        first := fun _ => ⟨rfl, rfl, hb⟩ }

theorem padded_inv (b : Blake2) (h : b.Inv) : b.padded.Inv := by
  constructor
  · simpa only [padded_fill, padded_var] using h.fill
  · simpa only [padded_h, padded_var] using h.words
  · simpa only [padded_t, padded_var] using h.counter
  · simpa only [padded_outlen, padded_var] using h.outlen
  · simpa only [padded_outlen, padded_phase] using h.activeLen
  · simpa only [padded_cfb, padded_phase, padded_fill, padded_var, padded_t] using h.first

theorem blake2_finish_inv (b : Blake2) (h : b.Inv) : b.finish.Inv := by
  have h' := compressPending_inv b.padded true (padded_inv b h)
  generalize hc : b.padded.compressPending true = c at h'
  have hf : b.finish = { c with phase := .done } := by rw [← hc, Blake2.finish]
  rw [hf]
  have hcfb : c.cfb = false := by rw [← hc]; rfl
  exact
    { fill := h'.fill
      words := h'.words
      counter := h'.counter
      outlen := h'.outlen
      activeLen := fun hp => by simp at hp
      first := fun hp => by rw [hcfb] at hp; simp at hp }

/-- A digest has the requested length. -/
theorem length_digest (b : Blake2) (h : b.outlen ≤ b.var.maxLen) : b.digest.length = b.outlen := by
  have hlen : (b.h.toList.flatMap fun word => toLe word.toNat (b.var.width / 8)).length = 8 * (b.var.width / 8) := by
    rw [List.length_flatMap]
    simp; omega
  rw [Blake2.digest, List.length_take, hlen]
  refine Nat.min_eq_left (Nat.le_trans h ?_)
  cases b.var <;> decide

theorem length_blake2Hash (var : Variant) (key : Bytes) (ol : Nat) (msg : Bytes) (h : ol ≤ var.maxLen) :
    (blake2Hash var key ol msg).length = ol := by
  have ho : ∀ b : Blake2, (b.init var key ol).outlen = ol := fun b => by simp only [Blake2.init]; split <;> rfl
  have hv : ∀ b : Blake2, (b.init var key ol).var = var := fun b => by simp only [Blake2.init]; split <;> rfl
  rw [blake2Hash, length_digest]
  · rw [finish_outlen, absorb_outlen, ho]
  · rw [finish_outlen, absorb_outlen, ho, finish_var, absorb_var, hv]; exact h

end Sys2Proof.Machine
end

