-- ==== Sys2Proof/Laws/Blake2Session.lean ====
section
/-! SUPPORT. What a BLAKE2 session holds of the input it has taken, said once for the start and for every byte
(spec/10_state.md R30; spec/41_blake2.md R142, R143, R150). -/

namespace Sys2Proof.Machine

/-- The state words after the first `c` blocks of an input, none of them the last one (41_blake2.md R149, R150). -/
def hashedBlocks (var : Variant) (h0 : Vector Word 8) (input : Bytes) (c : Nat) : Vector Word 8 :=
  (List.range c).foldl (fun h i => compress var h (hashBlock var input i)
    (BitVec.ofNat 128 ((i + 1) * var.blockBytes % 2 ^ (2 * var.width))) false) h0

/-- How many blocks of `n` bytes of input have been compressed: all but the block that the latest byte is in, which waits
(41_blake2.md R143). -/
def compressedBlocks (var : Variant) (n : Nat) : Nat := (n - 1) / var.blockBytes

/-- A session that started from the state words `h0` has taken the bytes `input`, a key block among them: the blocks before
the waiting one are compressed and counted, the buffer begins with the rest (10_state.md R30; 41_blake2.md R143, R150). -/
structure Absorbed (var : Variant) (h0 : Vector Word 8) (input : Bytes) (b : Blake2) : Prop where
  variant : b.var = var
  h : b.h = hashedBlocks var h0 input (compressedBlocks var input.length)
  fill : b.fill = input.length - compressedBlocks var input.length * var.blockBytes
  buf : b.buf.toList.take b.fill = input.drop (compressedBlocks var input.length * var.blockBytes)
  counted : b.cfb = false → b.t.toNat = compressedBlocks var input.length * var.blockBytes % 2 ^ (2 * var.width)
  first : b.cfb = true → b.t.toNat = var.blockBytes ∧ input.length = var.blockBytes

/-- More input leaves a whole block as it is. -/
theorem hashBlock_append (var : Variant) (a b : Bytes) (i : Nat) (h : (i + 1) * var.blockBytes ≤ a.length) :
    hashBlock var (a ++ b) i = hashBlock var a i := by
  have : i * var.blockBytes + var.blockBytes ≤ a.length := by rw [← Nat.succ_mul]; exact h
  have hs : slice (a ++ b) (i * var.blockBytes) ((i + 1) * var.blockBytes)
      = slice a (i * var.blockBytes) ((i + 1) * var.blockBytes) := by
    rw [slice, slice, List.drop_append_of_le_length (by omega), List.take_append_of_le_length]
    rw [List.length_drop, Nat.succ_mul]; omega
  simp only [hashBlock, hs]

@[simp] theorem hashedBlocks_zero (var : Variant) (h0 : Vector Word 8) (input : Bytes) : hashedBlocks var h0 input 0 = h0 := by
  rw [hashedBlocks, List.range_zero, List.foldl_nil]

theorem hashedBlocks_succ (var : Variant) (h0 : Vector Word 8) (input : Bytes) (c : Nat) :
    hashedBlocks var h0 input (c + 1) = compress var (hashedBlocks var h0 input c) (hashBlock var input c)
      (BitVec.ofNat 128 ((c + 1) * var.blockBytes % 2 ^ (2 * var.width))) false := by
  rw [hashedBlocks, List.range_succ, List.foldl_append, List.foldl_cons, List.foldl_nil, ← hashedBlocks]

/-- More input leaves the blocks compressed before as they are. -/
theorem hashedBlocks_append (var : Variant) (h0 : Vector Word 8) (a b : Bytes) (c : Nat) (h : c * var.blockBytes ≤ a.length) :
    hashedBlocks var h0 (a ++ b) c = hashedBlocks var h0 a c := by
  induction c with
  | zero => rw [hashedBlocks_zero, hashedBlocks_zero]
  | succ c ih =>
    have : (c + 1) * var.blockBytes = c * var.blockBytes + var.blockBytes := Nat.succ_mul ..
    rw [hashedBlocks_succ, hashedBlocks_succ, ih (by omega), hashBlock_append var a b c h]

theorem compressedBlocks_mul_le (var : Variant) (n : Nat) : compressedBlocks var n * var.blockBytes ≤ n :=
  Nat.le_trans (Nat.div_mul_le_self ..) (Nat.sub_le ..)

/-- The waiting block holds at most one block's bytes. -/
theorem le_compressedBlocks (var : Variant) (n : Nat) : n ≤ compressedBlocks var n * var.blockBytes + var.blockBytes := by
  have h := Nat.lt_div_mul_add (a := n - 1) (blockBytes_pos var)
  rw [compressedBlocks]; omega

theorem compressedBlocks_eq (var : Variant) (n c : Nat) (h : c * var.blockBytes < n)
    (h' : n ≤ c * var.blockBytes + var.blockBytes) :
    compressedBlocks var n = c := by
  rw [compressedBlocks]
  exact Nat.div_eq_of_lt_le (by omega) (by rw [Nat.succ_mul]; omega)

/-- A full waiting block is the rest of the input. -/
theorem hashBlock_of_waiting (var : Variant) (input : Bytes) (c : Nat)
    (h : input.length = c * var.blockBytes + var.blockBytes) :
    hashBlock var input c = input.drop (c * var.blockBytes) := by
  have hs : slice input (c * var.blockBytes) ((c + 1) * var.blockBytes) = input.drop (c * var.blockBytes) := by
    rw [slice, List.take_of_length_le]
    rw [List.length_drop, Nat.succ_mul]; omega
  have hl : (input.drop (c * var.blockBytes)).length = var.blockBytes := by rw [List.length_drop]; omega
  simp only [hashBlock, hs, hl, Nat.sub_self, zeros, List.replicate_zero, List.append_nil]

theorem take_setIfInBounds {n : Nat} (v : Vector Byte n) (k : Nat) (d : Byte) (h : k < n) :
    (v.setIfInBounds k d).toList.take (k + 1) = v.toList.take k ++ [d] := by
  apply List.ext_getElem
  · simp; omega
  · intro i h1 h2
    simp only [List.getElem_take, List.getElem_append, Vector.getElem_toList, Vector.getElem_setIfInBounds]
    simp at h1 h2
    by_cases hi : i < k
    · rw [dif_pos (by simp; omega)]; rw [if_neg (by omega)]
    · have : i = k := by omega
      subst this
      rw [dif_neg (by simp)]; simp

/-- One byte more is taken (41_blake2.md R143). -/
theorem Absorbed.absorbByte {var : Variant} {h0 : Vector Word 8} {input : Bytes} {b : Blake2} (a : Absorbed var h0 input b)
    (d : Byte) : Absorbed var h0 (input ++ [d]) (b.absorbByte d) := by
  obtain ⟨hv, hh, hf, hb, hc, hcf⟩ := a
  subst hv
  have hle := compressedBlocks_mul_le b.var input.length
  have hge := le_compressedBlocks b.var input.length
  have hbb := blockBytes_le b.var
  have hpos := blockBytes_pos b.var
  generalize hcv : compressedBlocks b.var input.length = c at *
  have hlen : (input ++ [d]).length = input.length + 1 := by simp
  by_cases hfull : b.fill = b.var.blockBytes
  · have hin : input.length = c * b.var.blockBytes + b.var.blockBytes := by omega
    have hsucc : (c + 1) * b.var.blockBytes = c * b.var.blockBytes + b.var.blockBytes := Nat.succ_mul ..
    have hc' : compressedBlocks b.var (input ++ [d]).length = c + 1 :=
      compressedBlocks_eq _ _ _ (by omega) (by omega)
    have ht : (b.compressPending false).t.toNat = (c + 1) * b.var.blockBytes % 2 ^ (2 * b.var.width) := by
      simp only [Blake2.compressPending]
      have hlt : (c + 1) * b.var.blockBytes % 2 ^ (2 * b.var.width) < 2 ^ 128 :=
        Nat.lt_of_lt_of_le (Nat.mod_lt _ (Nat.two_pow_pos _))
          (Nat.pow_le_pow_right (by decide) (by have := width_le b.var; omega))
      cases hcfb : b.cfb with
      | true =>
        obtain ⟨h1, h2⟩ := hcf hcfb
        have h0' : (c + 1) * b.var.blockBytes = b.var.blockBytes := by omega
        rw [if_pos rfl, h1, h0', Nat.mod_eq_of_lt (blockBytes_lt_pow b.var)]
      | false =>
        rw [if_neg (by simp), hc hcfb, hfull, Nat.mod_add_mod, ← Nat.succ_mul, BitVec.toNat_ofNat]
        exact Nat.mod_eq_of_lt hlt
    have hh' : (b.compressPending false).h = hashedBlocks b.var h0 (input ++ [d]) (c + 1) := by
      rw [hashedBlocks_append _ _ _ _ _ (by omega)]
      rw [hashedBlocks_succ, hashBlock_of_waiting _ _ _ hin, ← hb, hfull, ← hh, ← ht]
      simp only [Blake2.compressPending, BitVec.ofNat_toNat, BitVec.setWidth_eq]
    simp only [Blake2.absorbByte, if_pos hfull]
    refine ⟨rfl, by rw [hc']; exact hh', ?_, ?_, ?_, ?_⟩
    · rw [hc']; simp only [compressPending_fill]; omega
    · rw [hc']; simp only [compressPending_fill, compressPending_buf]
      rw [take_setIfInBounds _ _ _ (by omega), List.take_zero, List.nil_append, hsucc, ← hin,
        List.drop_append_of_le_length (by omega), List.drop_length, List.nil_append]
    · intro _; rw [hc']; exact ht
    · intro hcfb; simp at hcfb
  · have hlt : b.fill < b.var.blockBytes := by omega
    have hc' : compressedBlocks b.var (input ++ [d]).length = c :=
      compressedBlocks_eq _ _ _ (by omega) (by omega)
    simp only [Blake2.absorbByte, if_neg hfull]
    refine ⟨rfl, ?_, ?_, ?_, ?_, ?_⟩
    · rw [hc', hashedBlocks_append _ _ _ _ _ hle]; exact hh
    · rw [hc', hlen]; show b.fill + 1 = _; omega
    · rw [hc']
      rw [take_setIfInBounds _ _ _ (by omega), hb, List.drop_append_of_le_length hle]
    · rw [hc']; exact hc
    · intro hcfb
      have := hcf hcfb
      have h0' : c = 0 := by
        rw [← hcv, this.2, compressedBlocks]
        exact Nat.div_eq_of_lt (by omega)
      subst h0'; omega

/-- A byte string is taken (41_blake2.md R143). -/
theorem Absorbed.absorb {var : Variant} {h0 : Vector Word 8} {input : Bytes} {b : Blake2} (a : Absorbed var h0 input b)
    (data : Bytes) : Absorbed var h0 (input ++ data) (b.absorb data) := by
  induction data generalizing input b with
  | nil => rw [List.append_nil]; exact a
  | cons d ds ih => rw [List.append_cons]; exact ih (a.absorbByte d)

/-- A new session has taken its padded key, or nothing (41_blake2.md R142). -/
theorem absorbed_init (old : Blake2) (var : Variant) (key : Bytes) (ol : Nat) (hk : key.length ≤ var.maxLen) :
    Absorbed var (var.iv.set 0 (var.iv.get 0 ^^^ BitVec.ofNat 64 (0x01010000 ||| key.length <<< 8 ||| ol)))
      (if key = [] then [] else key ++ zeros (var.blockBytes - key.length)) (old.init var key ol) := by
  have hm := maxLen_lt_blockBytes var
  have hbb := blockBytes_le var
  by_cases h : key = []
  · subst h
    exact ⟨rfl, by simp [Blake2.init, compressedBlocks], by simp [Blake2.init], by simp [Blake2.init],
      fun _ => by simp [Blake2.init, compressedBlocks], fun hc => by simp [Blake2.init] at hc⟩
  · have hl : (key ++ zeros (var.blockBytes - key.length)).length = var.blockBytes := by simp; omega
    have hc : compressedBlocks var var.blockBytes = 0 := Nat.div_eq_of_lt (by have := blockBytes_pos var; omega)
    have hne : ¬ key.length = 0 := by simpa using h
    simp only [Blake2.init, if_neg hne, if_neg h]
    refine ⟨rfl, ?_, ?_, ?_, fun hcfb => by simp at hcfb, fun _ => ⟨?_, hl⟩⟩
    · rw [hl, hc]; rfl
    · rw [hl, hc]; simp
    · rw [hl, hc]
      apply List.ext_getElem
      · rw [Nat.zero_mul, List.drop_zero, hl, List.length_take, Vector.length_toList]; exact Nat.min_eq_left hbb
      · intro i h1 h2
        simp only [Nat.zero_mul, List.drop_zero] at h2 ⊢
        simp only [ List.getElem_take, Vector.getElem_toList, overwrite, Vector.getElem_ofFn]
        rw [List.getD_eq_getElem?_getD, List.getElem?_eq_getElem h2, Option.getD_some]
    · cases var <;> rfl

end Sys2Proof.Machine
end

