-- ==== Sys2Proof/Laws/Decode.lean ====
section
/-! SUPPORT. The fields of an encoded word (spec/30_encoding.md R91, R92), so that no proof about decoding unfolds a word. -/

namespace Sys2Proof

section
variable (opc : Nat) (ra rb rc : Reg) (imm8 : BitVec 8) (imm20 : BitVec 20) (h : opc < 256)

theorem toNat_formatR :
    opc < 256 → (formatR opc ra rb rc imm8).toNat
      = opc * 2 ^ 24 + ra.val * 2 ^ 20 + rb.val * 2 ^ 16 + rc.val * 2 ^ 12 + imm8.toNat := by
  intro h
  have := ra.isLt; have := rb.isLt; have := rc.isLt; have := imm8.isLt
  rw [formatR, BitVec.toNat_ofNat, Nat.mod_eq_of_lt (by omega)]

theorem toNat_formatI : opc < 256 → (formatI opc ra imm20).toNat = opc * 2 ^ 24 + ra.val * 2 ^ 20 + imm20.toNat := by
  intro h
  have := ra.isLt; have := imm20.isLt
  rw [formatI, BitVec.toNat_ofNat, Nat.mod_eq_of_lt (by omega)]

include h

theorem opc_formatR : bits (formatR opc ra rb rc imm8) 31 24 = opc := by
  have := ra.isLt; have := rb.isLt; have := rc.isLt; have := imm8.isLt
  rw [bits, toNat_formatR _ _ _ _ _ h]; omega

theorem opc_formatI : bits (formatI opc ra imm20) 31 24 = opc := by
  have := ra.isLt; have := imm20.isLt
  rw [bits, toNat_formatI _ _ _ h]; omega

theorem fieldA_formatR : fieldA (formatR opc ra rb rc imm8) = ra := by
  have := ra.isLt; have := rb.isLt; have := rc.isLt; have := imm8.isLt
  apply Fin.ext
  simp only [fieldA, regField, toNat_formatR _ _ _ _ _ h]; omega

theorem fieldB_formatR : fieldB (formatR opc ra rb rc imm8) = rb := by
  have := ra.isLt; have := rb.isLt; have := rc.isLt; have := imm8.isLt
  apply Fin.ext
  simp only [fieldB, regField, toNat_formatR _ _ _ _ _ h]; omega

theorem fieldC_formatR : fieldC (formatR opc ra rb rc imm8) = rc := by
  have := ra.isLt; have := rb.isLt; have := rc.isLt; have := imm8.isLt
  apply Fin.ext
  simp only [fieldC, regField, toNat_formatR _ _ _ _ _ h]; omega

theorem fieldImm8_formatR : fieldImm8 (formatR opc ra rb rc imm8) = imm8 := by
  have := ra.isLt; have := rb.isLt; have := rc.isLt; have := imm8.isLt
  apply BitVec.eq_of_toNat_eq
  simp only [fieldImm8, bits, BitVec.toNat_ofNat, toNat_formatR _ _ _ _ _ h]; omega

theorem fieldA_formatI : fieldA (formatI opc ra imm20) = ra := by
  have := ra.isLt; have := imm20.isLt
  apply Fin.ext
  simp only [fieldA, regField, toNat_formatI _ _ _ h]; omega

theorem fieldImm20_formatI : fieldImm20 (formatI opc ra imm20) = imm20 := by
  have := ra.isLt; have := imm20.isLt
  apply BitVec.eq_of_toNat_eq
  simp only [fieldImm20, bits, BitVec.toNat_ofNat, toNat_formatI _ _ _ h]; omega

/-- Every row of the table decodes its own words: the must-be-zero field of each form. -/
theorem rowNone_formatR (c : Instr) : rowNone (formatR opc 0 0 0 0) c = .ok c := by
  simp only [rowNone, mustBeZero, bits, toNat_formatR _ _ _ _ _ h]
  rw [if_pos (by simp)]

theorem rowA_formatR (c : Reg → Instr) : rowA (formatR opc ra 0 0 0) c = .ok (c ra) := by
  have := ra.isLt
  simp only [rowA, mustBeZero, bits, fieldA_formatR _ _ _ _ _ h, toNat_formatR _ _ _ _ _ h]
  rw [if_pos (by simp; omega)]

theorem rowAB_formatR (c : Reg → Reg → Instr) : rowAB (formatR opc ra rb 0 0) c = .ok (c ra rb) := by
  have := ra.isLt; have := rb.isLt
  simp only [rowAB, mustBeZero, bits, fieldA_formatR _ _ _ _ _ h, fieldB_formatR _ _ _ _ _ h, toNat_formatR _ _ _ _ _ h]
  rw [if_pos (by simp; omega)]

theorem rowABC_formatR (c : Reg → Reg → Reg → Instr) : rowABC (formatR opc ra rb rc 0) c = .ok (c ra rb rc) := by
  have := ra.isLt; have := rb.isLt; have := rc.isLt
  simp only [rowABC, mustBeZero, bits, fieldA_formatR _ _ _ _ _ h, fieldB_formatR _ _ _ _ _ h,
    fieldC_formatR _ _ _ _ _ h, toNat_formatR _ _ _ _ _ h]
  rw [if_pos (by simp; omega)]

theorem rowRdsr_formatR (hi : statusNumberOk imm8 = true) :
    rowRdsr (formatR opc ra 0 0 imm8) = .ok (.rdsr ra imm8) := by
  have := ra.isLt; have := imm8.isLt
  simp only [rowRdsr, mustBeZero, bits, fieldA_formatR _ _ _ _ _ h, fieldImm8_formatR _ _ _ _ _ h,
    toNat_formatR _ _ _ _ _ h]
  rw [if_pos (by simp; omega), immediateInRange]
  simp only [Instr.wellFormed, hi, if_true]

theorem rowKdfCfg_formatR (hi : variantNumberOk imm8 = true) :
    rowKdfCfg (formatR opc ra rb 0 imm8) = .ok (.kdfCfg ra rb imm8) := by
  have := ra.isLt; have := rb.isLt; have := imm8.isLt
  simp only [rowKdfCfg, mustBeZero, bits, fieldA_formatR _ _ _ _ _ h, fieldB_formatR _ _ _ _ _ h,
    fieldImm8_formatR _ _ _ _ _ h, toNat_formatR _ _ _ _ _ h]
  rw [if_pos (by simp; omega), immediateInRange]
  simp only [Instr.wellFormed, hi, if_true]

end

/-! ## From a word to its command -/

section
variable {w : Word32} {opc : Nat} {i : Instr} (ho : bits w 31 24 = opc)
include ho

theorem opc_lt : opc < 256 := by
  have := w.isLt
  rw [← ho, bits]; omega

/-- A word is put together from its fields. -/
theorem formatR_fields (hz : bits w 11 8 = 0) : formatR opc (fieldA w) (fieldB w) (fieldC w) (fieldImm8 w) = w := by
  have := w.isLt
  have hl := opc_lt ho
  apply BitVec.eq_of_toNat_eq
  rw [toNat_formatR _ _ _ _ _ hl]
  simp only [fieldA, fieldB, fieldC, fieldImm8, regField, BitVec.toNat_ofNat]
  simp only [bits] at *
  omega

theorem formatI_fields : formatI opc (fieldA w) (fieldImm20 w) = w := by
  have := w.isLt
  have hl := opc_lt ho
  apply BitVec.eq_of_toNat_eq
  rw [toNat_formatI _ _ _ hl]
  simp only [fieldA, fieldImm20, regField, BitVec.toNat_ofNat]
  simp only [bits] at *
  omega

theorem rowNone_ok {c : Instr} (h : rowNone w c = .ok i) : i = c ∧ formatR opc 0 0 0 0 = w := by
  simp only [rowNone, mustBeZero] at h
  split at h
  · next hz =>
    refine ⟨by simpa using h.symm, ?_⟩
    have := w.isLt
    have hl := opc_lt ho
    apply BitVec.eq_of_toNat_eq
    rw [toNat_formatR _ _ _ _ _ hl]
    simp [bits] at *
    omega
  · simp at h

theorem rowA_ok {c : Reg → Instr} (h : rowA w c = .ok i) : i = c (fieldA w) ∧ formatR opc (fieldA w) 0 0 0 = w := by
  simp only [rowA, mustBeZero] at h
  split at h
  · next hz =>
    refine ⟨by simpa using h.symm, ?_⟩
    have := w.isLt
    have hl := opc_lt ho
    apply BitVec.eq_of_toNat_eq
    rw [toNat_formatR _ _ _ _ _ hl]
    simp [bits, fieldA, regField] at *
    omega
  · simp at h

theorem rowAB_ok {c : Reg → Reg → Instr} (h : rowAB w c = .ok i) :
    i = c (fieldA w) (fieldB w) ∧ formatR opc (fieldA w) (fieldB w) 0 0 = w := by
  simp only [rowAB, mustBeZero] at h
  split at h
  · next hz =>
    refine ⟨by simpa using h.symm, ?_⟩
    have := w.isLt
    have hl := opc_lt ho
    apply BitVec.eq_of_toNat_eq
    rw [toNat_formatR _ _ _ _ _ hl]
    simp [bits, fieldA, fieldB, regField] at *
    omega
  · simp at h

theorem rowABC_ok {c : Reg → Reg → Reg → Instr} (h : rowABC w c = .ok i) :
    i = c (fieldA w) (fieldB w) (fieldC w) ∧ formatR opc (fieldA w) (fieldB w) (fieldC w) 0 = w := by
  simp only [rowABC, mustBeZero] at h
  split at h
  · next hz =>
    refine ⟨by simpa using h.symm, ?_⟩
    have := w.isLt
    have hl := opc_lt ho
    apply BitVec.eq_of_toNat_eq
    rw [toNat_formatR _ _ _ _ _ hl]
    simp [bits, fieldA, fieldB, fieldC, regField] at *
    omega
  · simp at h

theorem rowRdsr_ok (h : rowRdsr w = .ok i) :
    i = .rdsr (fieldA w) (fieldImm8 w) ∧ statusNumberOk (fieldImm8 w) = true ∧ formatR opc (fieldA w) 0 0 (fieldImm8 w) = w := by
  simp only [rowRdsr, mustBeZero] at h
  split at h
  · next hz =>
    by_cases hi : statusNumberOk (fieldImm8 w) = true
    · simp only [immediateInRange, Instr.wellFormed, hi, if_true] at h
      refine ⟨by simpa using h.symm, hi, ?_⟩
      have := w.isLt
      have hl := opc_lt ho
      apply BitVec.eq_of_toNat_eq
      rw [toNat_formatR _ _ _ _ _ hl]
      simp [bits, fieldA, fieldImm8, regField] at *
      omega
    · simp only [immediateInRange, Instr.wellFormed, hi] at h
      simp at h
  · simp [immediateInRange] at h

theorem rowKdfCfg_ok (h : rowKdfCfg w = .ok i) :
    i = .kdfCfg (fieldA w) (fieldB w) (fieldImm8 w) ∧ variantNumberOk (fieldImm8 w) = true
      ∧ formatR opc (fieldA w) (fieldB w) 0 (fieldImm8 w) = w := by
  simp only [rowKdfCfg, mustBeZero] at h
  split at h
  · next hz =>
    by_cases hi : variantNumberOk (fieldImm8 w) = true
    · simp only [immediateInRange, Instr.wellFormed, hi, if_true] at h
      refine ⟨by simpa using h.symm, hi, ?_⟩
      have := w.isLt
      have hl := opc_lt ho
      apply BitVec.eq_of_toNat_eq
      rw [toNat_formatR _ _ _ _ _ hl]
      simp [bits, fieldA, fieldB, fieldImm8, regField] at *
      omega
    · simp only [immediateInRange, Instr.wellFormed, hi] at h
      simp at h
  · simp [immediateInRange] at h

end

end Sys2Proof
end

