-- ==== Sys2Proof/Laws/State.lean ====
section
/-! SUPPORT. The small lemmas of State: one per field per shared update, true by rfl, so that no proof unfolds an update; and what
the accessors read after an update. -/

namespace Sys2Proof.Machine

/-! ## setX -/

section
variable (s : State) (r : Reg) (v : Word)
@[simp] theorem setX_cfg : (s.setX r v).cfg = s.cfg := rfl
@[simp] theorem setX_x : (s.setX r v).x = s.x.set r v := rfl
@[simp] theorem setX_errflags : (s.setX r v).errflags = s.errflags := rfl
@[simp] theorem setX_lasterr : (s.setX r v).lasterr = s.lasterr := rfl
@[simp] theorem setX_lastcmd : (s.setX r v).lastcmd = s.lastcmd := rfl
@[simp] theorem setX_cmdcnt : (s.setX r v).cmdcnt = s.cmdcnt := rfl
@[simp] theorem setX_status : (s.setX r v).status = s.status := rfl
@[simp] theorem setX_b2 : (s.setX r v).b2 = s.b2 := rfl
@[simp] theorem setX_cc : (s.setX r v).cc = s.cc := rfl
@[simp] theorem setX_p13 : (s.setX r v).p13 = s.p13 := rfl
@[simp] theorem setX_aead : (s.setX r v).aead = s.aead := rfl
@[simp] theorem setX_kdf : (s.setX r v).kdf = s.kdf := rfl
@[simp] theorem setX_pcg : (s.setX r v).pcg = s.pcg := rfl
@[simp] theorem setX_buf : (s.setX r v).buf = s.buf := rfl
@[simp] theorem setX_resets : (s.setX r v).resets = s.resets := rfl
@[simp] theorem setX_port : (s.setX r v).port = s.port := rfl
end

/-! ## setXNat -/

section
variable (s : State) (r : Reg) (v : Nat)
@[simp] theorem setXNat_cfg : (s.setXNat r v).cfg = s.cfg := rfl
@[simp] theorem setXNat_x : (s.setXNat r v).x = s.x.set r (BitVec.ofNat 64 v) := rfl
@[simp] theorem setXNat_errflags : (s.setXNat r v).errflags = s.errflags := rfl
@[simp] theorem setXNat_lasterr : (s.setXNat r v).lasterr = s.lasterr := rfl
@[simp] theorem setXNat_lastcmd : (s.setXNat r v).lastcmd = s.lastcmd := rfl
@[simp] theorem setXNat_cmdcnt : (s.setXNat r v).cmdcnt = s.cmdcnt := rfl
@[simp] theorem setXNat_status : (s.setXNat r v).status = s.status := rfl
@[simp] theorem setXNat_b2 : (s.setXNat r v).b2 = s.b2 := rfl
@[simp] theorem setXNat_cc : (s.setXNat r v).cc = s.cc := rfl
@[simp] theorem setXNat_p13 : (s.setXNat r v).p13 = s.p13 := rfl
@[simp] theorem setXNat_aead : (s.setXNat r v).aead = s.aead := rfl
@[simp] theorem setXNat_kdf : (s.setXNat r v).kdf = s.kdf := rfl
@[simp] theorem setXNat_pcg : (s.setXNat r v).pcg = s.pcg := rfl
@[simp] theorem setXNat_buf : (s.setXNat r v).buf = s.buf := rfl
@[simp] theorem setXNat_resets : (s.setXNat r v).resets = s.resets := rfl
@[simp] theorem setXNat_port : (s.setXNat r v).port = s.port := rfl
end

/-! ## memWrite -/

section
variable (s : State) (a : Nat) (v : Bytes)
@[simp] theorem memWrite_cfg : (s.memWrite a v).cfg = s.cfg := rfl
@[simp] theorem memWrite_x : (s.memWrite a v).x = s.x := rfl
@[simp] theorem memWrite_errflags : (s.memWrite a v).errflags = s.errflags := rfl
@[simp] theorem memWrite_lasterr : (s.memWrite a v).lasterr = s.lasterr := rfl
@[simp] theorem memWrite_lastcmd : (s.memWrite a v).lastcmd = s.lastcmd := rfl
@[simp] theorem memWrite_cmdcnt : (s.memWrite a v).cmdcnt = s.cmdcnt := rfl
@[simp] theorem memWrite_status : (s.memWrite a v).status = s.status := rfl
@[simp] theorem memWrite_b2 : (s.memWrite a v).b2 = s.b2 := rfl
@[simp] theorem memWrite_cc : (s.memWrite a v).cc = s.cc := rfl
@[simp] theorem memWrite_p13 : (s.memWrite a v).p13 = s.p13 := rfl
@[simp] theorem memWrite_aead : (s.memWrite a v).aead = s.aead := rfl
@[simp] theorem memWrite_kdf : (s.memWrite a v).kdf = s.kdf := rfl
@[simp] theorem memWrite_pcg : (s.memWrite a v).pcg = s.pcg := rfl
@[simp] theorem memWrite_buf : (s.memWrite a v).buf = s.buf.putAll a v := rfl
@[simp] theorem memWrite_resets : (s.memWrite a v).resets = s.resets := rfl
@[simp] theorem memWrite_port : (s.memWrite a v).port = s.port := rfl
end

/-! ## retire -/

section
variable (s : State)
@[simp] theorem retire_cfg : s.retire.cfg = s.cfg := rfl
@[simp] theorem retire_x : s.retire.x = s.x := rfl
@[simp] theorem retire_errflags : s.retire.errflags = s.errflags := rfl
@[simp] theorem retire_lasterr : s.retire.lasterr = s.lasterr := rfl
@[simp] theorem retire_lastcmd : s.retire.lastcmd = s.lastcmd := rfl
@[simp] theorem retire_cmdcnt : s.retire.cmdcnt = s.cmdcnt + 1 := rfl
@[simp] theorem retire_status : s.retire.status = some .ok := rfl
@[simp] theorem retire_b2 : s.retire.b2 = s.b2 := rfl
@[simp] theorem retire_cc : s.retire.cc = s.cc := rfl
@[simp] theorem retire_p13 : s.retire.p13 = s.p13 := rfl
@[simp] theorem retire_aead : s.retire.aead = s.aead := rfl
@[simp] theorem retire_kdf : s.retire.kdf = s.kdf := rfl
@[simp] theorem retire_pcg : s.retire.pcg = s.pcg := rfl
@[simp] theorem retire_buf : s.retire.buf = s.buf := rfl
@[simp] theorem retire_resets : s.retire.resets = s.resets := rfl
@[simp] theorem retire_port : s.retire.port = s.port := rfl
end

/-! ## raise -/

section
variable (s : State) (w : Word32) (e : Error)
@[simp] theorem raise_cfg : (s.raise w e).cfg = s.cfg := rfl
@[simp] theorem raise_x : (s.raise w e).x = s.x := rfl
@[simp] theorem raise_errflags : (s.raise w e).errflags = s.errflags ||| e.flag := rfl
@[simp] theorem raise_lasterr : (s.raise w e).lasterr = e.record := rfl
@[simp] theorem raise_lastcmd : (s.raise w e).lastcmd = w.setWidth 64 := rfl
@[simp] theorem raise_cmdcnt : (s.raise w e).cmdcnt = s.cmdcnt + 1 := rfl
@[simp] theorem raise_status : (s.raise w e).status = some e.status := rfl
@[simp] theorem raise_b2 : (s.raise w e).b2 = s.b2 := rfl
@[simp] theorem raise_cc : (s.raise w e).cc = s.cc := rfl
@[simp] theorem raise_p13 : (s.raise w e).p13 = s.p13 := rfl
@[simp] theorem raise_aead : (s.raise w e).aead = s.aead := rfl
@[simp] theorem raise_kdf : (s.raise w e).kdf = s.kdf := rfl
@[simp] theorem raise_pcg : (s.raise w e).pcg = s.pcg := rfl
@[simp] theorem raise_buf : (s.raise w e).buf = s.buf := rfl
@[simp] theorem raise_resets : (s.raise w e).resets = s.resets := rfl
@[simp] theorem raise_port : (s.raise w e).port = s.port := rfl
end

/-! ## Reading registers -/

section
variable (s : State) (r q : Reg) (v : Word) (n a : Nat) (bs : Bytes) (w : Word32) (e : Error)
@[simp] theorem getX_setX_self : (s.setX r v).getX r = v := by
  simp only [State.getX, State.setX, Vector.get_eq_getElem, Vector.getElem_set_self]
theorem getX_setX_ne (h : q ≠ r) : (s.setX r v).getX q = s.getX q := by
  have h' : r.val ≠ q.val := fun h2 => h (Fin.ext h2.symm)
  simp only [State.getX, State.setX, Vector.get_eq_getElem]
  exact Vector.getElem_set_ne _ _ h'
theorem getX_setX : (s.setX r v).getX q = if q = r then v else s.getX q := by
  split
  · next h => rw [h, getX_setX_self]
  · next h => rw [getX_setX_ne s r q v h]
@[simp] theorem getX_setXNat_self : (s.setXNat r n).getX r = BitVec.ofNat 64 n := getX_setX_self ..
theorem getX_setXNat_ne (h : q ≠ r) : (s.setXNat r n).getX q = s.getX q := getX_setX_ne _ _ _ _ h
@[simp] theorem getX_memWrite : (s.memWrite a bs).getX r = s.getX r := rfl
@[simp] theorem getX_retire : s.retire.getX r = s.getX r := rfl
@[simp] theorem getX_raise : (s.raise w e).getX r = s.getX r := rfl
end

/-! ## Reading BUF -/

section
variable (s : State) (r : Reg) (v : Word) (n a k : Nat) (w : Word32) (e : Error)
@[simp] theorem readByte_setX : (s.setX r v).readByte a = s.readByte a := rfl
@[simp] theorem readByte_setXNat : (s.setXNat r n).readByte a = s.readByte a := rfl
@[simp] theorem readByte_retire : s.retire.readByte a = s.readByte a := rfl
@[simp] theorem readByte_raise : (s.raise w e).readByte a = s.readByte a := rfl
@[simp] theorem memRead_setX : (s.setX r v).memRead a k = s.memRead a k := rfl
@[simp] theorem memRead_setXNat : (s.setXNat r n).memRead a k = s.memRead a k := rfl
@[simp] theorem memRead_retire : s.retire.memRead a k = s.memRead a k := rfl
@[simp] theorem memRead_raise : (s.raise w e).memRead a k = s.memRead a k := rfl
@[simp] theorem length_memRead : (s.memRead a k).length = k := by simp [State.memRead]
end

end Sys2Proof.Machine
end

