-- ==== Sys2Proof/Laws/Memory.lean ====
section
/-! SUPPORT. BUF: a write is read back, leaves every other address alone, and keeps the canonical form (spec/20_memory.md R69). -/

namespace Sys2Proof.Machine

namespace Memory

theorem lookup_cons (k a : Nat) (b : Byte) (m : Memory) :
    Memory.lookup ((k, b) :: m) a = if k = a then some b else Memory.lookup m a := rfl

theorem lookup_put (m : Memory) (a b : Nat) (v : Byte) :
    (m.put a v).lookup b = if b = a then some v else m.lookup b := by
  induction m with
  | nil =>
    by_cases h : b = a
    · subst h; simp [put, lookup]
    · simp [put, lookup, h, Ne.symm h]
  | cons c m ih =>
    obtain ⟨k, x⟩ := c
    simp only [put]
    by_cases h1 : a < k
    · rw [if_pos h1, lookup_cons a b v]
      by_cases h : b = a
      · rw [if_pos h, if_pos h.symm]
      · rw [if_neg h, if_neg (Ne.symm h)]
    · rw [if_neg h1]
      by_cases h2 : a = k
      · subst h2
        rw [if_pos rfl, lookup_cons, lookup_cons]
        by_cases h : b = a
        · rw [if_pos h, if_pos h.symm]
        · rw [if_neg h, if_neg (Ne.symm h), if_neg (Ne.symm h)]
      · rw [if_neg h2, lookup_cons, lookup_cons, ih]
        by_cases h : k = b
        · rw [if_pos h, if_pos h, if_neg (by omega)]
        · rw [if_neg h, if_neg h]

/-- An address a cell of `m.put a v` has is `a` or one that a cell of `m` has. -/
theorem mem_put (m : Memory) (a : Nat) (v : Byte) : ∀ c ∈ m.put a v, c.1 = a ∨ ∃ d ∈ m, d.1 = c.1 := by
  induction m with
  | nil => intro c hc; simp [put] at hc; exact .inl (by rw [hc])
  | cons d m ih =>
    obtain ⟨k, x⟩ := d
    intro c hc
    simp only [put] at hc
    split at hc
    · rcases List.mem_cons.mp hc with rfl | hc
      · exact .inl rfl
      · exact .inr ⟨c, hc, rfl⟩
    · split at hc
      · rcases List.mem_cons.mp hc with rfl | hc
        · exact .inl rfl
        · exact .inr ⟨c, List.mem_cons_of_mem _ hc, rfl⟩
      · rcases List.mem_cons.mp hc with rfl | hc
        · exact .inr ⟨_, List.mem_cons_self, rfl⟩
        · rcases ih c hc with h | ⟨d, hd, h⟩
          · exact .inl h
          · exact .inr ⟨d, List.mem_cons_of_mem _ hd, h⟩

theorem put_wf (m : Memory) (a : Nat) (v : Byte) (h : m.wf) : (m.put a v).wf := by
  induction m with
  | nil => simp [put, wf]
  | cons c m ih =>
    obtain ⟨k, x⟩ := c
    have ⟨hk, h'⟩ := List.pairwise_cons.mp h
    simp only [put]
    split
    · next hlt =>
      refine List.pairwise_cons.mpr ⟨fun d hd => ?_, h⟩
      rcases List.mem_cons.mp hd with rfl | hd
      · exact hlt
      · exact Nat.lt_trans hlt (hk d hd)
    · split
      · next heq => subst heq; exact List.pairwise_cons.mpr ⟨hk, h'⟩
      · refine List.pairwise_cons.mpr ⟨fun d hd => ?_, ih h'⟩
        rcases mem_put m a v d hd with h1 | ⟨e, he, h1⟩
        · simp only; omega
        · rw [← h1]; exact hk e he

theorem putAll_wf (m : Memory) (a : Nat) (bs : Bytes) (h : m.wf) : (m.putAll a bs).wf := by
  induction bs generalizing m a with
  | nil => exact h
  | cons b bs ih => exact ih _ _ (put_wf m a b h)

theorem mem_putAll (m : Memory) (a : Nat) (bs : Bytes) :
    ∀ c ∈ m.putAll a bs, (a ≤ c.1 ∧ c.1 < a + bs.length) ∨ ∃ d ∈ m, d.1 = c.1 := by
  induction bs generalizing m a with
  | nil => intro c hc; exact .inr ⟨c, hc, rfl⟩
  | cons b bs ih =>
    intro c hc
    simp only [List.length_cons]
    rcases ih _ _ c hc with h | ⟨d, hd, h⟩
    · exact .inl (by omega)
    · rcases mem_put m a b d hd with h1 | ⟨e, he, h1⟩
      · exact .inl (by omega)
      · exact .inr ⟨e, he, h1.trans h⟩

theorem lookup_putAll (m : Memory) (a b : Nat) (bs : Bytes) :
    (m.putAll a bs).lookup b = if a ≤ b ∧ b < a + bs.length then bs[b - a]? else m.lookup b := by
  induction bs generalizing m a with
  | nil =>
    have : ¬(a ≤ b ∧ b < a + ([] : Bytes).length) := by simp
    rw [if_neg this]; rfl
  | cons v bs ih =>
    simp only [putAll, ih, lookup_put, List.length_cons]
    by_cases h1 : a + 1 ≤ b ∧ b < a + 1 + bs.length
    · rw [if_pos h1, if_pos (by omega)]
      obtain ⟨j, rfl⟩ : ∃ j, b = a + 1 + j := ⟨b - (a + 1), by omega⟩
      rw [show a + 1 + j - (a + 1) = j by omega, show a + 1 + j - a = j + 1 by omega, List.getElem?_cons_succ]
    · rw [if_neg h1]
      by_cases h2 : b = a
      · subst h2; simp
      · rw [if_neg h2, if_neg (by omega)]

/-- Two memories in canonical form that read the same, whatever the never-written bytes are taken to be, are the same list. -/
theorem wf_ext (m n : Memory) (hm : m.wf) (hn : n.wf) (h : ∀ a, m.lookup a = n.lookup a) : m = n := by
  induction m generalizing n with
  | nil =>
    cases n with
    | nil => rfl
    | cons c n => simpa [lookup] using h c.1
  | cons c m ih =>
    obtain ⟨k, x⟩ := c
    have ⟨hk, hm'⟩ := List.pairwise_cons.mp hm
    have none_below : ∀ (l : Memory) (j : Nat), (∀ d ∈ l, j < d.1) → l.lookup j = none := by
      intro l j hl
      induction l with
      | nil => rfl
      | cons d l ihl =>
        have := hl d List.mem_cons_self
        simp only [lookup, if_neg (show ¬d.1 = j by omega)]
        exact ihl fun e he => hl e (List.mem_cons_of_mem _ he)
    cases n with
    | nil => simpa [lookup] using h k
    | cons d n =>
      obtain ⟨j, y⟩ := d
      have ⟨hj, hn'⟩ := List.pairwise_cons.mp hn
      have hkj : k = j := by
        rcases Nat.lt_trichotomy k j with hlt | heq | hgt
        · have := h k
          rw [none_below ((j, y) :: n) k (by
            intro e he; rcases List.mem_cons.mp he with rfl | he
            · exact hlt
            · exact Nat.lt_trans hlt (hj e he))] at this
          simp [lookup] at this
        · exact heq
        · have := h j
          rw [none_below ((k, x) :: m) j (by
            intro e he; rcases List.mem_cons.mp he with rfl | he
            · exact hgt
            · exact Nat.lt_trans hgt (hk e he))] at this
          simp [lookup] at this
      subst hkj
      have hxy : x = y := by simpa [lookup] using h k
      subst hxy
      rw [ih n hm' hn' fun a => ?_]
      by_cases ha : k = a
      · subst ha; rw [none_below m k hk, none_below n k hj]
      · simpa [lookup, if_neg ha] using h a

end Memory

/-- A byte of BUF after a write: the byte of the string inside the region, the old byte outside. -/
theorem readByte_memWrite (s : State) (a b : Nat) (v : Bytes) :
    (s.memWrite a v).readByte b = if a ≤ b ∧ b < a + v.length then v.getD (b - a) 0 else s.readByte b := by
  simp only [State.readByte, memWrite_buf, memWrite_resets, Memory.lookup_putAll]
  by_cases hb : a ≤ b ∧ b < a + v.length
  · have hlt : b - a < v.length := by omega
    simp only [if_pos hb, List.getElem?_eq_getElem hlt, List.getD_eq_getElem _ _ hlt]
  · simp only [if_neg hb]

/-- A write leaves every byte outside its region alone. -/
theorem memWrite_keepsBufOutside (s : State) (a : Nat) (v : Bytes) (b : Nat)
    (hb : b < a ∨ a + v.length ≤ b) : (s.memWrite a v).readByte b = s.readByte b := by
  rw [readByte_memWrite s a b v, if_neg (by omega)]

/-- A write is read back. -/
theorem memRead_memWrite_self (s : State) (a : Nat) (v : Bytes) :
    (s.memWrite a v).memRead a v.length = v := by
  apply List.ext_getElem (by simp)
  intro i h1 h2
  simp only [State.memRead, List.getElem_map, List.getElem_range, readByte_memWrite]
  rw [if_pos (by omega)]
  simp [h2]

/-- A read disjoint from a write is unchanged by it. -/
theorem memRead_memWrite_disjoint (s : State) (a b n : Nat) (v : Bytes)
    (hd : b + n ≤ a ∨ a + v.length ≤ b) : (s.memWrite a v).memRead b n = s.memRead b n := by
  refine List.map_congr_left fun k hk => memWrite_keepsBufOutside s a v _ ?_
  have := List.mem_range.mp hk
  omega

/-- Equal bytes of a region read as the same string. -/
theorem memRead_congr (s t : State) (a n : Nat) (h : ∀ k < n, s.readByte (a + k) = t.readByte (a + k)) :
    s.memRead a n = t.memRead a n :=
  List.map_congr_left fun k hk => h k (List.mem_range.mp hk)

/-- A write inside BUF keeps the canonical form and the bounds of memory. -/
theorem memWrite_mem_bound (s : State) (a : Nat) (v : Bytes) (bound : Nat) (hs : ∀ c ∈ s.buf, c.1 < bound)
    (hv : v.length = 0 ∨ a + v.length ≤ bound) : ∀ c ∈ (s.memWrite a v).buf, c.1 < bound := by
  intro c hc
  rcases Memory.mem_putAll s.buf a v c hc with h | ⟨d, hd, h⟩
  · omega
  · rw [← h]; exact hs d hd

end Sys2Proof.Machine
end

