-- ==== Sys2Proof/Laws/Exec.lean ====
section
/-! SUPPORT. What executing a command can do, said once: it fails its first failing check and raises, or it has its effect and
completes (spec/60_exceptions.md R344, R345). Later proofs cite these and never unfold `exec` or `commit`. -/

namespace Sys2Proof.Machine

/-! ## The list of checks -/

theorem firstFailing_eq_none (cs : List Check) : firstFailing cs = none ↔ ∀ c ∈ cs, c.1 = true := by
  induction cs with
  | nil => simp [firstFailing]
  | cons c cs ih =>
    obtain ⟨ok, e⟩ := c
    cases ok <;> simp [firstFailing, ih]

theorem firstFailing_eq_some (cs : List Check) (e : Error) :
    firstFailing cs = some e ↔ ∃ pre post, cs = pre ++ (false, e) :: post ∧ ∀ c ∈ pre, c.1 = true := by
  induction cs with
  | nil => simp [firstFailing]
  | cons c cs ih =>
    obtain ⟨ok, d⟩ := c
    cases ok
    · simp only [firstFailing, Option.some.injEq]
      constructor
      · rintro rfl; exact ⟨[], cs, rfl, by simp⟩
      · rintro ⟨pre, post, h, hp⟩
        cases pre with
        | nil => simp at h; exact h.1
        | cons p pre =>
          have := hp p List.mem_cons_self
          rw [List.cons_append, List.cons.injEq] at h
          rw [← h.1] at this; simp at this
    · simp only [firstFailing, ih]
      constructor
      · rintro ⟨pre, post, rfl, hp⟩
        exact ⟨(true, d) :: pre, post, rfl, by simpa using hp⟩
      · rintro ⟨pre, post, h, hp⟩
        cases pre with
        | nil => simp at h
        | cons p pre =>
          rw [List.cons_append, List.cons.injEq] at h
          exact ⟨pre, post, h.2, fun c hc => hp c (List.mem_cons_of_mem _ hc)⟩

theorem accepts_iff (s : State) (i : Instr) : Accepts s i ↔ firstFailing (checksOf s i) = none :=
  (firstFailing_eq_none _).symm

/-- The checks of a command that accepts, one after another. -/
theorem accepts_cons (s : State) (i : Instr) (c : Check) (cs : List Check) (h : checksOf s i = c :: cs) :
    Accepts s i ↔ c.1 = true ∧ ∀ d ∈ cs, d.1 = true := by
  simp [Accepts, h]

/-! ## commit -/

theorem commit_ok {w : Word32} {cs : List Check} {f : State → State} {s : State} (h : firstFailing cs = none) :
    commit w cs f s = .next (f s).retire := by
  simp only [commit, h]

theorem commit_raise {w : Word32} {cs : List Check} {f : State → State} {s : State} {e : Error}
    (h : firstFailing cs = some e) : commit w cs f s = .next (s.raise w e) := by
  simp only [commit, h]

/-- Everything `commit` can answer. -/
theorem commit_cases {w : Word32} {cs : List Check} {f : State → State} {s t : State} (h : commit w cs f s = .next t) :
    (∃ e, firstFailing cs = some e ∧ t = s.raise w e) ∨ (firstFailing cs = none ∧ t = (f s).retire) := by
  cases hf : firstFailing cs with
  | some e =>
    rw [commit_raise hf] at h
    exact .inl ⟨e, rfl, by simpa using h.symm⟩
  | none =>
    rw [commit_ok hf] at h
    exact .inr ⟨rfl, by simpa using h.symm⟩

/-! ## exec -/

/-- The effect of a command that accepts. AEAD.DEC's is that of a verified message; PCG.RANGE's is that of a loop that ends. -/
def effectOf (i : Instr) (s : State) : State :=
  match i with
  | .nop => s
  | .ldi xa imm20 => ldiEffect xa imm20 s
  | .lds xa imm20 => ldsEffect xa imm20 s
  | .mov xa xb => movEffect xa xb s
  | .rdsr xa imm8 => rdsrEffect xa imm8 s
  | .clrerr => clrerrEffect s
  | .b2bInit sa xb => b2InitEffect .blake2b sa xb s
  | .b2sInit sa xb => b2InitEffect .blake2s sa xb s
  | .b2Update sa => b2UpdateEffect sa s
  | .b2Final xa => b2FinalEffect xa s
  | .cc20Init sa sb => cc20InitEffect sa sb s
  | .xcc20Init sa sb => xcc20InitEffect sa sb s
  | .ccXform xa sb xc => ccXformEffect xa sb xc s
  | .p13Init sa => p13InitEffect sa s
  | .p13Update sa => p13UpdateEffect sa s
  | .p13Final xa => p13FinalEffect xa s
  | .aeadInit sa sb sc => aeadInitEffect sa sb sc s
  | .aeadEnc xa sb sc => aeadEncEffect xa sb sc s
  | .aeadDec xa sb _ => aeadDecEffect xa sb s
  | .kdfCfg sa xb imm8 => kdfCfgEffect sa xb imm8 s
  | .pbkdf2 sa sb xc => pbkdf2Effect sa sb xc s
  | .hkdf sa sb => hkdfEffect sa sb s
  | .pcgSeed xa xb => pcgSeedEffect xa xb s
  | .pcgNext xa => pcgNextEffect xa s
  | .pcgRange xa xb xc =>
    match s.pcg.bounded (pcgBounds xb xc s).1 (pcgBounds xb xc s).2 with
    | some r => pcgRangeEffect xa r s
    | none => s
  | .pcgJump xa => pcgJumpEffect xa s
  | .pcgGets xa => pcgGetsEffect xa s
  | .rotl32 xa xb xc => rotl32Effect xa xb xc s
  | .rotr32 xa xb xc => rotr32Effect xa xb xc s
  | .rotl64 xa xb xc => rotl64Effect xa xb xc s
  | .rotr64 xa xb xc => rotr64Effect xa xb xc s
  | .lzcnt32 xa xb => lzcnt32Effect xa xb s
  | .lzcnt64 xa xb => lzcnt64Effect xa xb s
  | .tzcnt32 xa xb => tzcnt32Effect xa xb s
  | .tzcnt64 xa xb => tzcnt64Effect xa xb s
  | .popcnt32 xa xb => popcnt32Effect xa xb s
  | .popcnt64 xa xb => popcnt64Effect xa xb s
  | .log2f xa xb => log2fEffect xa xb s
  | .log2c xa xb => log2cEffect xa xb s
  | .ispow2 xa xb => ispow2Effect xa xb s
  | .gcd xa xb xc => gcdEffect xa xb xc s
  | .modinv xa xb => modinvEffect xa xb s
  | .cteq xa sb sc => cteqEffect xa sb sc s
  | .xorb xa sb sc => xorbEffect xa sb sc s

/-- Every command but AEAD.DEC and PCG.RANGE is its checks, then its effect. -/
theorem exec_eq_commit (i : Instr) (s : State) (hd : ∀ xa sb sc, i ≠ .aeadDec xa sb sc)
    (hr : ∀ xa xb xc, i ≠ .pcgRange xa xb xc) : exec i s = commit (encode i) (checksOf s i) (effectOf i) s := by
  cases i
  case pcgRange => exact absurd rfl (hr _ _ _)
  case aeadDec => exact absurd rfl (hd _ _ _)
  all_goals rfl

/-- A command with a failing check raises the first one's error. -/
theorem exec_raise {i : Instr} {s : State} {e : Error} (h : firstFailing (checksOf s i) = some e) :
    exec i s = .next (s.raise (encode i) e) := by
  cases i
  case pcgRange => simp [checksOf, firstFailing] at h
  case aeadDec =>
    simp only [exec, execAeadDec]
    simp only [checksOf] at h
    rw [h]
  all_goals exact commit_raise h

/-- A command that accepts has its effect: any command but AEAD.DEC, whose tag must verify, and PCG.RANGE, whose loop must
end. -/
theorem exec_ok {i : Instr} {s : State} (h : Accepts s i)
    (htag : ∀ xa sb sc, i = .aeadDec xa sb sc → aeadVerified sb sc s = true)
    (hloop : ∀ xa xb xc, i = .pcgRange xa xb xc →
      (s.pcg.bounded (pcgBounds xb xc s).1 (pcgBounds xb xc s).2).isSome = true) :
    exec i s = .next (effectOf i s).retire := by
  rw [accepts_iff] at h
  cases i
  case pcgRange xa xb xc =>
    have := hloop xa xb xc rfl
    simp only [exec, execPcgRange, effectOf]
    cases hb : s.pcg.bounded (pcgBounds xb xc s).1 (pcgBounds xb xc s).2 with
    | none => simp [hb] at this
    | some r => rfl
  case aeadDec xa sb sc =>
    have := htag xa sb sc rfl
    simp only [exec, execAeadDec]
    simp only [checksOf] at h
    rw [h, this]; rfl
  all_goals exact (exec_eq_commit _ s (by simp) (by simp)).trans (commit_ok h)

/-- AEAD.DEC on a tag that does not verify. -/
theorem exec_aeadDec_mismatch {xa : Reg} {sb sc : SpanReg} {s : State} (h : Accepts s (.aeadDec xa sb sc))
    (htag : aeadVerified sb sc s = false) :
    exec (.aeadDec xa sb sc) s = .next ((aeadConsumed s).raise (encode (.aeadDec xa sb sc)) .authentication) := by
  rw [accepts_iff] at h
  simp only [exec, execAeadDec]
  simp only [checksOf] at h
  rw [h, htag]; rfl

/-- Everything a command that answers a next state can have done. -/
theorem exec_cases {i : Instr} {s t : State} (h : exec i s = .next t) :
    (∃ e, firstFailing (checksOf s i) = some e ∧ t = s.raise (encode i) e)
    ∨ (Accepts s i ∧ t = (effectOf i s).retire
        ∧ (∀ xa sb sc, i = .aeadDec xa sb sc → aeadVerified sb sc s = true)
        ∧ (∀ xa xb xc, i = .pcgRange xa xb xc →
            (s.pcg.bounded (pcgBounds xb xc s).1 (pcgBounds xb xc s).2).isSome = true))
    ∨ (∃ xa sb sc, i = .aeadDec xa sb sc ∧ Accepts s i ∧ aeadVerified sb sc s = false
        ∧ t = (aeadConsumed s).raise (encode i) .authentication) := by
  cases hf : firstFailing (checksOf s i) with
  | some e =>
    rw [exec_raise hf] at h
    exact .inl ⟨e, rfl, by simpa using h.symm⟩
  | none =>
    have ha := (accepts_iff s i).mpr hf
    by_cases hr : ∃ xa xb xc, i = .pcgRange xa xb xc
        ∧ (s.pcg.bounded (pcgBounds xb xc s).1 (pcgBounds xb xc s).2).isSome = false
    · obtain ⟨xa, xb, xc, rfl, hb⟩ := hr
      simp only [exec, execPcgRange] at h
      cases hx : s.pcg.bounded (pcgBounds xb xc s).1 (pcgBounds xb xc s).2 with
      | some r => simp [hx] at hb
      | none => simp [hx] at h
    · by_cases hd : ∃ xa sb sc, i = .aeadDec xa sb sc ∧ aeadVerified sb sc s = false
      · obtain ⟨xa, sb, sc, rfl, hv⟩ := hd
        rw [exec_aeadDec_mismatch ha hv] at h
        exact .inr (.inr ⟨xa, sb, sc, rfl, ha, hv, by simpa using h.symm⟩)
      · have h1 : ∀ xa sb sc, i = .aeadDec xa sb sc → aeadVerified sb sc s = true := by
          intro xa sb sc hi
          by_contra hn
          exact hd ⟨xa, sb, sc, hi, by simpa using hn⟩
        have h2 : ∀ xa xb xc, i = .pcgRange xa xb xc →
            (s.pcg.bounded (pcgBounds xb xc s).1 (pcgBounds xb xc s).2).isSome = true := by
          intro xa xb xc hi
          by_contra hn
          exact hr ⟨xa, xb, xc, hi, by simpa using hn⟩
        rw [exec_ok ha h1 h2] at h
        exact .inr (.inl ⟨ha, by simpa using h.symm, h1, h2⟩)

end Sys2Proof.Machine
end

