-- ==== Sys2Proof/Laws/Frame.lean ====
section
/-! SUPPORT. What the effect of a command leaves alone, field by field: one lemma per field of State over all commands. The proofs
unfold one effect at a time by `simp only`: comparing whole states by `rfl` would unfold the cryptography. -/

set_option linter.unusedSimpArgs false

namespace Sys2Proof.Machine

/-- The effect of PCG.RANGE, whichever way its loop goes. -/
theorem effectOf_pcgRange (xa xb xc : Reg) (s : State) :
    effectOf (.pcgRange xa xb xc) s = s ∨ ∃ r, effectOf (.pcgRange xa xb xc) s = pcgRangeEffect xa r s := by
  simp only [effectOf]
  split
  · exact .inr ⟨_, rfl⟩
  · exact .inl rfl

section
variable (i : Instr) (s : State)

@[simp] theorem effectOf_cfg : (effectOf i s).cfg = s.cfg := by
  cases i
  case pcgRange => rcases effectOf_pcgRange _ _ _ s with h' | ⟨r, h'⟩ <;> rw [h']; simp only [pcgRangeEffect, setXNat_cfg]
  all_goals simp only [effectOf, ldiEffect, ldsEffect, movEffect, rdsrEffect, clrerrEffect, b2InitEffect, b2UpdateEffect,
      b2FinalEffect, cc20InitEffect, xcc20InitEffect, ccXformEffect, p13InitEffect, p13UpdateEffect, p13FinalEffect,
      aeadInitEffect, aeadEncEffect, aeadDecEffect, kdfCfgEffect, pbkdf2Effect, hkdfEffect, pcgSeedEffect, pcgNextEffect,
      pcgRangeEffect, pcgJumpEffect, pcgGetsEffect, rotl32Effect, rotr32Effect, rotl64Effect, rotr64Effect, lzcnt32Effect,
      lzcnt64Effect, tzcnt32Effect, tzcnt64Effect, popcnt32Effect, popcnt64Effect, log2fEffect, log2cEffect, ispow2Effect,
      gcdEffect, modinvEffect, cteqEffect, xorbEffect,
    setX_cfg, setXNat_cfg, memWrite_cfg]
@[simp] theorem effectOf_cmdcnt : (effectOf i s).cmdcnt = s.cmdcnt := by
  cases i
  case pcgRange => rcases effectOf_pcgRange _ _ _ s with h' | ⟨r, h'⟩ <;> rw [h']; simp only [pcgRangeEffect,
      setXNat_cmdcnt]
  all_goals simp only [effectOf, ldiEffect, ldsEffect, movEffect, rdsrEffect, clrerrEffect, b2InitEffect, b2UpdateEffect,
      b2FinalEffect, cc20InitEffect, xcc20InitEffect, ccXformEffect, p13InitEffect, p13UpdateEffect, p13FinalEffect,
      aeadInitEffect, aeadEncEffect, aeadDecEffect, kdfCfgEffect, pbkdf2Effect, hkdfEffect, pcgSeedEffect, pcgNextEffect,
      pcgRangeEffect, pcgJumpEffect, pcgGetsEffect, rotl32Effect, rotr32Effect, rotl64Effect, rotr64Effect, lzcnt32Effect,
      lzcnt64Effect, tzcnt32Effect, tzcnt64Effect, popcnt32Effect, popcnt64Effect, log2fEffect, log2cEffect, ispow2Effect,
      gcdEffect, modinvEffect, cteqEffect, xorbEffect,
    setX_cmdcnt, setXNat_cmdcnt, memWrite_cmdcnt]
@[simp] theorem effectOf_resets : (effectOf i s).resets = s.resets := by
  cases i
  case pcgRange => rcases effectOf_pcgRange _ _ _ s with h' | ⟨r, h'⟩ <;> rw [h']; simp only [pcgRangeEffect,
      setXNat_resets]
  all_goals simp only [effectOf, ldiEffect, ldsEffect, movEffect, rdsrEffect, clrerrEffect, b2InitEffect, b2UpdateEffect,
      b2FinalEffect, cc20InitEffect, xcc20InitEffect, ccXformEffect, p13InitEffect, p13UpdateEffect, p13FinalEffect,
      aeadInitEffect, aeadEncEffect, aeadDecEffect, kdfCfgEffect, pbkdf2Effect, hkdfEffect, pcgSeedEffect, pcgNextEffect,
      pcgRangeEffect, pcgJumpEffect, pcgGetsEffect, rotl32Effect, rotr32Effect, rotl64Effect, rotr64Effect, lzcnt32Effect,
      lzcnt64Effect, tzcnt32Effect, tzcnt64Effect, popcnt32Effect, popcnt64Effect, log2fEffect, log2cEffect, ispow2Effect,
      gcdEffect, modinvEffect, cteqEffect, xorbEffect,
    setX_resets, setXNat_resets, memWrite_resets]
@[simp] theorem effectOf_port : (effectOf i s).port = s.port := by
  cases i
  case pcgRange => rcases effectOf_pcgRange _ _ _ s with h' | ⟨r, h'⟩ <;> rw [h']; simp only [pcgRangeEffect,
      setXNat_port]
  all_goals simp only [effectOf, ldiEffect, ldsEffect, movEffect, rdsrEffect, clrerrEffect, b2InitEffect, b2UpdateEffect,
      b2FinalEffect, cc20InitEffect, xcc20InitEffect, ccXformEffect, p13InitEffect, p13UpdateEffect, p13FinalEffect,
      aeadInitEffect, aeadEncEffect, aeadDecEffect, kdfCfgEffect, pbkdf2Effect, hkdfEffect, pcgSeedEffect, pcgNextEffect,
      pcgRangeEffect, pcgJumpEffect, pcgGetsEffect, rotl32Effect, rotr32Effect, rotl64Effect, rotr64Effect, lzcnt32Effect,
      lzcnt64Effect, tzcnt32Effect, tzcnt64Effect, popcnt32Effect, popcnt64Effect, log2fEffect, log2cEffect, ispow2Effect,
      gcdEffect, modinvEffect, cteqEffect, xorbEffect,
    setX_port, setXNat_port, memWrite_port]
theorem effectOf_errflags (h : i ≠ .clrerr) : (effectOf i s).errflags = s.errflags := by
  cases i
  case clrerr => exact absurd rfl h
  case pcgRange => rcases effectOf_pcgRange _ _ _ s with h' | ⟨r, h'⟩ <;> rw [h']; simp only [pcgRangeEffect,
      setXNat_errflags]
  all_goals simp only [effectOf, ldiEffect, ldsEffect, movEffect, rdsrEffect, clrerrEffect, b2InitEffect, b2UpdateEffect,
      b2FinalEffect, cc20InitEffect, xcc20InitEffect, ccXformEffect, p13InitEffect, p13UpdateEffect, p13FinalEffect,
      aeadInitEffect, aeadEncEffect, aeadDecEffect, kdfCfgEffect, pbkdf2Effect, hkdfEffect, pcgSeedEffect, pcgNextEffect,
      pcgRangeEffect, pcgJumpEffect, pcgGetsEffect, rotl32Effect, rotr32Effect, rotl64Effect, rotr64Effect, lzcnt32Effect,
      lzcnt64Effect, tzcnt32Effect, tzcnt64Effect, popcnt32Effect, popcnt64Effect, log2fEffect, log2cEffect, ispow2Effect,
      gcdEffect, modinvEffect, cteqEffect, xorbEffect,
    setX_errflags, setXNat_errflags, memWrite_errflags]
theorem effectOf_lasterr (h : i ≠ .clrerr) : (effectOf i s).lasterr = s.lasterr := by
  cases i
  case clrerr => exact absurd rfl h
  case pcgRange => rcases effectOf_pcgRange _ _ _ s with h' | ⟨r, h'⟩ <;> rw [h']; simp only [pcgRangeEffect,
      setXNat_lasterr]
  all_goals simp only [effectOf, ldiEffect, ldsEffect, movEffect, rdsrEffect, clrerrEffect, b2InitEffect, b2UpdateEffect,
      b2FinalEffect, cc20InitEffect, xcc20InitEffect, ccXformEffect, p13InitEffect, p13UpdateEffect, p13FinalEffect,
      aeadInitEffect, aeadEncEffect, aeadDecEffect, kdfCfgEffect, pbkdf2Effect, hkdfEffect, pcgSeedEffect, pcgNextEffect,
      pcgRangeEffect, pcgJumpEffect, pcgGetsEffect, rotl32Effect, rotr32Effect, rotl64Effect, rotr64Effect, lzcnt32Effect,
      lzcnt64Effect, tzcnt32Effect, tzcnt64Effect, popcnt32Effect, popcnt64Effect, log2fEffect, log2cEffect, ispow2Effect,
      gcdEffect, modinvEffect, cteqEffect, xorbEffect,
    setX_lasterr, setXNat_lasterr, memWrite_lasterr]
theorem effectOf_lastcmd (h : i ≠ .clrerr) : (effectOf i s).lastcmd = s.lastcmd := by
  cases i
  case clrerr => exact absurd rfl h
  case pcgRange => rcases effectOf_pcgRange _ _ _ s with h' | ⟨r, h'⟩ <;> rw [h']; simp only [pcgRangeEffect,
      setXNat_lastcmd]
  all_goals simp only [effectOf, ldiEffect, ldsEffect, movEffect, rdsrEffect, clrerrEffect, b2InitEffect, b2UpdateEffect,
      b2FinalEffect, cc20InitEffect, xcc20InitEffect, ccXformEffect, p13InitEffect, p13UpdateEffect, p13FinalEffect,
      aeadInitEffect, aeadEncEffect, aeadDecEffect, kdfCfgEffect, pbkdf2Effect, hkdfEffect, pcgSeedEffect, pcgNextEffect,
      pcgRangeEffect, pcgJumpEffect, pcgGetsEffect, rotl32Effect, rotr32Effect, rotl64Effect, rotr64Effect, lzcnt32Effect,
      lzcnt64Effect, tzcnt32Effect, tzcnt64Effect, popcnt32Effect, popcnt64Effect, log2fEffect, log2cEffect, ispow2Effect,
      gcdEffect, modinvEffect, cteqEffect, xorbEffect,
    setX_lastcmd, setXNat_lastcmd, memWrite_lastcmd]
theorem effectOf_b2 (h : writesEngine i ≠ some .blake2) : (effectOf i s).b2 = s.b2 := by
  cases i
  case b2bInit => exact absurd rfl h
  case b2sInit => exact absurd rfl h
  case b2Update => exact absurd rfl h
  case b2Final => exact absurd rfl h
  case pcgRange => rcases effectOf_pcgRange _ _ _ s with h' | ⟨r, h'⟩ <;> rw [h']; simp only [pcgRangeEffect, setXNat_b2]
  all_goals simp only [effectOf, ldiEffect, ldsEffect, movEffect, rdsrEffect, clrerrEffect, b2InitEffect, b2UpdateEffect,
      b2FinalEffect, cc20InitEffect, xcc20InitEffect, ccXformEffect, p13InitEffect, p13UpdateEffect, p13FinalEffect,
      aeadInitEffect, aeadEncEffect, aeadDecEffect, kdfCfgEffect, pbkdf2Effect, hkdfEffect, pcgSeedEffect, pcgNextEffect,
      pcgRangeEffect, pcgJumpEffect, pcgGetsEffect, rotl32Effect, rotr32Effect, rotl64Effect, rotr64Effect, lzcnt32Effect,
      lzcnt64Effect, tzcnt32Effect, tzcnt64Effect, popcnt32Effect, popcnt64Effect, log2fEffect, log2cEffect, ispow2Effect,
      gcdEffect, modinvEffect, cteqEffect, xorbEffect,
    setX_b2, setXNat_b2, memWrite_b2]
theorem effectOf_cc (h : writesEngine i ≠ some .chacha) : (effectOf i s).cc = s.cc := by
  cases i
  case cc20Init => exact absurd rfl h
  case xcc20Init => exact absurd rfl h
  case pcgRange => rcases effectOf_pcgRange _ _ _ s with h' | ⟨r, h'⟩ <;> rw [h']; simp only [pcgRangeEffect, setXNat_cc]
  all_goals simp only [effectOf, ldiEffect, ldsEffect, movEffect, rdsrEffect, clrerrEffect, b2InitEffect, b2UpdateEffect,
      b2FinalEffect, cc20InitEffect, xcc20InitEffect, ccXformEffect, p13InitEffect, p13UpdateEffect, p13FinalEffect,
      aeadInitEffect, aeadEncEffect, aeadDecEffect, kdfCfgEffect, pbkdf2Effect, hkdfEffect, pcgSeedEffect, pcgNextEffect,
      pcgRangeEffect, pcgJumpEffect, pcgGetsEffect, rotl32Effect, rotr32Effect, rotl64Effect, rotr64Effect, lzcnt32Effect,
      lzcnt64Effect, tzcnt32Effect, tzcnt64Effect, popcnt32Effect, popcnt64Effect, log2fEffect, log2cEffect, ispow2Effect,
      gcdEffect, modinvEffect, cteqEffect, xorbEffect,
    setX_cc, setXNat_cc, memWrite_cc]
theorem effectOf_p13 (h : writesEngine i ≠ some .poly1305) : (effectOf i s).p13 = s.p13 := by
  cases i
  case p13Init => exact absurd rfl h
  case p13Update => exact absurd rfl h
  case p13Final => exact absurd rfl h
  case pcgRange => rcases effectOf_pcgRange _ _ _ s with h' | ⟨r, h'⟩ <;> rw [h']; simp only [pcgRangeEffect, setXNat_p13]
  all_goals simp only [effectOf, ldiEffect, ldsEffect, movEffect, rdsrEffect, clrerrEffect, b2InitEffect, b2UpdateEffect,
      b2FinalEffect, cc20InitEffect, xcc20InitEffect, ccXformEffect, p13InitEffect, p13UpdateEffect, p13FinalEffect,
      aeadInitEffect, aeadEncEffect, aeadDecEffect, kdfCfgEffect, pbkdf2Effect, hkdfEffect, pcgSeedEffect, pcgNextEffect,
      pcgRangeEffect, pcgJumpEffect, pcgGetsEffect, rotl32Effect, rotr32Effect, rotl64Effect, rotr64Effect, lzcnt32Effect,
      lzcnt64Effect, tzcnt32Effect, tzcnt64Effect, popcnt32Effect, popcnt64Effect, log2fEffect, log2cEffect, ispow2Effect,
      gcdEffect, modinvEffect, cteqEffect, xorbEffect,
    setX_p13, setXNat_p13, memWrite_p13]
theorem effectOf_aead (h : writesEngine i ≠ some .aead) : (effectOf i s).aead = s.aead := by
  cases i
  case aeadInit => exact absurd rfl h
  case aeadEnc => exact absurd rfl h
  case aeadDec => exact absurd rfl h
  case pcgRange => rcases effectOf_pcgRange _ _ _ s with h' | ⟨r, h'⟩ <;> rw [h']; simp only [pcgRangeEffect,
      setXNat_aead]
  all_goals simp only [effectOf, ldiEffect, ldsEffect, movEffect, rdsrEffect, clrerrEffect, b2InitEffect, b2UpdateEffect,
      b2FinalEffect, cc20InitEffect, xcc20InitEffect, ccXformEffect, p13InitEffect, p13UpdateEffect, p13FinalEffect,
      aeadInitEffect, aeadEncEffect, aeadDecEffect, kdfCfgEffect, pbkdf2Effect, hkdfEffect, pcgSeedEffect, pcgNextEffect,
      pcgRangeEffect, pcgJumpEffect, pcgGetsEffect, rotl32Effect, rotr32Effect, rotl64Effect, rotr64Effect, lzcnt32Effect,
      lzcnt64Effect, tzcnt32Effect, tzcnt64Effect, popcnt32Effect, popcnt64Effect, log2fEffect, log2cEffect, ispow2Effect,
      gcdEffect, modinvEffect, cteqEffect, xorbEffect,
    setX_aead, setXNat_aead, memWrite_aead]
theorem effectOf_kdf (h : writesEngine i ≠ some .kdf) : (effectOf i s).kdf = s.kdf := by
  cases i
  case kdfCfg => exact absurd rfl h
  case pcgRange => rcases effectOf_pcgRange _ _ _ s with h' | ⟨r, h'⟩ <;> rw [h']; simp only [pcgRangeEffect, setXNat_kdf]
  all_goals simp only [effectOf, ldiEffect, ldsEffect, movEffect, rdsrEffect, clrerrEffect, b2InitEffect, b2UpdateEffect,
      b2FinalEffect, cc20InitEffect, xcc20InitEffect, ccXformEffect, p13InitEffect, p13UpdateEffect, p13FinalEffect,
      aeadInitEffect, aeadEncEffect, aeadDecEffect, kdfCfgEffect, pbkdf2Effect, hkdfEffect, pcgSeedEffect, pcgNextEffect,
      pcgRangeEffect, pcgJumpEffect, pcgGetsEffect, rotl32Effect, rotr32Effect, rotl64Effect, rotr64Effect, lzcnt32Effect,
      lzcnt64Effect, tzcnt32Effect, tzcnt64Effect, popcnt32Effect, popcnt64Effect, log2fEffect, log2cEffect, ispow2Effect,
      gcdEffect, modinvEffect, cteqEffect, xorbEffect,
    setX_kdf, setXNat_kdf, memWrite_kdf]
theorem effectOf_pcg (h : writesEngine i ≠ some .pcg) : (effectOf i s).pcg = s.pcg := by
  cases i
  case pcgSeed => exact absurd rfl h
  case pcgNext => exact absurd rfl h
  case pcgRange => exact absurd rfl h
  case pcgJump => exact absurd rfl h
  all_goals simp only [effectOf, ldiEffect, ldsEffect, movEffect, rdsrEffect, clrerrEffect, b2InitEffect, b2UpdateEffect,
      b2FinalEffect, cc20InitEffect, xcc20InitEffect, ccXformEffect, p13InitEffect, p13UpdateEffect, p13FinalEffect,
      aeadInitEffect, aeadEncEffect, aeadDecEffect, kdfCfgEffect, pbkdf2Effect, hkdfEffect, pcgSeedEffect, pcgNextEffect,
      pcgRangeEffect, pcgJumpEffect, pcgGetsEffect, rotl32Effect, rotr32Effect, rotl64Effect, rotr64Effect, lzcnt32Effect,
      lzcnt64Effect, tzcnt32Effect, tzcnt64Effect, popcnt32Effect, popcnt64Effect, log2fEffect, log2cEffect, ispow2Effect,
      gcdEffect, modinvEffect, cteqEffect, xorbEffect,
    setX_pcg, setXNat_pcg, memWrite_pcg]
end

/-- The registers, for a command that has no destination register. -/
theorem effectOf_x (i : Instr) (s : State) (h : destRegister i = none) : (effectOf i s).x = s.x := by
  cases i
  case ldi => simp [destRegister] at h
  case lds => simp [destRegister] at h
  case mov => simp [destRegister] at h
  case rdsr => simp [destRegister] at h
  case ccXform => simp [destRegister] at h
  case pcgNext => simp [destRegister] at h
  case pcgRange => simp [destRegister] at h
  case pcgGets => simp [destRegister] at h
  case rotl32 => simp [destRegister] at h
  case rotr32 => simp [destRegister] at h
  case rotl64 => simp [destRegister] at h
  case rotr64 => simp [destRegister] at h
  case lzcnt32 => simp [destRegister] at h
  case lzcnt64 => simp [destRegister] at h
  case tzcnt32 => simp [destRegister] at h
  case tzcnt64 => simp [destRegister] at h
  case popcnt32 => simp [destRegister] at h
  case popcnt64 => simp [destRegister] at h
  case log2f => simp [destRegister] at h
  case log2c => simp [destRegister] at h
  case ispow2 => simp [destRegister] at h
  case gcd => simp [destRegister] at h
  case modinv => simp [destRegister] at h
  case cteq => simp [destRegister] at h
  all_goals simp only [effectOf, ldiEffect, ldsEffect, movEffect, rdsrEffect, clrerrEffect, b2InitEffect, b2UpdateEffect,
      b2FinalEffect, cc20InitEffect, xcc20InitEffect, ccXformEffect, p13InitEffect, p13UpdateEffect, p13FinalEffect,
      aeadInitEffect, aeadEncEffect, aeadDecEffect, kdfCfgEffect, pbkdf2Effect, hkdfEffect, pcgSeedEffect, pcgNextEffect,
      pcgRangeEffect, pcgJumpEffect, pcgGetsEffect, rotl32Effect, rotr32Effect, rotl64Effect, rotr64Effect, lzcnt32Effect,
      lzcnt64Effect, tzcnt32Effect, tzcnt64Effect, popcnt32Effect, popcnt64Effect, log2fEffect, log2cEffect, ispow2Effect,
      gcdEffect, modinvEffect, cteqEffect, xorbEffect, memWrite_x]

/-- A register other than the command's destination. -/
theorem effectOf_getX (i : Instr) (s : State) (r : Reg) (h : destRegister i ≠ some r) :
    (effectOf i s).getX r = s.getX r := by
  have ne : ∀ q : Reg, some q ≠ some r → r ≠ q := fun q hq he => hq (by rw [he])
  by_cases hn : destRegister i = none
  · simp only [State.getX, effectOf_x i s hn]
  cases i
  case pcgRange xa xb xc =>
    rcases effectOf_pcgRange xa xb xc s with h' | ⟨q, h'⟩ <;> rw [h']
    simp only [pcgRangeEffect]
    rw [getX_setXNat_ne _ _ _ _ (ne xa h)]
    simp only [State.getX]
  all_goals first
    | exact absurd rfl hn
    | simp only [effectOf, ldiEffect, ldsEffect, movEffect, rdsrEffect, clrerrEffect, b2InitEffect, b2UpdateEffect,
          b2FinalEffect, cc20InitEffect, xcc20InitEffect, ccXformEffect, p13InitEffect, p13UpdateEffect, p13FinalEffect,
          aeadInitEffect, aeadEncEffect, aeadDecEffect, kdfCfgEffect, pbkdf2Effect, hkdfEffect, pcgSeedEffect,
          pcgNextEffect, pcgRangeEffect, pcgJumpEffect, pcgGetsEffect, rotl32Effect, rotr32Effect, rotl64Effect,
          rotr64Effect, lzcnt32Effect, lzcnt64Effect, tzcnt32Effect, tzcnt64Effect, popcnt32Effect, popcnt64Effect,
          log2fEffect, log2cEffect, ispow2Effect, gcdEffect, modinvEffect, cteqEffect, xorbEffect, State.setXNat]
      rw [getX_setX_ne _ _ _ _ (ne _ h)]
      try simp only [State.getX, memWrite_x]

end Sys2Proof.Machine
end

