-- ==== Sys2Proof/Laws/Pcg.lean ====
section
/-! SUPPORT. The generator with an odd increment has full period, so that the redraw loop of PCG.RANGE ends
(spec/47_pcg32.md R284); what the loop answers; the jump's loop. -/

namespace Sys2Proof.Machine

/-! ## The affine maps of the state -/

/-- The state after one step of a generator with increment `inc`. -/
def lcgStep (inc x : Word) : Word := x * pcgMult + inc

theorem step_eq (g : Pcg) : g.step = { lcg := lcgStep g.inc g.lcg, inc := g.inc } := by simp only [Pcg.step, lcgStep]

@[simp] theorem step_lcg (g : Pcg) : g.step.lcg = lcgStep g.inc g.lcg := by rw [step_eq]
@[simp] theorem step_inc (g : Pcg) : g.step.inc = g.inc := by rw [step_eq]
@[simp] theorem draw_snd (g : Pcg) : g.draw.2 = g.step := rfl
@[simp] theorem draw_fst (g : Pcg) : g.draw.1 = pcgOutput g.lcg := rfl

theorem step_iterate (g : Pcg) (n : Nat) : Pcg.step^[n] g = { lcg := (lcgStep g.inc)^[n] g.lcg, inc := g.inc } := by
  induction n generalizing g with
  | zero => rfl
  | succ n ih => rw [Function.iterate_succ_apply, ih, Function.iterate_succ_apply, step_lcg, step_inc]

/-- 2^k steps are an affine map that leaves the low k bits and flips bit k. -/
theorem lcgStep_iterate_pow (inc : Word) (hodd : inc.toNat % 2 = 1) (k : Nat) :
    ∃ m n : Nat, ∀ x : Word,
      ((lcgStep inc)^[2 ^ k] x).toNat = ((1 + 4 * m * 2 ^ k) * x.toNat + (2 ^ k + 2 * n * 2 ^ k)) % 2 ^ 64 := by
  induction k with
  | zero =>
    refine ⟨(pcgMult.toNat - 1) / 4, inc.toNat / 2, fun x => ?_⟩
    have h0 : pcgMult.toNat % 4 = 1 := by decide
    have h1 : pcgMult.toNat = 1 + 4 * ((pcgMult.toNat - 1) / 4) := by omega
    have h2 : inc.toNat = 1 + 2 * (inc.toNat / 2) := by omega
    rw [Nat.pow_zero, Nat.mul_one, Nat.mul_one, ← h1, ← h2, Function.iterate_one, lcgStep, BitVec.toNat_add, BitVec.toNat_mul,
      Nat.mod_add_mod, Nat.mul_comm]
  | succ k ih =>
    obtain ⟨m, n, h⟩ := ih
    refine ⟨m + 2 * m * m * 2 ^ k, n + m * 2 ^ k * (1 + 2 * n), fun x => ?_⟩
    rw [show 2 ^ (k + 1) = 2 ^ k + 2 ^ k by rw [Nat.pow_succ]; omega, Function.iterate_add_apply, h, h]
    generalize 2 ^ k = p
    rw [Nat.add_mod, Nat.mul_mod, Nat.mod_mod, ← Nat.mul_mod, ← Nat.add_mod]
    congr 1
    ring

/-- Every residue modulo 2^k is reached in fewer than 2^k steps. -/
theorem lcgStep_reaches (inc : Word) (hodd : inc.toNat % 2 = 1) (x : Word) (y k : Nat) (hk : k ≤ 64) :
    ∃ n < 2 ^ k, ((lcgStep inc)^[n] x).toNat % 2 ^ k = y % 2 ^ k := by
  induction k with
  | zero => exact ⟨0, by simp, by simp [Nat.mod_one]⟩
  | succ k ih =>
    obtain ⟨n, hn, h⟩ := ih (by omega)
    by_cases hbit : ((lcgStep inc)^[n] x).toNat % 2 ^ (k + 1) = y % 2 ^ (k + 1)
    · exact ⟨n, by rw [Nat.pow_succ]; omega, hbit⟩
    · refine ⟨2 ^ k + n, by rw [Nat.pow_succ]; omega, ?_⟩
      obtain ⟨m, c, hmap⟩ := lcgStep_iterate_pow inc hodd k
      rw [Function.iterate_add_apply, hmap]
      generalize ((lcgStep inc)^[n] x).toNat = z at *
      rw [Nat.mod_mod_of_dvd _ (Nat.pow_dvd_pow 2 (by omega))]
      have e1 : (1 + 4 * m * 2 ^ k) * z + (2 ^ k + 2 * c * 2 ^ k) = z + 2 ^ k + 2 ^ (k + 1) * (2 * m * z + c) := by
        rw [Nat.pow_succ]; ring
      rw [e1, Nat.add_mul_mod_self_left]
      have hp : 2 ^ (k + 1) = 2 * 2 ^ k := by rw [Nat.pow_succ]; omega
      rw [hp] at hbit ⊢
      have hpos : 0 < 2 ^ k := Nat.two_pow_pos k
      generalize 2 ^ k = p at *
      rw [Nat.mul_comm 2 p] at *
      rw [Nat.mod_mul, Nat.mod_mul] at hbit
      rw [Nat.mod_mul, Nat.mod_mul, Nat.add_mod_right, Nat.add_div_right _ hpos]
      have hz : z / p % 2 ≠ y / p % 2 := fun he => hbit (by rw [h, he])
      rw [h]
      have : (z / p).succ % 2 = y / p % 2 := by omega
      rw [this]

/-- Every state is reached in fewer than 2^64 steps. -/
theorem step_reaches (g : Pcg) (hodd : g.inc.toNat % 2 = 1) (y : Word) : ∃ n < 2 ^ 64, (Pcg.step^[n] g).lcg = y := by
  obtain ⟨n, hn, h⟩ := lcgStep_reaches g.inc hodd g.lcg y.toNat 64 (le_refl _)
  refine ⟨n, hn, ?_⟩
  rw [step_iterate]
  apply BitVec.eq_of_toNat_eq
  rw [Nat.mod_eq_of_lt (BitVec.isLt _), Nat.mod_eq_of_lt (BitVec.isLt _)] at h
  exact h

/-! ## The redraw loop -/

/-- The generator whose state is 2^27 draws the value 1, which every range accepts. -/
theorem drawOnce_accepts (lo range : Nat) (g : Pcg) (h0 : 0 < range) (h1 : range < 2 ^ 32) (hg : g.lcg = 2 ^ 27) :
    drawOnce lo range (2 ^ 32 % range) g = .ok (lo, g.step) := by
  have hd : pcgOutput g.lcg = 1 := by rw [hg]; decide
  have hlt := Nat.mod_lt (2 ^ 32) h0
  simp only [drawOnce, draw_fst, draw_snd, hd]
  rw [show (1 : Word32).toNat = 1 from rfl, Nat.one_mul, Nat.mod_eq_of_lt h1, if_pos (by omega), Nat.div_eq_of_lt h1]
  rfl

theorem drawOnce_error {lo range thr : Nat} {g g' : Pcg} (h : drawOnce lo range thr g = .error g') :
    g' = g.step := by
  simp only [drawOnce] at h
  split at h
  · simp at h
  · simpa using h.symm

/-- Everything the loop can answer: the first accepted draw among at most 2^k, or 2^k rejected draws. -/
theorem drawUpTo_spec (lo range thr k : Nat) (g : Pcg) :
    (∃ n < 2 ^ k, (∀ j < n, ∃ g', drawOnce lo range thr (Pcg.step^[j] g) = .error g')
        ∧ ∃ r, drawOnce lo range thr (Pcg.step^[n] g) = .ok r ∧ drawUpTo lo range thr k g = .ok r)
    ∨ ((∀ j < 2 ^ k, ∃ g', drawOnce lo range thr (Pcg.step^[j] g) = .error g')
        ∧ drawUpTo lo range thr k g = .error (Pcg.step^[2 ^ k] g)) := by
  induction k generalizing g with
  | zero =>
    cases h : drawOnce lo range thr g with
    | ok r => exact .inl ⟨0, by simp, by simp, r, h, by simp [drawUpTo, h]⟩
    | error g' =>
      refine .inr ⟨fun j hj => ?_, ?_⟩
      · have : j = 0 := by simpa using hj
        subst this; exact ⟨g', h⟩
      · simp [drawUpTo, h, drawOnce_error h]
  | succ k ih =>
    have hp : 2 ^ (k + 1) = 2 ^ k + 2 ^ k := by rw [Nat.pow_succ]; omega
    rcases ih g with ⟨n, hn, hrej, r, hr, hu⟩ | ⟨hrej, hu⟩
    · exact .inl ⟨n, by omega, hrej, r, hr, by simp [drawUpTo, hu]⟩
    · have hshift : ∀ j, Pcg.step^[j] (Pcg.step^[2 ^ k] g) = Pcg.step^[2 ^ k + j] g := fun j => by
        rw [Nat.add_comm, Function.iterate_add_apply]
      have hall : ∀ n, (∀ j < n, ∃ g', drawOnce lo range thr (Pcg.step^[j] (Pcg.step^[2 ^ k] g)) = .error g') →
          ∀ j < 2 ^ k + n, ∃ g', drawOnce lo range thr (Pcg.step^[j] g) = .error g' := by
        intro n hn j hj
        by_cases hjk : j < 2 ^ k
        · exact hrej j hjk
        · have := hn (j - 2 ^ k) (by omega)
          rwa [hshift, show 2 ^ k + (j - 2 ^ k) = j by omega] at this
      rcases ih (Pcg.step^[2 ^ k] g) with ⟨n, hn, hrej', r, hr, hu'⟩ | ⟨hrej', hu'⟩
      · rw [hshift] at hr
        exact .inl ⟨2 ^ k + n, by omega, hall n hrej', r, hr, by simp only [drawUpTo, hu, hu']⟩
      · rw [hshift, ← hp] at hu'
        exact .inr ⟨by rw [hp]; exact hall _ hrej', by simp only [drawUpTo, hu, hu']⟩

/-- With an odd increment the bounded draw always has an answer. -/
theorem bounded_isSome (g : Pcg) (lo hi : Nat) (hodd : g.inc.toNat % 2 = 1) (hhi : hi < 2 ^ 32) (hle : lo ≤ hi) :
    (g.bounded lo hi).isSome = true := by
  simp only [Pcg.bounded]
  by_cases hfull : hi - lo + 1 = 2 ^ 32
  · rw [if_pos hfull]; rfl
  · rw [if_neg hfull]
    rcases drawUpTo_spec lo (hi - lo + 1) (2 ^ 32 % (hi - lo + 1)) 64 g with ⟨n, hn, hrej, r, hr, hu⟩ | ⟨hrej, hu⟩
    · rw [hu]; rfl
    · obtain ⟨n, hn, hy⟩ := step_reaches g hodd (2 ^ 27)
      obtain ⟨g', hg'⟩ := hrej n hn
      rw [drawOnce_accepts lo _ _ (by omega) (by omega) hy] at hg'
      simp at hg'

/-- The bounds of PCG.RANGE are in order and below 2^32. -/
theorem pcgBounds_le (xb xc : Reg) (s : State) :
    (pcgBounds xb xc s).1 ≤ (pcgBounds xb xc s).2 ∧ (pcgBounds xb xc s).2 < 2 ^ 32 := by
  simp only [pcgBounds]
  omega

end Sys2Proof.Machine
end

