-- ==== Sys2Proof/Laws/PerInstr.lean ====
section
/-! SUPPORT. One lemma per constructor of Instr: its word, written from the encoding table, is decoded to the command it stands
for (spec/30_encoding.md R96, R98). -/

namespace Sys2Proof.Laws.RoundTrip

/-- The word of a well-formed command is that command. -/
def Statement (i : Instr) : Prop := i.wellFormed = true → decode (encode i) = .ok i

/-- A command's word in format R, and the row of its opcode. -/
theorem formatR_row {i : Instr} {opc : Nat} {ra rb rc : Reg} {imm8 : BitVec 8} {row : Word32 → Except DecodeError Instr}
    (hw : encode i = formatR opc ra rb rc imm8) (ho : opc < 256) (hd : ∀ w, decodeRow opc w = row w)
    (hr : row (formatR opc ra rb rc imm8) = .ok i) : decode (encode i) = .ok i := by
  rw [hw, decode, opc_formatR opc ra rb rc imm8 ho, hd, hr]

/-- A command's word in format I, and the row of its opcode. -/
theorem formatI_row {i : Instr} {opc : Nat} {ra : Reg} {imm20 : BitVec 20} {c : Reg → BitVec 20 → Instr}
    (hw : encode i = formatI opc ra imm20) (ho : opc < 256)
    (hd : ∀ w, decodeRow opc w = .ok (c (fieldA w) (fieldImm20 w))) (hi : c ra imm20 = i) : decode (encode i) = .ok i := by
  rw [hw, decode, opc_formatI opc ra imm20 ho, hd, fieldA_formatI opc ra imm20 ho, fieldImm20_formatI opc ra imm20 ho, hi]

theorem nop : Statement (.nop) := by
  intro _
  exact formatR_row (opc := 0x00) (row := (fun w => rowNone w .nop)) rfl (by decide) (fun _ => rfl)
    (rowNone_formatR 0x00 (by decide) .nop)

theorem ldi (xa : Reg) (imm20 : BitVec 20) : Statement (.ldi xa imm20) := by
  intro _
  exact formatI_row (opc := 0x01) (c := .ldi) rfl (by decide) (fun _ => rfl) rfl

theorem lds (xa : Reg) (imm20 : BitVec 20) : Statement (.lds xa imm20) := by
  intro _
  exact formatI_row (opc := 0x02) (c := .lds) rfl (by decide) (fun _ => rfl) rfl

theorem mov (xa xb : Reg) : Statement (.mov xa xb) := by
  intro _
  exact formatR_row (opc := 0x03) (row := (fun w => rowAB w .mov)) rfl (by decide) (fun _ => rfl)
    (rowAB_formatR 0x03 xa xb (by decide) .mov)

theorem rdsr (xa : Reg) (imm8 : BitVec 8) : Statement (.rdsr xa imm8) := by
  intro hw
  exact formatR_row (opc := 0x04) (row := rowRdsr) rfl (by decide) (fun _ => rfl)
    (rowRdsr_formatR 0x04 xa imm8 (by decide) hw)

theorem clrerr : Statement (.clrerr) := by
  intro _
  exact formatR_row (opc := 0x05) (row := (fun w => rowNone w .clrerr)) rfl (by decide) (fun _ => rfl)
    (rowNone_formatR 0x05 (by decide) .clrerr)

theorem b2bInit (sa : SpanReg) (xb : Reg) : Statement (.b2bInit sa xb) := by
  intro _
  exact formatR_row (opc := 0x10) (row := (fun w => rowAB w .b2bInit)) rfl (by decide) (fun _ => rfl)
    (rowAB_formatR 0x10 sa xb (by decide) .b2bInit)

theorem b2sInit (sa : SpanReg) (xb : Reg) : Statement (.b2sInit sa xb) := by
  intro _
  exact formatR_row (opc := 0x11) (row := (fun w => rowAB w .b2sInit)) rfl (by decide) (fun _ => rfl)
    (rowAB_formatR 0x11 sa xb (by decide) .b2sInit)

theorem b2Update (sa : SpanReg) : Statement (.b2Update sa) := by
  intro _
  exact formatR_row (opc := 0x12) (row := (fun w => rowA w .b2Update)) rfl (by decide) (fun _ => rfl)
    (rowA_formatR 0x12 sa (by decide) .b2Update)

theorem b2Final (xa : Reg) : Statement (.b2Final xa) := by
  intro _
  exact formatR_row (opc := 0x13) (row := (fun w => rowA w .b2Final)) rfl (by decide) (fun _ => rfl)
    (rowA_formatR 0x13 xa (by decide) .b2Final)

theorem cc20Init (sa sb : SpanReg) : Statement (.cc20Init sa sb) := by
  intro _
  exact formatR_row (opc := 0x20) (row := (fun w => rowAB w .cc20Init)) rfl (by decide) (fun _ => rfl)
    (rowAB_formatR 0x20 sa sb (by decide) .cc20Init)

theorem xcc20Init (sa sb : SpanReg) : Statement (.xcc20Init sa sb) := by
  intro _
  exact formatR_row (opc := 0x21) (row := (fun w => rowAB w .xcc20Init)) rfl (by decide) (fun _ => rfl)
    (rowAB_formatR 0x21 sa sb (by decide) .xcc20Init)

theorem ccXform (xa : Reg) (sb : SpanReg) (xc : Reg) : Statement (.ccXform xa sb xc) := by
  intro _
  exact formatR_row (opc := 0x22) (row := (fun w => rowABC w .ccXform)) rfl (by decide) (fun _ => rfl)
    (rowABC_formatR 0x22 xa sb xc (by decide) .ccXform)

theorem p13Init (sa : SpanReg) : Statement (.p13Init sa) := by
  intro _
  exact formatR_row (opc := 0x30) (row := (fun w => rowA w .p13Init)) rfl (by decide) (fun _ => rfl)
    (rowA_formatR 0x30 sa (by decide) .p13Init)

theorem p13Update (sa : SpanReg) : Statement (.p13Update sa) := by
  intro _
  exact formatR_row (opc := 0x31) (row := (fun w => rowA w .p13Update)) rfl (by decide) (fun _ => rfl)
    (rowA_formatR 0x31 sa (by decide) .p13Update)

theorem p13Final (xa : Reg) : Statement (.p13Final xa) := by
  intro _
  exact formatR_row (opc := 0x32) (row := (fun w => rowA w .p13Final)) rfl (by decide) (fun _ => rfl)
    (rowA_formatR 0x32 xa (by decide) .p13Final)

theorem aeadInit (sa sb sc : SpanReg) : Statement (.aeadInit sa sb sc) := by
  intro _
  exact formatR_row (opc := 0x40) (row := (fun w => rowABC w .aeadInit)) rfl (by decide) (fun _ => rfl)
    (rowABC_formatR 0x40 sa sb sc (by decide) .aeadInit)

theorem aeadEnc (xa : Reg) (sb sc : SpanReg) : Statement (.aeadEnc xa sb sc) := by
  intro _
  exact formatR_row (opc := 0x41) (row := (fun w => rowABC w .aeadEnc)) rfl (by decide) (fun _ => rfl)
    (rowABC_formatR 0x41 xa sb sc (by decide) .aeadEnc)

theorem aeadDec (xa : Reg) (sb sc : SpanReg) : Statement (.aeadDec xa sb sc) := by
  intro _
  exact formatR_row (opc := 0x42) (row := (fun w => rowABC w .aeadDec)) rfl (by decide) (fun _ => rfl)
    (rowABC_formatR 0x42 xa sb sc (by decide) .aeadDec)

theorem kdfCfg (sa : SpanReg) (xb : Reg) (imm8 : BitVec 8) : Statement (.kdfCfg sa xb imm8) := by
  intro hw
  exact formatR_row (opc := 0x50) (row := rowKdfCfg) rfl (by decide) (fun _ => rfl)
    (rowKdfCfg_formatR 0x50 sa xb imm8 (by decide) hw)

theorem pbkdf2 (sa sb : SpanReg) (xc : Reg) : Statement (.pbkdf2 sa sb xc) := by
  intro _
  exact formatR_row (opc := 0x51) (row := (fun w => rowABC w .pbkdf2)) rfl (by decide) (fun _ => rfl)
    (rowABC_formatR 0x51 sa sb xc (by decide) .pbkdf2)

theorem hkdf (sa sb : SpanReg) : Statement (.hkdf sa sb) := by
  intro _
  exact formatR_row (opc := 0x52) (row := (fun w => rowAB w .hkdf)) rfl (by decide) (fun _ => rfl)
    (rowAB_formatR 0x52 sa sb (by decide) .hkdf)

theorem pcgSeed (xa xb : Reg) : Statement (.pcgSeed xa xb) := by
  intro _
  exact formatR_row (opc := 0x60) (row := (fun w => rowAB w .pcgSeed)) rfl (by decide) (fun _ => rfl)
    (rowAB_formatR 0x60 xa xb (by decide) .pcgSeed)

theorem pcgNext (xa : Reg) : Statement (.pcgNext xa) := by
  intro _
  exact formatR_row (opc := 0x61) (row := (fun w => rowA w .pcgNext)) rfl (by decide) (fun _ => rfl)
    (rowA_formatR 0x61 xa (by decide) .pcgNext)

theorem pcgRange (xa xb xc : Reg) : Statement (.pcgRange xa xb xc) := by
  intro _
  exact formatR_row (opc := 0x62) (row := (fun w => rowABC w .pcgRange)) rfl (by decide) (fun _ => rfl)
    (rowABC_formatR 0x62 xa xb xc (by decide) .pcgRange)

theorem pcgJump (xa : Reg) : Statement (.pcgJump xa) := by
  intro _
  exact formatR_row (opc := 0x63) (row := (fun w => rowA w .pcgJump)) rfl (by decide) (fun _ => rfl)
    (rowA_formatR 0x63 xa (by decide) .pcgJump)

theorem pcgGets (xa : Reg) : Statement (.pcgGets xa) := by
  intro _
  exact formatR_row (opc := 0x64) (row := (fun w => rowA w .pcgGets)) rfl (by decide) (fun _ => rfl)
    (rowA_formatR 0x64 xa (by decide) .pcgGets)

theorem rotl32 (xa xb xc : Reg) : Statement (.rotl32 xa xb xc) := by
  intro _
  exact formatR_row (opc := 0x70) (row := (fun w => rowABC w .rotl32)) rfl (by decide) (fun _ => rfl)
    (rowABC_formatR 0x70 xa xb xc (by decide) .rotl32)

theorem rotr32 (xa xb xc : Reg) : Statement (.rotr32 xa xb xc) := by
  intro _
  exact formatR_row (opc := 0x71) (row := (fun w => rowABC w .rotr32)) rfl (by decide) (fun _ => rfl)
    (rowABC_formatR 0x71 xa xb xc (by decide) .rotr32)

theorem rotl64 (xa xb xc : Reg) : Statement (.rotl64 xa xb xc) := by
  intro _
  exact formatR_row (opc := 0x72) (row := (fun w => rowABC w .rotl64)) rfl (by decide) (fun _ => rfl)
    (rowABC_formatR 0x72 xa xb xc (by decide) .rotl64)

theorem rotr64 (xa xb xc : Reg) : Statement (.rotr64 xa xb xc) := by
  intro _
  exact formatR_row (opc := 0x73) (row := (fun w => rowABC w .rotr64)) rfl (by decide) (fun _ => rfl)
    (rowABC_formatR 0x73 xa xb xc (by decide) .rotr64)

theorem lzcnt32 (xa xb : Reg) : Statement (.lzcnt32 xa xb) := by
  intro _
  exact formatR_row (opc := 0x74) (row := (fun w => rowAB w .lzcnt32)) rfl (by decide) (fun _ => rfl)
    (rowAB_formatR 0x74 xa xb (by decide) .lzcnt32)

theorem lzcnt64 (xa xb : Reg) : Statement (.lzcnt64 xa xb) := by
  intro _
  exact formatR_row (opc := 0x75) (row := (fun w => rowAB w .lzcnt64)) rfl (by decide) (fun _ => rfl)
    (rowAB_formatR 0x75 xa xb (by decide) .lzcnt64)

theorem tzcnt32 (xa xb : Reg) : Statement (.tzcnt32 xa xb) := by
  intro _
  exact formatR_row (opc := 0x76) (row := (fun w => rowAB w .tzcnt32)) rfl (by decide) (fun _ => rfl)
    (rowAB_formatR 0x76 xa xb (by decide) .tzcnt32)

theorem tzcnt64 (xa xb : Reg) : Statement (.tzcnt64 xa xb) := by
  intro _
  exact formatR_row (opc := 0x77) (row := (fun w => rowAB w .tzcnt64)) rfl (by decide) (fun _ => rfl)
    (rowAB_formatR 0x77 xa xb (by decide) .tzcnt64)

theorem popcnt32 (xa xb : Reg) : Statement (.popcnt32 xa xb) := by
  intro _
  exact formatR_row (opc := 0x78) (row := (fun w => rowAB w .popcnt32)) rfl (by decide) (fun _ => rfl)
    (rowAB_formatR 0x78 xa xb (by decide) .popcnt32)

theorem popcnt64 (xa xb : Reg) : Statement (.popcnt64 xa xb) := by
  intro _
  exact formatR_row (opc := 0x79) (row := (fun w => rowAB w .popcnt64)) rfl (by decide) (fun _ => rfl)
    (rowAB_formatR 0x79 xa xb (by decide) .popcnt64)

theorem log2f (xa xb : Reg) : Statement (.log2f xa xb) := by
  intro _
  exact formatR_row (opc := 0x7A) (row := (fun w => rowAB w .log2f)) rfl (by decide) (fun _ => rfl)
    (rowAB_formatR 0x7A xa xb (by decide) .log2f)

theorem log2c (xa xb : Reg) : Statement (.log2c xa xb) := by
  intro _
  exact formatR_row (opc := 0x7B) (row := (fun w => rowAB w .log2c)) rfl (by decide) (fun _ => rfl)
    (rowAB_formatR 0x7B xa xb (by decide) .log2c)

theorem ispow2 (xa xb : Reg) : Statement (.ispow2 xa xb) := by
  intro _
  exact formatR_row (opc := 0x7C) (row := (fun w => rowAB w .ispow2)) rfl (by decide) (fun _ => rfl)
    (rowAB_formatR 0x7C xa xb (by decide) .ispow2)

theorem gcd (xa xb xc : Reg) : Statement (.gcd xa xb xc) := by
  intro _
  exact formatR_row (opc := 0x7D) (row := (fun w => rowABC w .gcd)) rfl (by decide) (fun _ => rfl)
    (rowABC_formatR 0x7D xa xb xc (by decide) .gcd)

theorem modinv (xa xb : Reg) : Statement (.modinv xa xb) := by
  intro _
  exact formatR_row (opc := 0x7E) (row := (fun w => rowAB w .modinv)) rfl (by decide) (fun _ => rfl)
    (rowAB_formatR 0x7E xa xb (by decide) .modinv)

theorem cteq (xa : Reg) (sb sc : SpanReg) : Statement (.cteq xa sb sc) := by
  intro _
  exact formatR_row (opc := 0x80) (row := (fun w => rowABC w .cteq)) rfl (by decide) (fun _ => rfl)
    (rowABC_formatR 0x80 xa sb sc (by decide) .cteq)

theorem xorb (xa : Reg) (sb sc : SpanReg) : Statement (.xorb xa sb sc) := by
  intro _
  exact formatR_row (opc := 0x81) (row := (fun w => rowABC w .xorb)) rfl (by decide) (fun _ => rfl)
    (rowABC_formatR 0x81 xa sb sc (by decide) .xorb)

end Sys2Proof.Laws.RoundTrip
end

