-- ==== Sys2Proof/Laws/Poly1305.lean ====
section
/-! SUPPORT. The limb arithmetic of the Poly1305 unit: what numbers the limb operations stand for, and the bounds they keep
(spec/10_state.md R36; spec/43_poly1305.md R202 to R207). -/

namespace Sys2Proof.Machine

/-! ## Cuts of a byte string -/

theorem le_drop (b : Bytes) (i : Nat) : le (b.drop i) = le b / 256 ^ i := by
  induction i generalizing b with
  | zero => simp
  | succ i ih =>
    cases b with
    | nil => simp
    | cons x b =>
      have := x.isLt
      rw [List.drop_succ_cons, ih, le_cons, Nat.pow_succ, Nat.mul_comm (256 ^ i), ← Nat.div_div_eq_div_mul]
      congr 1
      omega

theorem le_take (b : Bytes) (n : Nat) : le (b.take n) = le b % 256 ^ n := by
  induction n generalizing b with
  | zero => simp [Nat.mod_one]
  | succ n ih =>
    cases b with
    | nil => simp
    | cons x b =>
      have := x.isLt
      rw [List.take_succ_cons, le_cons, le_cons, ih, Nat.pow_succ, Nat.mul_comm (256 ^ n), Nat.mod_mul]
      rw [show (x.toNat + 256 * le b) % 256 = x.toNat by omega, show (x.toNat + 256 * le b) / 256 = le b by omega]

theorem le_slice (b : Bytes) (i j : Nat) : le (slice b i j) = le b / 256 ^ i % 256 ^ (j - i) := by
  rw [slice, le_take, le_drop]

theorem and_mask26 (n : Nat) : n &&& mask26 = n % 2 ^ 26 := Nat.and_two_pow_sub_one_eq_mod n 26

/-! ## Fields and limbs -/

theorem toFields_value (l : Limbs) (h0 : l.l0 < 2 ^ 32) (h1 : l.l1 < 2 ^ 32) (h2 : l.l2 < 2 ^ 32) (h3 : l.l3 < 2 ^ 32)
    (h4 : l.l4 < 2 ^ 32) : Limbs.ofFields l.toFields = l := by
  obtain ⟨l0, l1, l2, l3, l4⟩ := l
  simp only [Limbs.ofFields, Limbs.toFields, Vector.get_eq_getElem]
  simp only [Limbs.mk.injEq]
  refine ⟨?_, ?_, ?_, ?_, ?_⟩ <;> exact Nat.mod_eq_of_lt ‹_›

theorem Limbs.Reduced.toFields {l : Limbs} (h : l.Reduced) : Limbs.ofFields l.toFields = l := by
  have := h.l0; have := h.l1; have := h.l2; have := h.l3; have := h.l4
  apply toFields_value <;> omega

/-- Reduced limbs stored and read again are reduced. -/
theorem reduced_toFields {l : Limbs} (h : l.Reduced) : (Limbs.ofFields l.toFields).Reduced := by
  rw [h.toFields]; exact h

theorem Limbs.Reduced.value_lt {l : Limbs} (h : l.Reduced) : l.value < 2 ^ 130 + 2 ^ 33 := by
  have := h.l0; have := h.l1; have := h.l2; have := h.l3; have := h.l4
  simp only [Limbs.value]
  omega

/-! ## Adding a block, multiplying, carrying -/

/-- The five cuts of a block of 16 bytes are the block's value. -/
theorem addBlock_value (h : Limbs) (b : Bytes) (hibit : Nat) (hb : b.length = 16) :
    (addBlock h b hibit).value = h.value + (le b + hibit * 2 ^ 128) := by
  have hlt : le b < 2 ^ 128 := by
    have := le_lt b
    rw [hb] at this
    exact Nat.lt_of_lt_of_eq this (by decide)
  have hor : ∀ a, a < 2 ^ 24 → a ||| hibit <<< 24 = a + hibit * 2 ^ 24 := by
    intro a ha
    rw [Nat.or_comm, ← Nat.shiftLeft_add_eq_or_of_lt ha, Nat.shiftLeft_eq, Nat.add_comm]
  simp only [addBlock, Limbs.value, le_slice, and_mask26, Nat.shiftRight_eq_div_pow]
  rw [hor _ (by omega)]
  omega

theorem addBlock_bounds (h : Limbs) (b : Bytes) (hibit : Nat) (hh : h.Reduced) (hi : hibit ≤ 1) :
    (addBlock h b hibit).l0 < 2 ^ 27 ∧ (addBlock h b hibit).l1 < 2 ^ 27 + 2 ^ 7 ∧ (addBlock h b hibit).l2 < 2 ^ 27
      ∧ (addBlock h b hibit).l3 < 2 ^ 27 ∧ (addBlock h b hibit).l4 < 2 ^ 27 := by
  have := hh.l0; have := hh.l1; have := hh.l2; have := hh.l3; have := hh.l4
  have hor : ∀ a, a < 2 ^ 24 → a ||| hibit <<< 24 = a + hibit * 2 ^ 24 := by
    intro a ha
    rw [Nat.or_comm, ← Nat.shiftLeft_add_eq_or_of_lt ha, Nat.shiftLeft_eq, Nat.add_comm]
  simp only [addBlock, le_slice, and_mask26, Nat.shiftRight_eq_div_pow]
  rw [hor _ (by omega)]
  omega

/-- The products, folded by 2^130 = p + 5, are the product of the numbers modulo p. -/
theorem limbProducts_value (h r s : Limbs) (h1 : s.l1 = 5 * r.l1) (h2 : s.l2 = 5 * r.l2) (h3 : s.l3 = 5 * r.l3)
    (h4 : s.l4 = 5 * r.l4) : (limbProducts h r s).value ≡ h.value * r.value [MOD polyP] := by
  have e : h.value * r.value = (limbProducts h r s).value
      + polyP * (h.l1 * r.l4 + h.l2 * r.l3 + h.l3 * r.l2 + h.l4 * r.l1
        + (h.l2 * r.l4 + h.l3 * r.l3 + h.l4 * r.l2) * 2 ^ 26 + (h.l3 * r.l4 + h.l4 * r.l3) * 2 ^ 52
        + h.l4 * r.l4 * 2 ^ 78) := by
    have hp : polyP = 1361129467683753853853498429727072845819 := by decide
    simp only [limbProducts, Limbs.value, h1, h2, h3, h4, hp]
    ring
  rw [e, Nat.ModEq, Nat.add_mul_mod_self_left]

/-- The carry chain keeps the number modulo p. -/
theorem carryChain_value (d : Limbs) : (carryChain d).value ≡ d.value [MOD polyP] := by
  have hp : polyP + 5 = 2 ^ 130 := by decide
  have split : ∀ n, n = n % 2 ^ 26 + n / 2 ^ 26 * 2 ^ 26 := fun n => by omega
  simp only [carryChain, and_mask26, Nat.shiftRight_eq_div_pow]
  generalize hd1 : d.l1 + d.l0 / 2 ^ 26 = d1
  generalize hd2 : d.l2 + d1 / 2 ^ 26 = d2
  generalize hd3 : d.l3 + d2 / 2 ^ 26 = d3
  generalize hd4 : d.l4 + d3 / 2 ^ 26 = d4
  have e : d.value = Limbs.value
      { l0 := (d.l0 % 2 ^ 26 + 5 * (d4 / 2 ^ 26)) % 2 ^ 26
        l1 := d1 % 2 ^ 26 + (d.l0 % 2 ^ 26 + 5 * (d4 / 2 ^ 26)) / 2 ^ 26
        l2 := d2 % 2 ^ 26, l3 := d3 % 2 ^ 26, l4 := d4 % 2 ^ 26 } + polyP * (d4 / 2 ^ 26) := by
    have hq : polyP * (d4 / 2 ^ 26) + 5 * (d4 / 2 ^ 26) = d4 / 2 ^ 26 * 2 ^ 130 := by rw [← Nat.add_mul, hp, Nat.mul_comm]
    generalize polyP * (d4 / 2 ^ 26) = z at *
    simp only [Limbs.value]
    omega
  rw [e, Nat.ModEq, Nat.add_mul_mod_self_left]

theorem mul_le_of_lt {a b A B : Nat} (ha : a < A) (hb : b < B) : a * b ≤ A * B :=
  Nat.mul_le_mul (Nat.le_of_lt ha) (Nat.le_of_lt hb)

/-- Carrying the products of bounded limbs leaves reduced limbs. -/
theorem carryChain_reduced (h r s : Limbs) (hb : h.l0 < 2 ^ 27 ∧ h.l1 < 2 ^ 27 + 2 ^ 7 ∧ h.l2 < 2 ^ 27 ∧ h.l3 < 2 ^ 27
      ∧ h.l4 < 2 ^ 27)
    (hr : r.l0 < 2 ^ 26 ∧ r.l1 < 2 ^ 26 ∧ r.l2 < 2 ^ 26 ∧ r.l3 < 2 ^ 26 ∧ r.l4 < 2 ^ 26)
    (hs : s.l1 < 5 * 2 ^ 26 ∧ s.l2 < 5 * 2 ^ 26 ∧ s.l3 < 5 * 2 ^ 26 ∧ s.l4 < 5 * 2 ^ 26) :
    (carryChain (limbProducts h r s)).Reduced := by
  obtain ⟨a0, a1, a2, a3, a4⟩ := hb
  obtain ⟨b0, b1, b2, b3, b4⟩ := hr
  obtain ⟨c1, c2, c3, c4⟩ := hs
  have d0 : (limbProducts h r s).l0 ≤ 5 * ((2 ^ 27 + 2 ^ 7) * (5 * 2 ^ 26)) := by
    have := mul_le_of_lt a0 b0; have := mul_le_of_lt a1 c4; have := mul_le_of_lt a2 c3
    have := mul_le_of_lt a3 c2; have := mul_le_of_lt a4 c1
    simp only [limbProducts]; omega
  have d1 : (limbProducts h r s).l1 ≤ 5 * ((2 ^ 27 + 2 ^ 7) * (5 * 2 ^ 26)) := by
    have := mul_le_of_lt a0 b1; have := mul_le_of_lt a1 b0; have := mul_le_of_lt a2 c4
    have := mul_le_of_lt a3 c3; have := mul_le_of_lt a4 c2
    simp only [limbProducts]; omega
  have d2 : (limbProducts h r s).l2 ≤ 5 * ((2 ^ 27 + 2 ^ 7) * (5 * 2 ^ 26)) := by
    have := mul_le_of_lt a0 b2; have := mul_le_of_lt a1 b1; have := mul_le_of_lt a2 b0
    have := mul_le_of_lt a3 c4; have := mul_le_of_lt a4 c3
    simp only [limbProducts]; omega
  have d3 : (limbProducts h r s).l3 ≤ 5 * ((2 ^ 27 + 2 ^ 7) * (5 * 2 ^ 26)) := by
    have := mul_le_of_lt a0 b3; have := mul_le_of_lt a1 b2; have := mul_le_of_lt a2 b1
    have := mul_le_of_lt a3 b0; have := mul_le_of_lt a4 c4
    simp only [limbProducts]; omega
  have d4 : (limbProducts h r s).l4 ≤ 5 * ((2 ^ 27 + 2 ^ 7) * 2 ^ 26) := by
    have := mul_le_of_lt a0 b4; have := mul_le_of_lt a1 b3; have := mul_le_of_lt a2 b2
    have := mul_le_of_lt a3 b1; have := mul_le_of_lt a4 b0
    simp only [limbProducts]; omega
  generalize limbProducts h r s = d at *
  constructor <;> simp only [carryChain, and_mask26, Nat.shiftRight_eq_div_pow] <;> omega

/-! ## The session -/

theorem ofFields_r (p : PolyMac) (hp : p.Inv) :
    (Limbs.ofFields p.r).l0 < 2 ^ 26 ∧ (Limbs.ofFields p.r).l1 < 2 ^ 26 ∧ (Limbs.ofFields p.r).l2 < 2 ^ 26
      ∧ (Limbs.ofFields p.r).l3 < 2 ^ 26 ∧ (Limbs.ofFields p.r).l4 < 2 ^ 26 :=
  ⟨hp.r 0, hp.r 1, hp.r 2, hp.r 3, hp.r 4⟩

theorem s5Limbs_eq (p : PolyMac) (hp : p.Inv) :
    p.s5Limbs.l1 = 5 * (Limbs.ofFields p.r).l1 ∧ p.s5Limbs.l2 = 5 * (Limbs.ofFields p.r).l2
      ∧ p.s5Limbs.l3 = 5 * (Limbs.ofFields p.r).l3 ∧ p.s5Limbs.l4 = 5 * (Limbs.ofFields p.r).l4 :=
  ⟨hp.s5 0, hp.s5 1, hp.s5 2, hp.s5 3⟩

theorem absorbBlock_reduced (p : PolyMac) (b : Bytes) (hibit : Nat) (hp : p.Inv) (hi : hibit ≤ 1) :
    (carryChain (limbProducts (addBlock (Limbs.ofFields p.h) b hibit) (Limbs.ofFields p.r) p.s5Limbs)).Reduced := by
  obtain ⟨e1, e2, e3, e4⟩ := s5Limbs_eq p hp
  obtain ⟨b0, b1, b2, b3, b4⟩ := ofFields_r p hp
  exact carryChain_reduced _ _ _ (addBlock_bounds _ b hibit hp.h hi) ⟨b0, b1, b2, b3, b4⟩
    (by rw [e1, e2, e3, e4]; omega)

theorem absorbBlock_inv (p : PolyMac) (b : Bytes) (hibit : Nat) (hp : p.Inv) (hi : hibit ≤ 1) :
    (p.absorbBlock b hibit).Inv := by
  have hred := absorbBlock_reduced p b hibit hp hi
  exact { h := by rw [PolyMac.absorbBlock, hred.toFields]; exact hred, r := hp.r, s5 := hp.s5, fill := hp.fill }

theorem polyAbsorbByte_inv (p : PolyMac) (d : Byte) (hp : p.Inv) : (p.absorbByte d).Inv := by
  have hfill := hp.fill
  simp only [PolyMac.absorbByte]
  split
  · next h16 =>
    have hred := absorbBlock_reduced p (p.buf.setIfInBounds p.fill d).toList 1 hp (le_refl _)
    refine { h := ?_, r := hp.r, s5 := hp.s5, fill := Nat.zero_le _ }
    exact reduced_toFields hred
  · next h16 => exact { h := hp.h, r := hp.r, s5 := hp.s5, fill := by simp only; omega }

theorem polyAbsorb_inv (p : PolyMac) (data : Bytes) (hp : p.Inv) : (p.absorb data).Inv := by
  induction data generalizing p with
  | nil => exact hp
  | cons d ds ih => exact ih _ (polyAbsorbByte_inv p d hp)

theorem poly_absorb_append (p : PolyMac) (xs ys : Bytes) : p.absorb (xs ++ ys) = (p.absorb xs).absorb ys :=
  List.foldl_append ..

theorem polyFlush_inv (p : PolyMac) (hp : p.Inv) : p.flush.Inv := by
  simp only [PolyMac.flush]
  split
  · have h := absorbBlock_inv p (p.buf.toList.take p.fill ++ [1] ++ zeros (15 - p.fill)) 0 hp (by omega)
    exact { h := h.h, r := h.r, s5 := h.s5, fill := by simp only; omega }
  · exact hp

theorem finalCarry_reduced (h : Limbs) (hh : h.Reduced) : (finalCarry h).Reduced := by
  have := hh.l0; have := hh.l1; have := hh.l2; have := hh.l3; have := hh.l4
  constructor <;> simp only [finalCarry, and_mask26, Nat.shiftRight_eq_div_pow] <;> omega

theorem polyFinish_inv (p : PolyMac) (hp : p.Inv) : p.finish.Inv := by
  have hf := polyFlush_inv p hp
  have hred := finalCarry_reduced _ hf.h
  exact { h := reduced_toFields hred, r := hf.r, s5 := hf.s5, fill := hf.fill }

theorem keyLimbs_bounds (key : Bytes) :
    (keyLimbs key).l0 < 2 ^ 26 ∧ (keyLimbs key).l1 < 2 ^ 26 ∧ (keyLimbs key).l2 < 2 ^ 26 ∧ (keyLimbs key).l3 < 2 ^ 26
      ∧ (keyLimbs key).l4 < 2 ^ 26 := by
  refine ⟨?_, ?_, ?_, ?_, ?_⟩ <;> exact Nat.lt_of_le_of_lt Nat.and_le_right (by decide)

theorem polyInit_inv (p : PolyMac) (key : Bytes) : (p.init key).Inv := by
  obtain ⟨b0, b1, b2, b3, b4⟩ := keyLimbs_bounds key
  have hr : Limbs.ofFields (keyLimbs key).toFields = keyLimbs key := by apply toFields_value <;> omega
  refine { h := ?_, r := fun i => ?_, s5 := fun i => ?_, fill := Nat.zero_le _ }
  · constructor <;> simp [PolyMac.init, Limbs.ofFields, Vector.get_eq_getElem]
  · have h0 := congrArg Limbs.l0 hr
    have h1 := congrArg Limbs.l1 hr
    have h2 := congrArg Limbs.l2 hr
    have h3 := congrArg Limbs.l3 hr
    have h4 := congrArg Limbs.l4 hr
    simp only [Limbs.ofFields] at h0 h1 h2 h3 h4
    simp only [PolyMac.init]
    fin_cases i
    · exact h0 ▸ b0
    · exact h1 ▸ b1
    · exact h2 ▸ b2
    · exact h3 ▸ b3
    · exact h4 ▸ b4
  · have h1 := congrArg Limbs.l1 hr
    have h2 := congrArg Limbs.l2 hr
    have h3 := congrArg Limbs.l3 hr
    have h4 := congrArg Limbs.l4 hr
    simp only [Limbs.ofFields] at h1 h2 h3 h4
    simp only [PolyMac.init]
    have e : ∀ n, n < 2 ^ 26 → (BitVec.ofNat 32 (5 * n)).toNat = 5 * n := fun n hn => by
      rw [BitVec.toNat_ofNat]; omega
    fin_cases i
    · exact (e _ b1).trans (by rw [← h1]; rfl)
    · exact (e _ b2).trans (by rw [← h2]; rfl)
    · exact (e _ b3).trans (by rw [← h3]; rfl)
    · exact (e _ b4).trans (by rw [← h4]; rfl)

end Sys2Proof.Machine
end

