-- ==== Sys2Proof/Laws/Shuffle.lean ====
section
/-! SUPPORT. A ShuffleBag's swaps undo themselves (spec/46_host_sequences.md R264, R265). -/

namespace Sys2Proof.Machine

variable {α : Type}

@[simp] theorem length_shuffleSwap (xs : List α) (i j : Nat) : (shuffleSwap xs i j).length = xs.length := by
  rw [shuffleSwap]
  split
  · rw [List.length_set, List.length_set]
  · rfl

/-- Swapping the same two slots again restores the array. -/
theorem shuffleSwap_shuffleSwap (xs : List α) (i j : Nat) : shuffleSwap (shuffleSwap xs i j) i j = xs := by
  by_cases h : i < xs.length ∧ j < xs.length
  · obtain ⟨hi, hj⟩ := h
    have key : ∀ ys : List α, ∀ (hi : i < ys.length) (hj : j < ys.length),
        shuffleSwap ys i j = (ys.set i ys[j]).set j ys[i] := by
      intro ys hi hj
      rw [shuffleSwap, List.getElem?_eq_getElem hi, List.getElem?_eq_getElem hj]
    rw [key _ (by simpa using hi) (by simpa using hj)]
    apply List.ext_getElem
    · simp
    · intro k h1 h2
      simp only [key xs hi hj, List.getElem_set]
      split <;> split <;> simp_all
  · have same : shuffleSwap xs i j = xs := by
      rw [shuffleSwap]
      split
      · next a b ha hb =>
        exact absurd ⟨(List.getElem?_eq_some_iff.mp ha).1, (List.getElem?_eq_some_iff.mp hb).1⟩ h
      · rfl
    rw [same, same]

/-- The reverse step with the draw's index gives back the bag before the draw. -/
theorem untake_take (b b' : ShuffleBag α) (i : Nat) (a : α) (h : b.take i = some (a, b')) : b'.untake i = b := by
  obtain ⟨elems, offset, remaining⟩ := b
  cases remaining with
  | zero => cases h
  | succ m =>
    simp only [ShuffleBag.take, Option.map_eq_some_iff, Prod.mk.injEq] at h
    obtain ⟨_, -, -, rfl⟩ := h
    simp only [ShuffleBag.untake, shuffleSwap_shuffleSwap]

end Sys2Proof.Machine
end

