-- ==== Sys2Proof/Laws/Step.lean ====
section
/-! SUPPORT. What a step can do, said once: which of the host's events it takes and what it answers (spec/10_state.md R24;
spec/20_memory.md R72; spec/70_reset_and_hazards.md R380). -/

namespace Sys2Proof.Machine

theorem step_idle {s : State} (h : s.port = []) : step s = .next s := by
  rw [step, State.takeEvent, h]

theorem step_command {s : State} {w : Word32} {rest : List HostEvent} (h : s.port = .command w :: rest) :
    step s = acceptCommand w { s with port := rest } := by
  rw [step, State.takeEvent, h]

theorem step_writeBuf {s : State} {a : Nat} {bs : Bytes} {rest : List HostEvent} (h : s.port = .writeBuf a bs :: rest) :
    step s = hostWrite a bs { s with port := rest } := by
  rw [step, State.takeEvent, h]

theorem step_reset {s : State} {rest : List HostEvent} (h : s.port = .reset :: rest) :
    step s = .next (resetEvent { s with port := rest }) := by
  rw [step, State.takeEvent, h]

/-- A word either decodes and is executed, or is refused with ILLEGAL_CMD. -/
theorem acceptCommand_cases (w : Word32) (s : State) :
    (∃ i, decode w = .ok i ∧ acceptCommand w s = exec i s)
      ∨ (∃ e, decode w = .error e ∧ acceptCommand w s = .next (s.raise w (.usage .illegalCmd))) := by
  rw [acceptCommand]
  cases decode w with
  | ok i => exact .inl ⟨i, rfl, rfl⟩
  | error e => exact .inr ⟨e, rfl, rfl⟩

/-- A host write inside BUF writes; one outside stops. -/
theorem hostWrite_cases (a : Nat) (bs : Bytes) (s : State) :
    (s.spanOk a bs.length = true ∧ hostWrite a bs s = .next (s.memWrite a bs))
      ∨ (s.spanOk a bs.length = false ∧ hostWrite a bs s = .fault .hostWriteOutsideBuf) := by
  rw [hostWrite]
  cases h : s.spanOk a bs.length
  · exact .inr ⟨rfl, if_neg (by simp)⟩
  · exact .inl ⟨rfl, if_pos rfl⟩

/-- Everything a step that answers a next state can have done. -/
theorem step_next_cases {s t : State} (h : step s = .next t) :
    (s.port = [] ∧ t = s)
      ∨ (∃ w rest i, s.port = .command w :: rest ∧ decode w = .ok i ∧ exec i { s with port := rest } = .next t)
      ∨ (∃ w rest e, s.port = .command w :: rest ∧ decode w = .error e
          ∧ t = ({ s with port := rest } : State).raise w (.usage .illegalCmd))
      ∨ (∃ a bs rest, s.port = .writeBuf a bs :: rest ∧ s.spanOk a bs.length = true
          ∧ t = ({ s with port := rest } : State).memWrite a bs)
      ∨ (∃ rest, s.port = .reset :: rest ∧ t = State.afterReset s.cfg (s.resets + 1) rest) := by
  cases hp : s.port with
  | nil =>
    rw [step_idle hp] at h
    exact .inl ⟨rfl, (Host.Outcome.next.inj h).symm⟩
  | cons e rest =>
    cases e with
    | command w =>
      rw [step_command hp] at h
      obtain ⟨i, hd, he⟩ | ⟨e, hd, he⟩ := acceptCommand_cases w { s with port := rest }
      · exact .inr (.inl ⟨w, rest, i, rfl, hd, he.symm.trans h⟩)
      · exact .inr (.inr (.inl ⟨w, rest, e, rfl, hd, (Host.Outcome.next.inj (he.symm.trans h)).symm⟩))
    | writeBuf a bs =>
      rw [step_writeBuf hp] at h
      obtain ⟨hs, he⟩ | ⟨hs, he⟩ := hostWrite_cases a bs { s with port := rest }
      · exact .inr (.inr (.inr (.inl ⟨a, bs, rest, rfl, hs, (Host.Outcome.next.inj (he.symm.trans h)).symm⟩)))
      · rw [he] at h
        nomatch h
    | reset =>
      rw [step_reset hp] at h
      exact .inr (.inr (.inr (.inr ⟨rest, rfl, (Host.Outcome.next.inj h).symm⟩)))

end Sys2Proof.Machine
end

