-- ==== Sys2Proof/Tests/Slice0.lean ====
section
/-! SUPPORT. Tests of the model. The expected results are those of spec/95_test_vectors.md (V-..) and of the examples in the rules (R..),
none of them computed with the model; then, for every statement that has hypotheses, concrete states that meet them. -/

-- One theorem at a time: the kernel's evaluations side by side would need more memory than the check has.
set_option Elab.async false

open Sys2Proof Sys2Proof.Machine

namespace Sys2Proof.Tests

/-! ## Building and running a small state -/

/-- The n bytes that the spec prints as the hexadecimal number v. -/
def hex (n v : Nat) : Bytes := (List.range n).map fun k => BitVec.ofNat 8 (v / 256 ^ (n - 1 - k))

/-- The n bytes a, a + 1, a + 2, ... -/
def run (a n : Nat) : Bytes := (List.range n).map fun k => BitVec.ofNat 8 (a + k)

/-- The reset state with values in registers and byte strings in BUF. -/
def mk (rs : List (Reg × Nat)) (ms : List (Nat × Bytes)) : State :=
  ms.foldl (fun s m => s.memWrite m.1 m.2) (rs.foldl (fun s r => s.setXNat r.1 r.2) State.reset)

/-- The next state of a result, if it has one. -/
def next? : Result → Option State
  | .next t => some t
  | .fault _ => none
  | .refused _ => none

/-- The next state of a result; reset if it has none. -/
def nextOf : Result → State
  | .next t => t
  | .fault _ => State.reset
  | .refused _ => State.reset

/-- The state after a command. -/
def after (i : Instr) (s : State) : State := nextOf (exec i s)

/-- The state after a word given on the port. -/
def afterWord (w : Nat) (s : State) : State := nextOf (step (s.withFetchWord 32 w))

/-- The command answered a next state. -/
def runs (i : Instr) (s : State) : Bool := (next? (exec i s)).isSome

theorem runs_next {i : Instr} {s : State} (h : runs i s = true) : exec i s = .next (after i s) := by
  simp only [runs, after] at *
  generalize exec i s = r at *
  cases r with
  | next t => rfl
  | fault f => simp [next?] at h
  | refused f => simp [next?] at h

/-- The command completed OK. -/
def okAfter (i : Instr) (s : State) : Bool := (after i s).status == some .ok

/-- The command raised the error whose record the spec prints, and its status is the record's cause. -/
def refusedWith (record : Nat) (i : Instr) (s : State) : Bool :=
  (after i s).lasterr.toNat == record && ((after i s).status.map Status.code) == some (record % 4)

/-! ## WellFormed: each check refuses an ill-formed term -/

theorem test_rdsr_number_five_is_ill_formed : Instr.wellFormed (.rdsr 0 5) = false := by decide
theorem test_rdsr_number_four_is_well_formed : Instr.wellFormed (.rdsr 15 4) = true := by decide
theorem test_kdf_cfg_variant_two_is_ill_formed : Instr.wellFormed (.kdfCfg 2 4 2) = false := by decide
theorem test_kdf_cfg_variant_one_is_well_formed : Instr.wellFormed (.kdfCfg 2 4 1) = true := by decide

/-! ## Decoding: words written out from the fields of spec/30_encoding.md R91, R92, R96 -/

theorem test_decode_control :
    decode 0x00000000 = .ok .nop ∧ decode 0x01FFFFFF = .ok (.ldi 15 0xFFFFF) ∧ decode 0x0216789A = .ok (.lds 1 0x6789A)
      ∧ decode 0x03290000 = .ok (.mov 2 9) ∧ decode 0x04C00003 = .ok (.rdsr 12 3) ∧ decode 0x05000000 = .ok .clrerr := by
  decide +kernel

theorem test_decode_blake2 :
    decode 0x10020000 = .ok (.b2bInit 0 2) ∧ decode 0x11E30000 = .ok (.b2sInit 14 3) ∧ decode 0x12400000 = .ok (.b2Update 4)
      ∧ decode 0x13600000 = .ok (.b2Final 6) := by
  decide +kernel

theorem test_decode_chacha :
    decode 0x20F20000 = .ok (.cc20Init 15 2) ∧ decode 0x21020000 = .ok (.xcc20Init 0 2)
      ∧ decode 0x22648000 = .ok (.ccXform 6 4 8) := by
  decide +kernel

theorem test_decode_poly1305 :
    decode 0x30000000 = .ok (.p13Init 0) ∧ decode 0x31400000 = .ok (.p13Update 4) ∧ decode 0x32600000 = .ok (.p13Final 6) := by
  decide +kernel

theorem test_decode_aead :
    decode 0x40024000 = .ok (.aeadInit 0 2 4) ∧ decode 0x4186A000 = .ok (.aeadEnc 8 6 10)
      ∧ decode 0x4286A000 = .ok (.aeadDec 8 6 10) := by
  decide +kernel

theorem test_decode_kdf :
    decode 0x50240001 = .ok (.kdfCfg 2 4 1) ∧ decode 0x5168A000 = .ok (.pbkdf2 6 8 10)
      ∧ decode 0x52680000 = .ok (.hkdf 6 8) := by
  decide +kernel

theorem test_decode_pcg32 :
    decode 0x60120000 = .ok (.pcgSeed 1 2) ∧ decode 0x61300000 = .ok (.pcgNext 3) ∧ decode 0x62B76000 = .ok (.pcgRange 11 7 6)
      ∧ decode 0x63900000 = .ok (.pcgJump 9) ∧ decode 0x64500000 = .ok (.pcgGets 5) := by
  decide +kernel

theorem test_decode_rotations :
    decode 0x70D4C000 = .ok (.rotl32 13 4 12) ∧ decode 0x71123000 = .ok (.rotr32 1 2 3)
      ∧ decode 0x72F0E000 = .ok (.rotl64 15 0 14) ∧ decode 0x73456000 = .ok (.rotr64 4 5 6) := by
  decide +kernel

theorem test_decode_counts :
    decode 0x74120000 = .ok (.lzcnt32 1 2) ∧ decode 0x75210000 = .ok (.lzcnt64 2 1) ∧ decode 0x76340000 = .ok (.tzcnt32 3 4)
      ∧ decode 0x77430000 = .ok (.tzcnt64 4 3) ∧ decode 0x78E40000 = .ok (.popcnt32 14 4)
      ∧ decode 0x79560000 = .ok (.popcnt64 5 6) := by
  decide +kernel

theorem test_decode_logarithms_gcd_modinv :
    decode 0x7A780000 = .ok (.log2f 7 8) ∧ decode 0x7B870000 = .ok (.log2c 8 7) ∧ decode 0x7C9A0000 = .ok (.ispow2 9 10)
      ∧ decode 0x7DF46000 = .ok (.gcd 15 4 6) ∧ decode 0x7E010000 = .ok (.modinv 0 1) := by
  decide +kernel

theorem test_decode_spans : decode 0x8006C000 = .ok (.cteq 0 6 12) ∧ decode 0x81624000 = .ok (.xorb 6 2 4) := by
  decide +kernel

/-- V-E2, V-E3, V-E5, V-E6, V-E9, V-E11, V-E16, V-E18, V-E22, V-E24: a must-be-zero field. -/
theorem test_decode_must_be_zero :
    ([0x00000001, 0x00100000, 0x03291000, 0x03290100, 0x04010000, 0x05100000, 0x12410000, 0x22648100, 0x22648001,
        0x7E011000, 0x64510000] : List Word32).map decode
      = List.replicate 11 (.error .mustBeZero) := by
  decide +kernel

/-- V-E8, V-E20: an immediate out of range. -/
theorem test_decode_immediate_range :
    ([0x04000005, 0x50240002] : List Word32).map decode
      = List.replicate 2 (.error .immediateRange) := by
  decide +kernel

/-- V-E12: an unassigned opcode. -/
theorem test_decode_unassigned :
    ([0x06000000, 0x0F000000, 0x14000000, 0x7F000000, 0x82000000, 0xFFFFFFFF] : List Word32).map decode
      = List.replicate 6 (.error .unassignedOpcode) := by
  decide +kernel

/-- The host's entry answers none on an illegal word and the command on a legal one (V-E18, V-E17). -/
theorem test_decode_table_word :
    decodeTableWord 32 0x22648001 = none ∧ decodeTableWord 32 0x22648000 = some (.ccXform 6 4 8) := by
  decide +kernel

/-- Assembly text of R100's examples. -/
theorem test_assembly_text : asm (.ccXform 6 4 8) = "CC.XFORM x6, s4, x8" ∧ asm (.ldi 4 0x100) = "LDI x4, 256" := by
  decide +kernel

/-! ## Control (V-E*, V-C1, V-C2, R120 to R125) -/

/-- V-E1. -/
theorem test_nop : (afterWord 0 State.reset).cmdcnt = 1 ∧ (afterWord 0 State.reset).status = some .ok := by decide +kernel

/-- V-E2: SR0, SR1, SR2, CMDCNT and status after an illegal word. -/
theorem test_illegal_word :
    let t := afterWord 0x00000001 State.reset
    t.errflags = 1 ∧ t.lasterr = 0x0101 ∧ t.lastcmd = 1 ∧ t.cmdcnt = 1 ∧ t.status = some .usageError := by
  decide +kernel

/-- R121: the upper 44 bits become zero. -/
theorem test_ldi : (after (.ldi 4 0x100) (mk [(4, 2 ^ 64 - 1)] [])).xNat 4 = 0x100 := by decide +kernel

/-- V-C1 (its last command), V-C2. -/
theorem test_lds :
    (after (.lds 1 0xBCDEF) (mk [(1, 0x123456789A)] [])).xNat 1 = 0x0123456789ABCDEF
      ∧ (after (.lds 9 0) (mk [(9, 2 ^ 64 - 1)] [])).xNat 9 = 0xFFFFFFFFFFF00000 := by
  decide +kernel

theorem test_mov : (after (.mov 2 9) (mk [(9, 2 ^ 64 - 1)] [])).xNat 2 = 2 ^ 64 - 1 := by decide +kernel

/-- V-E7, and SR3 = 0x9 of a keyed session (V-B21). -/
theorem test_rdsr :
    (afterWord 0x04000004 (mk [(0, 7)] [])).xNat 0 = 0
      ∧ (after (.rdsr 8 3) { State.reset with b2 := Blake2.zero.init .blake2b (run 0 64) 64 }).xNat 8 = 0x9 := by
  decide +kernel

/-- V-S1: the record after MODINV of an even value, then CLRERR. -/
theorem test_clrerr :
    let s := after (.modinv 0 1) (mk [(1, 2)] [])
    s.errflags = 1 ∧ s.lastcmd = 0x7E010000 ∧ (after .clrerr s).errflags = 0 ∧ (after .clrerr s).lasterr = 0
      ∧ (after .clrerr s).lastcmd = 0 := by
  decide +kernel

/-! ## BLAKE2 -/

/-- V-B21; the first word of R142 for a 64-byte key and digest. -/
theorem test_b2b_init :
    let t := after (.b2bInit 0 2) (mk [(0, 0x100), (1, 64), (2, 64)] [(0x100, run 0 64)])
    t.b2.fill = 128 ∧ t.b2.t = 128 ∧ t.b2.cfb = true ∧ t.phaseWord = 0x9
      ∧ t.b2.h.get 0 = 0x6A09E667F3BCC908 ^^^ 0x01014040 := by
  decide +kernel

/-- V-B31, V-B32, V-B35, V-B36, V-B37. -/
theorem test_b2b_init_checks :
    refusedWith 0x0301 (.b2bInit 0 2) (mk [(2, 65)] []) ∧ refusedWith 0x0301 (.b2bInit 0 2) (mk [(1, 65), (2, 64)] [])
      ∧ refusedWith 0x0501 (.b2bInit 0 2) (mk [(0, 65473), (1, 64), (2, 64)] [])
      ∧ okAfter (.b2bInit 0 2) (mk [(0, 65472), (1, 64), (2, 64)] [(65472, run 0 64)])
      ∧ refusedWith 0x0301 (.b2bInit 0 2) (mk [(0, 65536), (1, 65), (2, 64)] []) := by
  decide +kernel

/-- V-B33, V-B34; BLAKE2s with the largest lengths. -/
theorem test_b2s_init :
    refusedWith 0x0301 (.b2sInit 0 2) (mk [(2, 33)] []) ∧ refusedWith 0x0301 (.b2sInit 0 2) (mk [(1, 33), (2, 32)] [])
      ∧ (after (.b2sInit 0 2) (mk [(1, 32), (2, 32)] [(0, run 0 32)])).b2.h.get 0 = 0x6A09E667 ^^^ 0x01012020 := by
  decide +kernel

/-- V-B20, second and third UPDATE: a full buffer is compressed only when the next byte arrives. -/
theorem test_b2_update_is_lazy :
    let s := mk [(4, 0x100), (5, 127)] [(0x100, run 1 127)]
    let u := after (.b2Update 4) { s with b2 := (Blake2.zero.init .blake2b [] 64).absorb (run 0 1) }
    u.b2.fill = 128 ∧ u.b2.t = 0
      ∧ (after (.b2Update 4) (u.setXNat 5 1)).b2.fill = 1 ∧ (after (.b2Update 4) (u.setXNat 5 1)).b2.t = 128 := by
  decide +kernel

/-- V-B38, V-B39, V-B40, V-B41. -/
theorem test_b2_update_checks :
    let active := fun a n => { mk [(4, a), (5, n)] [] with b2 := Blake2.zero.init .blake2b [] 64 }
    refusedWith 0x0201 (.b2Update 4) State.reset ∧ refusedWith 0x0501 (.b2Update 4) (active 65535 2)
      ∧ refusedWith 0x0501 (.b2Update 4) (active (2 ^ 64 - 1) 2) ∧ okAfter (.b2Update 4) (active (2 ^ 64 - 1) 0) := by
  decide +kernel

/-- V-B12: BLAKE2s of "abc" (the published answer), written by FINAL; the session is DONE. -/
theorem test_b2_final_blake2s :
    let t := after (.b2Final 6)
      { mk [(6, 0x200)] [] with b2 := (Blake2.zero.init .blake2s [] 32).absorb (hex 3 0x616263) }
    t.memRead 0x200 32 = hex 32 0x508C5E8C327C14E2E1A72BA34EEB452F37458B209ED63A294D999B4C86675982
      ∧ t.b2.phase = .done ∧ t.b2.t = 3 ∧ t.b2.fill = 0 := by
  decide +kernel

/-- V-B3: BLAKE2b with a 64-byte key and an empty message. -/
theorem test_b2_final_blake2b_keyed :
    (after (.b2Final 6) { mk [(6, 0x200)] [] with b2 := Blake2.zero.init .blake2b (run 0 64) 64 }).memRead 0x200 64
      = hex 64 0x10EBB67700B1868EFB4417987ACF4690AE9D972FB7A590C2F02871799AAA4786B5E996E8F0F4EB981FC214B005F42D2FF4233499391653DF7AEFCBC13FC51568 := by
  decide +kernel

/-! ## ChaCha -/

/-- V-X1. -/
theorem test_quarter_round :
    let x := quarterRound #v[0x11111111, 0x01020304, 0x9B8D6F43, 0x01234567, 0, 0, 0, 0, 0, 0, 0, 0, 0, 0, 0, 0] 0 1 2 3
    x.get 0 = 0xEA2A92F4 ∧ x.get 1 = 0xCB1CF8CE ∧ x.get 2 = 0x4581472E ∧ x.get 3 = 0x5881C4BB := by
  decide +kernel

/-- The nonce words of V-A1's context; V-X20, V-X21. -/
theorem test_cc20_init :
    let s := mk [(1, 32), (2, 0x20), (3, 12)] [(0, run 0x80 32), (0x20, hex 12 0x070000004041424344454647)]
    ((after (.cc20Init 0 2) s).cc.w.toList.drop 12 = [0, 7, 0x43424140, 0x47464544])
      ∧ refusedWith 0x0301 (.cc20Init 0 2) (s.setXNat 1 31) ∧ refusedWith 0x0301 (.cc20Init 0 2) (s.setXNat 3 24) := by
  decide +kernel

/-- Words 4 to 15 of P4's context; V-X21. -/
theorem test_xcc20_init :
    let s := mk [(1, 32), (2, 0x40), (3, 24)]
      [(0, run 0 32), (0x40, hex 24 0x000000090000004A00000000314159270102030405060708)]
    (after (.xcc20Init 0 2) s).cc.w.toList.drop 4
        = [0x423B4182, 0xFE7BB227, 0x50420ED3, 0x737D878A, 0xD5E4F9A0, 0x53A8748A, 0x13C42EC1, 0xDCECD326, 0, 0, 0x04030201,
           0x08070605]
      ∧ (after (.xcc20Init 0 2) s).phaseWord = 0x50 ∧ refusedWith 0x0301 (.xcc20Init 0 2) (s.setXNat 3 12) := by
  decide +kernel

/-- A READY ChaCha20 context of key 00..1F and a 12-byte nonce. -/
def ccReady (nonce : Nat) (s : State) : State :=
  { s with cc := { phase := .ready, var := .chacha20, w := chacha20Words (run 0 32) (hex 12 nonce) } }

/-- A READY XChaCha20 context. -/
def xccReady (s : State) : State :=
  { s with cc := { phase := .ready, var := .xchacha20, w := xchacha20Words (run 0x80 32) (run 0x40 24) } }

/-- V-X4's first 8 bytes of plaintext and of ciphertext, in place; the counter register. -/
theorem test_cc_xform :
    let t := after (.ccXform 4 4 6) (ccReady 0x000000000000004A00000000 (mk [(4, 0x100), (5, 8), (6, 1)]
      [(0x100, hex 8 0x4C61646965732061)]))
    t.memRead 0x100 8 = hex 8 0x6E2E359A2568F980 ∧ t.xNat 6 = 2 := by
  decide +kernel

/-- V-X22 to V-X28. -/
theorem test_cc_xform_checks :
    let s := fun n d c => mk [(4, 0x100), (5, n), (6, c), (7, d)] [(0x100, run 0 65)]
    refusedWith 0x0201 (.ccXform 7 4 6) (s 64 0x200 0)
      ∧ refusedWith 0x0701 (.ccXform 7 4 6) (ccReady 0 (s 64 0x200 (2 ^ 32)))
      ∧ (after (.ccXform 7 4 6) (xccReady (s 64 0x200 (2 ^ 64 - 2)))).xNat 6 = 2 ^ 64 - 1
      ∧ refusedWith 0x0003 (.ccXform 7 4 6) (xccReady (s 65 0x200 (2 ^ 64 - 2)))
      ∧ okAfter (.ccXform 7 4 6) (xccReady (s 0 0x200 (2 ^ 64 - 1)))
      ∧ refusedWith 0x0601 (.ccXform 7 4 6) (ccReady 0 (s 64 0x120 (2 ^ 32))) := by
  decide +kernel

/-- V-X8: the carry into the nonce word; both blocks' first bytes. -/
theorem test_block_counter_carry :
    let w := chacha20Words (run 0 32) (hex 12 0x000000090000004A00000000)
    (chachaBlock w (firstCounter w 0xFFFFFFFF)).take 8 = hex 8 0xFF2941B8D740F6CB
      ∧ (chachaBlock w (firstCounter w 0xFFFFFFFF + 1)).take 8 = hex 8 0x880B67B55162BCA2 := by
  decide +kernel

/-! ## Poly1305 -/

/-- V-P1's key. -/
def polyKey : Bytes := hex 32 0x85D6BE7857556D337F4452FE42D506A80103808AFB0DB2FD4ABFF6AF4149F51B

/-- The limbs of V-P1; a key span of 16 bytes. -/
theorem test_p13_init :
    let s := mk [(1, 32)] [(0, polyKey)]
    (after (.p13Init 0) s).p13.mac.r.toList = [0x0BED685, 0x3555502, 0x047C036, 0x1003949, 0x00806D5]
      ∧ refusedWith 0x0301 (.p13Init 0) (s.setXNat 1 16) := by
  decide +kernel

/-- V-P11's second UPDATE: the accumulator after V-P1's first block, one byte left over. -/
theorem test_p13_update :
    let m := hex 17 0x43727970746F6772617068696320466F72
    let t := after (.p13Update 4) { mk [(4, 0x100), (5, 16)] [(0x100, m.drop 1)] with
      p13 := { phase := .active, mac := (PolyMac.zero.init polyKey).absorb (m.take 1) } }
    t.p13.mac.h.toList = [0x29C83FC, 0x37AE239, 0x2E9147D, 0x2127592, 0x2C88C77] ∧ t.p13.mac.fill = 1 := by
  decide +kernel

/-- V-P1 (the published answer), and V-P6, where the addition of s wraps. -/
theorem test_p13_final :
    let fin := fun key m => (after (.p13Final 6) { mk [(6, 65520)] [] with
      p13 := { phase := .active, mac := (PolyMac.zero.init key).absorb m } }).memRead 65520 16
    fin polyKey (hex 34 0x43727970746F6772617068696320466F72756D2052657365617263682047726F7570)
        = hex 16 0xA8061DC1305136C6C22B8BAF0C0127A9
      ∧ fin (hex 1 2 ++ zeros 15 ++ List.replicate 16 0xFF) (hex 1 2 ++ zeros 15) = hex 1 3 ++ zeros 15 := by
  decide +kernel

/-- `P13.FINAL` in IDLE, and with the tag reaching past BUF. -/
theorem test_p13_final_checks :
    refusedWith 0x0201 (.p13Final 6) State.reset
      ∧ refusedWith 0x0501 (.p13Final 6) { mk [(6, 65521)] [] with
          p13 := { phase := .active, mac := PolyMac.zero.init polyKey } } := by
  decide +kernel

/-! ## AEAD -/

/-- The nonce and the associated data of V-A1. -/
def aeadNonce : Bytes := hex 12 0x070000004041424344454647
def aeadAad : Bytes := hex 12 0x50515253C0C1C2C3C4C5C6C7

/-- A state with the AEAD session of V-A1's key and nonce. -/
def aeadReady (aad : Bytes) (s : State) : State := { s with aead := s.aead.init (run 0x80 32) aeadNonce aad }

/-- V-A1's session after AEAD.INIT. -/
theorem test_aead_init :
    let t := after (.aeadInit 0 2 4) (mk [(1, 32), (2, 0x20), (3, 12), (4, 0x30), (5, 12)]
      [(0, run 0x80 32), (0x20, aeadNonce), (0x30, aeadAad)])
    t.aead.p.r.toList = [0x12BAC7B, 0x1ED0B01, 0x36080F4, 0x29015EA, 0x00455E9]
      ∧ t.aead.p.h.toList = [0x295C4A3, 0x3268E0D, 0x1CDC0A0, 0x02EAF0F, 0x1BB2268] ∧ t.aead.aadlen = 12
      ∧ t.phaseWord = 0x1000 := by
  decide +kernel

/-- V-A3: one byte sealed; the tag. -/
theorem test_aead_enc :
    let t := after (.aeadEnc 8 6 10) (aeadReady [] (mk [(6, 0x100), (7, 1), (8, 0x100), (10, 0x280), (11, 16)] [(0x100, [0])]))
    t.memRead 0x100 1 = [0x9F] ∧ t.memRead 0x280 16 = hex 16 0xBB758E737CB56E18DF4748421B085BB0 ∧ t.phaseWord = 0x2000 := by
  decide +kernel

/-- V-A21 to V-A26. -/
theorem test_aead_enc_checks :
    let s := fun d t tn => mk [(6, 0x100), (7, 64), (8, d), (10, t), (11, tn)] []
    let ready := fun s : State => { s with aead := { s.aead with phase := .ready } }
    refusedWith 0x0201 (.aeadEnc 8 6 10) (s 0x200 0x300 16) ∧ refusedWith 0x0301 (.aeadEnc 8 6 10) (ready (s 0x200 0x300 15))
      ∧ refusedWith 0x0301 (.aeadEnc 8 6 10) (ready (s 0x200 65536 15))
      ∧ refusedWith 0x0601 (.aeadEnc 8 6 10) (ready (s 0x200 0x230 16))
      ∧ refusedWith 0x0601 (.aeadEnc 8 6 10) (ready (s 0x200 0x130 16))
      ∧ refusedWith 0x0601 (.aeadEnc 8 6 10) (ready (s 0x110 0x300 16)) := by
  decide +kernel

/-- BUF holding V-A3's ciphertext and a tag, the AEAD session ready. -/
def aeadReceived (tag : Nat) : State :=
  aeadReady [] (mk [(6, 0x100), (7, 1), (8, 0x300), (10, 0x280), (11, 16)] [(0x100, [0x9F]), (0x280, hex 16 tag), (0x300, [0xEE])])

/-- V-A3 opened. -/
theorem test_aead_dec_opens :
    let t := after (.aeadDec 8 6 10) (aeadReceived 0xBB758E737CB56E18DF4748421B085BB0)
    t.memRead 0x300 1 = [0] ∧ t.status = some .ok ∧ t.phaseWord = 0x2000 := by
  decide +kernel

/-- V-A8: bit 7 of the last tag byte flipped; nothing is released. -/
theorem test_aead_dec_rejects :
    let t := after (.aeadDec 8 6 10) (aeadReceived 0xBB758E737CB56E18DF4748421B085B30)
    t.memRead 0x300 1 = [0xEE] ∧ t.status = some .authenticationError ∧ t.errflags = 2 ∧ t.lasterr = 2
      ∧ t.phaseWord = 0x2000 := by
  decide +kernel

/-! ## Key derivation -/

/-- The configuration of V-K10: BLAKE2s, key "pw", digest length 32. -/
def kdfS : Kdf :=
  { phase := .ready, var := .blake2s, key := overwrite (.replicate 64 0) (hex 2 0x7077), keylen := 2, outlen := 32 }

/-- R241: the key held and padded; V-K20. -/
theorem test_kdf_cfg :
    (after (.kdfCfg 2 4 1) (mk [(2, 0x40), (3, 2), (4, 32)] [(0x40, hex 2 0x7077)])).kdf = kdfS
      ∧ refusedWith 0x0301 (.kdfCfg 2 4 0) (mk [] []) ∧ refusedWith 0x0301 (.kdfCfg 2 4 1) (mk [(4, 33)] []) := by
  decide +kernel

/-- V-K10. -/
theorem test_pbkdf2 :
    (after (.pbkdf2 6 8 10) { mk [(6, 0x100), (7, 16), (10, 1)] [] with kdf := kdfS }).memRead 0x100 16
      = hex 16 0x6B5F484F1E0A08C47B6210579805C892 := by
  decide +kernel

/-- V-K21 to V-K24, V-K26. -/
theorem test_pbkdf2_checks :
    let s := fun d n c : Nat => { mk [(6, d), (7, n), (8, 0x50), (9, 4), (10, c)] [] with
      kdf := { kdfS with var := .blake2b, outlen := 64 } }
    refusedWith 0x0201 (.pbkdf2 6 8 10) (mk [] []) ∧ refusedWith 0x0401 (.pbkdf2 6 8 10) (s 0x100 32 0)
      ∧ refusedWith 0x0401 (.pbkdf2 6 8 10) (s 0x100 0 1)
      ∧ refusedWith 0x0401 (.pbkdf2 6 8 10) (s 0x100 ((2 ^ 32 - 1) * 64 + 1) 1)
      ∧ refusedWith 0x0501 (.pbkdf2 6 8 10) (s 0x100 ((2 ^ 32 - 1) * 64) 1)
      ∧ refusedWith 0x0601 (.pbkdf2 6 8 10) (s 0x52 20 1) := by
  decide +kernel

/-- V-K12: BLAKE2s, key 00..1F, empty data, 42 bytes, so two blocks. -/
theorem test_hkdf :
    (after (.hkdf 4 6) { mk [(4, 0x100), (5, 42)] [] with
        kdf := { kdfS with key := overwrite (.replicate 64 0) (run 0 32), keylen := 32 } }).memRead 0x100 42
      = hex 42 0x09BC37A9299F3C678DB55BC9964EAAE34F83B16A5DCA296EB36C95A6837A5924218C9AC86703132254E0 := by
  decide +kernel

/-- V-K25, V-K26. -/
theorem test_hkdf_checks :
    let s := fun d n : Nat => { mk [(6, d), (7, n), (8, 0x50), (9, 4)] [] with
      kdf := { kdfS with var := .blake2b, outlen := 64 } }
    refusedWith 0x0401 (.hkdf 6 8) (s 0x100 16321) ∧ refusedWith 0x0401 (.hkdf 6 8) (s 0x100 0)
      ∧ refusedWith 0x0601 (.hkdf 6 8) (s 0x53 32) := by
  decide +kernel

/-! ## PCG32 -/

/-- A state with a generator. -/
def withPcg (lcg inc : Word) (s : State) : State := { s with pcg := { lcg, inc } }

/-- V-G4: the low bit of the increment. -/
theorem test_pcg_seed :
    (after (.pcgSeed 1 2) (mk [(1, 42), (2, 0x36)] [])).pcg = { lcg := 0x2A, inc := 0x37 }
      ∧ (after (.pcgSeed 1 2) (mk [(1, 42), (2, 0x37)] [])).pcg = { lcg := 0x2A, inc := 0x37 } := by
  decide +kernel

/-- V-G2, second draw; V-G3, first draw (the published value). -/
theorem test_pcg_next :
    let t := after (.pcgNext 3) (withPcg 0x7D720F6E9086DD99 0x37 State.reset)
    t.xNat 3 = 0x0C855C84 ∧ t.pcg.lcg = 0x194A804FB5B0DB1C
      ∧ (after (.pcgNext 0) (withPcg 0x185706B82C2E03F8 0x6D State.reset)).xNat 0 = 0xA15C02B7 := by
  decide +kernel

/-- V-G5, V-O31 (the bounds swapped, the destination a bound register), V-G8. -/
theorem test_pcg_range :
    let s := mk [(6, 10), (7, 1)] []
    (after (.pcgRange 0 1 2) (withPcg 0x185706B82C2E03F8 0x6D (mk [(1, 1), (2, 6)] []))).xNat 0 = 4
      ∧ (after (.pcgRange 6 6 7) (withPcg 0x194A804FB5B0DB1C 0x37 s)).xNat 6 = 3
      ∧ (after (.pcgRange 0 1 2) (withPcg 0xF7079824C154BF23 0x6D (mk [(2, 0xFFFFFFFF)] []))).xNat 0 = 0x83D2F293 := by
  decide +kernel

/-- V-G11: three draws rejected, the fourth accepted. -/
theorem test_pcg_range_redraws :
    let t := after (.pcgRange 0 1 2) (withPcg 0x2A 0x37 (mk [(2, 0x80000000)] []))
    t.xNat 0 = 0x0937A0CE ∧ t.pcg.lcg = 0xFEC3926DD6CBAB5E := by
  decide +kernel

/-- V-G12, V-G13, V-G14, V-G15. -/
theorem test_pcg_jump :
    let jumped := fun delta : Nat => (after (.pcgJump 9) (withPcg 0xBEB6D0B73FDB974A 0x6D (mk [(9, delta)] []))).pcg.lcg
    jumped (2 ^ 64 - 1) = 0x8303569FBE80C471 ∧ jumped (2 ^ 64 - 6) = 0x185706B82C2E03F8
      ∧ jumped (2 ^ 63) = 0x3EB6D0B73FDB974A ∧ jumped 0 = 0xBEB6D0B73FDB974A := by
  decide +kernel

/-- P3, command 6. -/
theorem test_pcg_gets : (after (.pcgGets 5) (withPcg 0x194A804FB5B0DB1C 0x37 State.reset)).xNat 5 = 0x194A804FB5B0DB1C := by
  decide +kernel

/-! ## BitOps -/

/-- The result of a three-register command on operands in x1 and x2. -/
def res3 (c : Reg → Reg → Reg → Instr) (a b : Nat) : Nat := (after (c 0 1 2) (mk [(1, a), (2, b)] [])).xNat 0

/-- The result of a two-register command on an operand in x1. -/
def res2 (c : Reg → Reg → Instr) (a : Nat) : Nat := (after (c 0 1) (mk [(1, a)] [])).xNat 0

/-- V-O1; V-O29, where the destination is both sources. -/
theorem test_rotl32 :
    res3 .rotl32 0x1122334480000001 1 = 3 ∧ res3 .rotl32 0x80000001 33 = 3 ∧ res3 .rotl32 0x12345678 32 = 0x12345678
      ∧ (after (.rotl32 1 1 1) (mk [(1, 0x80000001)] [])).xNat 1 = 3 := by
  decide +kernel

/-- V-O2. -/
theorem test_rotr32 :
    res3 .rotr32 0x80000001 1 = 0xC0000000 ∧ res3 .rotr32 0x12345678 8 = 0x78123456
      ∧ res3 .rotr32 0xFFFFFFFF12345678 0x100000004 = 0x81234567 := by
  decide +kernel

/-- V-O3. -/
theorem test_rotl64 :
    res3 .rotl64 0x8000000000000001 1 = 3 ∧ res3 .rotl64 0x0123456789ABCDEF 16 = 0x456789ABCDEF0123
      ∧ res3 .rotl64 0x0123456789ABCDEF 64 = 0x0123456789ABCDEF := by
  decide +kernel

/-- V-O4. -/
theorem test_rotr64 :
    res3 .rotr64 0x0123456789ABCDEF 24 = 0xABCDEF0123456789 ∧ res3 .rotr64 0x0123456789ABCDEF 63 = 0x02468ACF13579BDE
      ∧ res3 .rotr64 0x8000000000000001 1 = 0xC000000000000000 := by
  decide +kernel

/-- V-O5. -/
theorem test_lzcnt32 :
    [0, 1, 0x80000000, 0x00010000, 0xFFFFFFFF00000000].map (res2 .lzcnt32) = [32, 31, 0, 15, 32] := by decide +kernel

/-- V-O6. -/
theorem test_lzcnt64 :
    [0, 1, 2 ^ 63, 0xFFFFFFFF, 0x0000010000000000].map (res2 .lzcnt64) = [64, 63, 0, 32, 23] := by decide +kernel

/-- V-O7. -/
theorem test_tzcnt32 :
    [0, 1, 0x80000000, 0x00010000, 0xFFFFFFFF00000000].map (res2 .tzcnt32) = [32, 0, 31, 16, 32] := by decide +kernel

/-- V-O8. -/
theorem test_tzcnt64 : [0, 1, 2 ^ 63, 0xFFFFFFFF00000000].map (res2 .tzcnt64) = [64, 0, 63, 32] := by decide +kernel

/-- V-O9. -/
theorem test_popcnt32 : [0, 0xFFFFFFFF, 2 ^ 64 - 1, 0x12345678].map (res2 .popcnt32) = [0, 32, 32, 13] := by decide +kernel

/-- V-O10. -/
theorem test_popcnt64 : [0, 2 ^ 64 - 1, 0x0123456789ABCDEF].map (res2 .popcnt64) = [0, 64, 32] := by decide +kernel

/-- V-O11. -/
theorem test_log2f :
    [0, 1, 2, 3, 4, 0xFFFFFFFF, 2 ^ 32, 2 ^ 64 - 1].map (res2 .log2f) = [0, 0, 1, 1, 2, 31, 32, 63] := by decide +kernel

/-- V-O12. -/
theorem test_log2c :
    [0, 1, 2, 3, 4, 5, 0xFFFFFFFF, 2 ^ 32, 2 ^ 32 + 1, 2 ^ 63, 2 ^ 63 + 1, 2 ^ 64 - 1].map (res2 .log2c)
      = [0, 0, 1, 2, 2, 3, 32, 32, 33, 63, 64, 64] := by
  decide +kernel

/-- V-O13. -/
theorem test_ispow2 : [0, 1, 2, 2 ^ 63, 3, 6, 2 ^ 64 - 1].map (res2 .ispow2) = [0, 1, 1, 1, 0, 0, 0] := by decide +kernel

/-- V-O14. -/
theorem test_gcd :
    [(0, 0), (0, 5), (5, 0), (12, 18), (48, 180), (17, 5), (0x906, 0x111), (2 ^ 63, 2 ^ 62), (2 ^ 64 - 1, 0xFFFFFFFF)].map
        (fun p => res3 .gcd p.1 p.2) = [0, 5, 5, 6, 12, 1, 0x15, 2 ^ 62, 0xFFFFFFFF] := by
  decide +kernel

/-- V-O15. -/
theorem test_modinv :
    [1, 3, 5, 7, 2 ^ 64 - 1, 0x5851F42D4C957F2D].map (res2 .modinv)
      = [1, 0xAAAAAAAAAAAAAAAB, 0xCCCCCCCCCCCCCCCD, 0x6DB6DB6DB6DB6DB7, 2 ^ 64 - 1, 0xC097EF87329E28A5] := by
  decide +kernel

/-- V-O16. -/
theorem test_modinv_refuses_even :
    refusedWith 0x0801 (.modinv 0 1) (mk [(0, 9)] []) ∧ refusedWith 0x0801 (.modinv 0 1) (mk [(1, 2)] [])
      ∧ (after (.modinv 0 1) (mk [(0, 9)] [])).xNat 0 = 9 := by
  decide +kernel

/-- The spans of V-O20: the first at 0x100, the second at 0x200. -/
def spans (n m : Nat) (a b : Bytes) : State := mk [(2, 0x100), (3, n), (4, 0x200), (5, m)] [(0x100, a), (0x200, b)]

/-- V-O20 to V-O23. -/
theorem test_cteq :
    (after (.cteq 0 2 4) (spans 4 4 (run 1 4) (run 1 4))).xNat 0 = 1
      ∧ (after (.cteq 0 2 4) (spans 4 4 (run 1 4) (hex 4 0x01020305))).xNat 0 = 0
      ∧ (after (.cteq 0 2 4) (spans 4 3 (run 1 4) (run 1 4))).xNat 0 = 0
      ∧ (after (.cteq 0 2 4) (spans 0 0 [] [])).xNat 0 = 1 := by
  decide +kernel

/-- V-O24, V-O30. -/
theorem test_cteq_span_and_destination :
    refusedWith 0x0501 (.cteq 0 2 4) ((spans 4 4 (run 1 4) (run 1 4)).setXNat 2 65533)
      ∧ (afterWord 0x80224000 (spans 4 4 (run 1 4) (run 1 4))).xNat 2 = 1 := by
  decide +kernel

/-- V-O25, V-O28. -/
theorem test_xorb :
    let s := spans 4 4 (run 1 4) (hex 4 0xFF00FF00)
    (after (.xorb 6 2 4) (s.setXNat 6 0x300)).memRead 0x300 4 = hex 4 0xFE02FC04
      ∧ (after (.xorb 6 2 4) (s.setXNat 6 0x200)).memRead 0x200 4 = hex 4 0xFE02FC04 := by
  decide +kernel

/-- V-O26, V-O27; V-E25. -/
theorem test_xorb_checks :
    refusedWith 0x0301 (.xorb 6 2 4) (spans 4 3 [] []) ∧ refusedWith 0x0601 (.xorb 6 2 4) ((spans 4 4 [] []).setXNat 6 0x102)
      ∧ okAfter (.xorb 6 2 4) State.reset := by
  decide +kernel

/-! ## The port, reset, host software -/

/-- A host write lands in BUF and is no command (20_memory.md R72); reset clears (R380). -/
theorem test_host_write_and_reset :
    let t := nextOf (step { State.reset with port := [.writeBuf 65535 [7], .reset] })
    t.memRead 65535 1 = [7] ∧ t.cmdcnt = 0 ∧ (nextOf (step t)).buf = [] ∧ (nextOf (step t)).resets = 1 := by
  decide +kernel

/-! ## ShuffleBag (R264, R265): V-G5's draw over a window of six slots, then undone -/

/-- A bag of seven elements whose window leaves out the first. -/
def bagS : ShuffleBag Nat := { elems := [0, 1, 2, 3, 4, 5, 6], offset := 1, remaining := 6 }

/-- The generator of V-G5. -/
def bagState : State := { State.reset with pcg := { lcg := 0x185706B82C2E03F8, inc := 0x6D } }

/-- Bounds (1, 6) give the index 4: its slot changes places with slot 6 and is yielded. The reverse step restores the bag and
the generator. -/
theorem test_shuffle_draw_and_undraw :
    let p : ShuffleParams := { inclusive := true, lastSlot := .drawn }
    ((bagS.draw p 0 1 2 bagState).map fun r => (r.1, r.2.1, r.2.2.pcg.lcg))
        = some (4, { elems := [0, 1, 2, 3, 6, 5, 4], offset := 1, remaining := 5 }, 0x2B47FED88766BB05)
      ∧ ((bagS.draw p 0 1 2 bagState).bind fun r =>
            (r.2.1.undraw p 0 1 2 3 r.2.2).map fun q => (q.1, q.2.pcg.lcg))
          = some (bagS, 0x185706B82C2E03F8) := by
  decide +kernel

/-- The last slot left of a bag, in the three ways a host may fix (R264, N26). -/
theorem test_shuffle_last_slot :
    ([.drawn, .kept, .refused].map fun l =>
        (({ bagS with remaining := 1 } : ShuffleBag Nat).draw { inclusive := false, lastSlot := l } 0 1 2 bagState).map fun r =>
          (r.1, r.2.1.remaining, r.2.2.cmdcnt))
      = [some (1, 0, 3), some (1, 0, 0), none] := by
  decide +kernel

/-- R101: the words of LI for a wide constant (V-C1). -/
theorem test_li_words : (li 1 0x0123456789ABCDEF).map encode = [0x01100000, 0x02112345, 0x0216789A, 0x021BCDEF] := by
  decide +kernel

/-- R263: hex text of a byte in both cases, and back. -/
theorem test_hex_codec :
    hexEncode .lower [0xAF] = [97, 102] ∧ hexEncode .upper [0xAF] = [65, 70] ∧ hexDecode [97, 70] = some [0xAF]
      ∧ hexDecode [97] = none := by
  decide +kernel

/-! ## Witnesses: states and operands that meet the hypotheses of each statement together -/

theorem witness_DecodeOfEncode : Instr.wellFormed (.kdfCfg 15 15 1) = true ∧ Instr.wellFormed (.ldi 15 0xFFFFF) = true := by
  decide

theorem witness_EncodeOfDecode : decode 0x50240001 = .ok (.kdfCfg 2 4 1) := by decide +kernel

/-- A word that matches its row, one that decodes, and RDSR at its largest immediate. -/
theorem witness_DecodingFollowsOpcodeTable :
    (opcodeTable.filter fun row => decide (row.matches 0x04F00004)).map OpcodeRow.mnemonic = ["RDSR"]
      ∧ decode 0x04F00004 = .ok (.rdsr 15 4) ∧ operands (.rdsr 15 4) = [15] ∧ immediate (.rdsr 15 4) = some (8, 4)
      ∧ decode 0x62B76000 = .ok (.pcgRange 11 7 6) ∧ operands (.pcgRange 11 7 6) = [11, 7, 6]
      ∧ decode 0x01FFFFFF = .ok (.ldi 15 0xFFFFF) ∧ immediate (.ldi 15 0xFFFFF) = some (20, 0xFFFFF) := by
  decide +kernel

/-- A legal and an illegal word on the port. -/
theorem witness_StepRunsTheDecodedCommand :
    (State.reset.withFetchWord 32 0x03290000).port = .command 0x03290000 :: [] ∧ decode 0x03290000 = .ok (.mov 2 9)
      ∧ (State.reset.withFetchWord 32 0x03290100).port = .command 0x03290100 :: []
      ∧ decode 0x03290100 = .error .mustBeZero := by
  decide +kernel

/-- Each way for a word to be illegal: opcode, must-be-zero field, RDSR's and KDF.CFG's immediate. -/
theorem witness_IllegalWordsOnlyRaise :
    IllegalWord 0x06000000 ∧ IllegalWord 0xFFFFFFFF ∧ IllegalWord 0x03290100 ∧ IllegalWord 0x04000005
      ∧ IllegalWord 0x50240002 := by
  refine ⟨?_, ?_, ?_, ?_, ?_⟩ <;> dsimp only [IllegalWord] <;> decide +kernel

/-- The last byte of BUF, the first byte past it, and no event. -/
theorem witness_HostActionsBetweenCommands :
    State.reset.port = [] ∧ State.reset.spanOk 65535 ([7] : Bytes).length = true
      ∧ State.reset.spanOk 65536 ([7] : Bytes).length = false
      ∧ ({ State.reset with port := [.writeBuf 65535 [7]] } : State).port = .writeBuf 65535 [7] :: []
      ∧ ({ State.reset with port := [.writeBuf 65536 [7]] } : State).port = .writeBuf 65536 [7] :: [] := by
  decide +kernel

theorem witness_ResetEventClearsAllState : ({ State.reset with port := [.reset] } : State).port = .reset :: [] := by
  decide +kernel

/-- The reset state with one word on the port. -/
def onPort (w : Word32) (s : State) : State := { s with port := [.command w] }

/-- What a step on one word answers, for a command that runs. -/
theorem step_onPort {w : Word32} {i : Instr} {s : State} (hd : decode w = .ok i)
    (h : runs i { onPort w s with port := [] } = true) :
    step (onPort w s) = .next (after i { onPort w s with port := [] }) := by
  have e : step (onPort w s) = acceptCommand w { onPort w s with port := [] } := rfl
  rw [e, acceptCommand, hd]
  exact runs_next h

theorem witness_OnlyResetEndsSessionsAndCount :
    step (onPort 0x05000000 State.reset) = .next (after .clrerr { onPort 0x05000000 State.reset with port := [] })
      ∧ (∀ rest, (onPort 0x05000000 State.reset).port ≠ .reset :: rest)
      ∧ (∀ rest, (onPort 0x00000000 State.reset).port ≠ .command 0x05000000 :: rest) := by
  refine ⟨step_onPort (by decide +kernel) (by decide +kernel), ?_, ?_⟩ <;> simp [onPort]

/-- B2.UPDATE in IDLE fails its first check. -/
theorem witness_FailingChecksRaise_check :
    checksOf State.reset (.b2Update 4) = [] ++ (false, .usage .badPhase) :: [(true, .usage .badSpan)]
      ∧ ∀ c ∈ ([] : List Check), c.1 = true := by
  decide +kernel

/-- B2B.INIT with the length in range and the key past BUF fails its second check after its first passed. -/
theorem witness_FailingChecksRaise_second :
    checksOf (mk [(0, 65473), (1, 64), (2, 64)] []) (.b2bInit 0 2)
        = [(true, .usage .badLength)] ++ (false, .usage .badSpan) :: []
      ∧ ∀ c ∈ ([(true, .usage .badLength)] : List Check), c.1 = true := by
  decide +kernel

/-- AEAD.DEC accepted, with a wrong tag. -/
theorem witness_FailingChecksRaise_tag :
    Accepts (aeadReceived 0) (.aeadDec 8 6 10) ∧ aeadVerified 6 10 (aeadReceived 0) = false := by
  unfold Accepts
  decide +kernel

theorem witness_FirstFailingCheckIsReported :
    exec (.b2Update 4) State.reset = .next (after (.b2Update 4) State.reset)
      ∧ (after (.b2Update 4) State.reset).status ≠ some .ok :=
  ⟨runs_next (by decide +kernel), by decide +kernel⟩

/-- B2.UPDATE out of phase, before its span is looked at. -/
theorem witness_refused_phase :
    ∃ P after, refusals State.reset (.b2Update 4) = [] ++ (P, .usage .badPhase) :: after ∧ P :=
  ⟨_, _, rfl, by decide +kernel⟩

/-- AEAD.ENC used a second time on one session (one-shot, R220). -/
theorem witness_refused_one_shot :
    let s : State := { State.reset with aead := { State.reset.aead with phase := .done } }
    ∃ P after, refusals s (.aeadEnc 8 6 10) = [] ++ (P, .usage .badPhase) :: after ∧ P :=
  ⟨_, _, rfl, by decide +kernel⟩

/-- A key of 65 bytes; the longest key, with a digest of 65 bytes. -/
theorem witness_refused_length :
    (∃ P after, refusals (mk [(1, 65), (2, 64)] []) (.b2bInit 0 2) = [] ++ (P, .usage .badLength) :: after ∧ P)
      ∧ ∃ P after, refusals (mk [(1, 64), (2, 65)] []) (.b2bInit 0 2) = [] ++ (P, .usage .badLength) :: after ∧ P :=
  ⟨⟨_, _, rfl, by unfold LengthsOutOfRange; decide +kernel⟩, ⟨_, _, rfl, by unfold LengthsOutOfRange; decide +kernel⟩⟩

/-- HKDF asked for one byte more than 255 blocks, the phase passing first. -/
theorem witness_refused_count :
    let s : State := { mk [(6, 0), (7, 8161), (8, 8161), (9, 4)] [] with kdf := kdfS }
    ∃ b P after, refusals s (.hkdf 6 8) = [b] ++ (P, .usage .badCount) :: after ∧ ¬b.1 ∧ P :=
  ⟨_, _, _, rfl, by decide +kernel, by decide +kernel⟩

/-- P13.INIT with its 32 bytes reaching one byte past BUF. -/
theorem witness_refused_span :
    ∃ b P after, refusals (mk [(0, 65505), (1, 32)] []) (.p13Init 0) = [b] ++ (P, .usage .badSpan) :: after ∧ ¬b.1 ∧ P :=
  ⟨_, _, _, rfl, by decide +kernel, by unfold OutsideBuf; decide +kernel⟩

/-- XORB onto its first source one byte on. -/
theorem witness_refused_overlap :
    ∃ b c d e P, refusals (mk [(6, 1), (2, 0), (3, 2), (4, 8), (5, 2)] []) (.xorb 6 2 4)
        = [b, c, d, e] ++ (P, .usage .overlap) :: [] ∧ ¬b.1 ∧ ¬c.1 ∧ ¬d.1 ∧ ¬e.1 ∧ P :=
  ⟨_, _, _, _, _, rfl, by decide +kernel, by unfold OutsideBuf; decide +kernel, by unfold OutsideBuf; decide +kernel,
    by unfold OutsideBuf; decide +kernel, .inl ⟨by decide +kernel, 1, by decide +kernel, by decide +kernel⟩⟩

/-- The caller counter 2^32 of ChaCha20 with no data; its last nonce, one block past the counter's end. -/
theorem witness_refused_counter :
    let s (c n : Nat) : State :=
      { mk [(5, n), (6, 0), (8, c)] [] with
        cc := { phase := .ready, var := .chacha20, w := (Vector.replicate 16 0).set 13 0xFFFFFFFF } }
    (∃ b c d e P after, refusals (s (2 ^ 32) 0) (.ccXform 6 4 8) = [b, c, d, e] ++ (P, .usage .badCounter) :: after
        ∧ ¬b.1 ∧ ¬c.1 ∧ ¬d.1 ∧ ¬e.1 ∧ P)
      ∧ ∃ b c d e f P, refusals (s (2 ^ 32 - 1) 1) (.ccXform 6 4 8) = [b, c, d, e, f] ++ (P, .arithmeticOverflow) :: []
        ∧ ¬b.1 ∧ ¬c.1 ∧ ¬d.1 ∧ ¬e.1 ∧ ¬f.1 ∧ P :=
  ⟨⟨_, _, _, _, _, _, rfl, by decide +kernel, by unfold OutsideBuf; decide +kernel, by unfold OutsideBuf; decide +kernel,
      fun h => h.1 (by decide +kernel), by decide +kernel⟩,
    ⟨_, _, _, _, _, _, rfl, by decide +kernel, by unfold OutsideBuf; decide +kernel, by unfold OutsideBuf; decide +kernel,
      fun h => h.1 (by decide +kernel), by decide +kernel, by decide +kernel⟩⟩

/-- MODINV of an even value, and of an odd one, which its rule does not refuse. -/
theorem witness_refused_operand :
    (∃ P, refusals State.reset (.modinv 0 1) = [] ++ (P, .usage .badOperand) :: [] ∧ P)
      ∧ (∀ c ∈ refusals (mk [(1, 2 ^ 64 - 1)] []) (.modinv 0 1), ¬c.1)
      ∧ exec (.modinv 0 1) (mk [(1, 2 ^ 64 - 1)] []) = .next (after (.modinv 0 1) (mk [(1, 2 ^ 64 - 1)] [])) := by
  refine ⟨⟨_, rfl, by decide +kernel⟩, fun c hc => ?_, runs_next (by decide +kernel)⟩
  rw [List.mem_singleton.mp hc]
  decide +kernel

theorem witness_CommandsRaiseOnlyTheirOwnErrors :
    Instr.wellFormed (.modinv 0 1) = true ∧ State.reset.cfg.wf
      ∧ exec (.modinv 0 1) State.reset = .next (after (.modinv 0 1) State.reset) :=
  ⟨by decide, by decide, runs_next (by decide +kernel)⟩

/-- One command that completes OK and is not CLRERR, CLRERR, and one that raises. -/
theorem witness_ErrorRecordIsSticky :
    exec (.mov 2 9) State.reset = .next (after (.mov 2 9) State.reset) ∧ (Instr.mov 2 9) ≠ .clrerr
      ∧ exec .clrerr State.reset = .next (after .clrerr State.reset)
      ∧ exec (.modinv 0 1) State.reset = .next (after (.modinv 0 1) State.reset) :=
  ⟨runs_next (by decide +kernel), by decide, runs_next (by decide +kernel), runs_next (by decide +kernel)⟩

/-- A step on a word, and a step on a host write. -/
theorem witness_EveryCommandIsCountedAndReports :
    (step (onPort 0 State.reset) = .next (after .nop { onPort 0 State.reset with port := [] })
        ∧ (onPort 0 State.reset).port = .command 0 :: [])
      ∧ ∃ t, step { State.reset with port := [.writeBuf 65535 [7]] } = .next t :=
  ⟨⟨step_onPort (by decide +kernel) (by decide +kernel), rfl⟩, _, rfl⟩

theorem witness_ResetMeetsTheInvariant : Config.standard.wf ∧ Config.wf { bufBytes := 1 } ∧ Config.wf { bufBytes := 2 ^ 32 } := by
  decide

/-- A state that is not the reset state and meets the invariant: an error recorded, a byte written, a keyed BLAKE2 session
whose key block is still to be compressed, an odd increment. -/
def lively : State :=
  withPcg 0x2A 0x37
    { mk [(15, 2 ^ 64 - 1)] [(65535, [7])] with
      b2 := Blake2.zero.init .blake2s (run 0 32) 32
      errflags := 1, lasterr := 0x0201, lastcmd := 0x13600000 }

theorem inv_lively : lively.Inv where
  cfg := by decide +kernel
  memWf := by decide +kernel
  memIn := by decide +kernel
  sr0 := by decide +kernel
  sr1 := .inr ⟨.usage .badPhase, by decide +kernel, by decide +kernel⟩
  sr2 := by decide +kernel
  b2 := ⟨by decide +kernel, by decide +kernel, by decide +kernel, by decide +kernel, by decide +kernel, by decide +kernel⟩
  cc := ⟨fun h => absurd h (by decide +kernel), by decide +kernel⟩
  p13 := ⟨⟨by decide +kernel, by decide +kernel, by decide +kernel, by decide +kernel, by decide +kernel⟩,
    by decide +kernel, by decide +kernel, by decide +kernel⟩
  aead := ⟨⟨⟨by decide +kernel, by decide +kernel, by decide +kernel, by decide +kernel, by decide +kernel⟩,
    by decide +kernel, by decide +kernel, by decide +kernel⟩, fun h => absurd h (by decide +kernel), by decide +kernel⟩
  kdf := ⟨by decide +kernel, by decide +kernel, by decide +kernel, by decide +kernel⟩
  pcg := by decide +kernel

/-- A pending word does not bear on the invariant. -/
theorem inv_onPort {s : State} (w : Word32) (h : s.Inv) : (onPort w s).Inv :=
  ⟨h.cfg, h.memWf, h.memIn, h.sr0, h.sr1, h.sr2, h.b2, h.cc, h.p13, h.aead, h.kdf, h.pcg⟩

theorem witness_StepKeepsTheInvariant :
    (onPort 0x12F00000 lively).Inv
      ∧ step (onPort 0x12F00000 lively) = .next (after (.b2Update 15) { onPort 0x12F00000 lively with port := [] }) :=
  ⟨inv_onPort _ inv_lively, step_onPort (by decide +kernel) (by decide +kernel)⟩

/-- The invariant holds, and so does the clause on host writes, here because the port holds a word. -/
theorem witness_MachineNeverStops :
    (onPort 0 lively).Inv
      ∧ ∀ a bs rest, (onPort 0 lively).port = .writeBuf a bs :: rest → (onPort 0 lively).spanOk a bs.length = true :=
  ⟨inv_onPort _ inv_lively, by simp [onPort]⟩

/-- A command with a destination, and a register that is not it. -/
theorem witness_OnlyTheDestinationRegisterChanges :
    exec (.mov 2 9) State.reset = .next (after (.mov 2 9) State.reset) ∧ destRegister (.mov 2 9) ≠ some 3 :=
  ⟨runs_next (by decide +kernel), by decide⟩

/-- XORB writes one region; the bytes on both sides of it are outside. -/
theorem witness_BufChangesOnlyInWrittenRegions :
    let s := (spans 4 4 (run 1 4) (run 5 4)).setXNat 6 0x300
    exec (.xorb 6 2 4) s = .next (after (.xorb 6 2 4) s)
      ∧ ∀ a ∈ [0x2FF, 0x304], ∀ region ∈ writeRegions s (.xorb 6 2 4), a < region.1 ∨ region.1 + region.2 ≤ a :=
  ⟨runs_next (by decide +kernel), by decide +kernel⟩

/-- NOP writes no engine; NEXT writes only the generator. -/
theorem witness_EnginesChangeOnlyByTheirOwnCommands :
    exec (.pcgNext 0) State.reset = .next (after (.pcgNext 0) State.reset) ∧ writesEngine (.pcgNext 0) ≠ some .blake2
      ∧ writesEngine (.pcgNext 0) ≠ some .chacha ∧ writesEngine (.pcgNext 0) ≠ some .poly1305
      ∧ writesEngine (.pcgNext 0) ≠ some .aead ∧ writesEngine (.pcgNext 0) ≠ some .kdf ∧ writesEngine .nop ≠ some .pcg :=
  ⟨runs_next (by decide +kernel), by decide, by decide, by decide, by decide, by decide, by decide⟩

theorem witness_NopOnlyCounts : bits 0x00000001 31 24 = 0 ∧ (0x00000001 : Word32) ≠ 0 := by decide

theorem witness_RdsrReadsStatusRegisters :
    (4 : BitVec 8).toNat ≤ 4 ∧ bits 0x04000005 31 24 = 0x04 ∧ 4 < bits 0x04000005 7 0 := by
  decide

/-- Both variants with the longest key and digest, ending at the end of BUF; the shortest digest without a key. -/
theorem witness_B2InitStartsASession :
    (let s := mk [(0, 65472), (1, 64), (2, 64)] []
     s.spanLen 0 ≤ 64 ∧ 1 ≤ s.xNat 2 ∧ s.xNat 2 ≤ 64 ∧ s.spanOk (s.spanAddr 0) (s.spanLen 0) = true)
      ∧ (let s := mk [(0, 65504), (1, 32), (2, 32)] []
         s.spanLen 0 ≤ 32 ∧ 1 ≤ s.xNat 2 ∧ s.xNat 2 ≤ 32 ∧ s.spanOk (s.spanAddr 0) (s.spanLen 0) = true)
      ∧ (let s := mk [(2, 1)] []
         s.spanLen 0 ≤ 32 ∧ 1 ≤ s.xNat 2 ∧ s.xNat 2 ≤ 32 ∧ s.spanOk (s.spanAddr 0) (s.spanLen 0) = true) := by
  decide +kernel

/-- The bytes fill the block buffer to the brim. -/
theorem witness_B2UpdateAbsorbsItsSpan :
    let s : State := { mk [(4, 65409), (5, 127)] [] with b2 := (Blake2.zero.init .blake2b [] 64).absorb [1] }
    s.b2.phase = .active ∧ s.spanOk (s.spanAddr 4) (s.spanLen 4) = true
      ∧ s.b2.fill + s.spanLen 4 ≤ s.b2.var.blockBytes ∧ s.b2.fill ≤ (127 : Fin 128).val
      ∧ (127 : Fin 128).val < s.b2.fill + s.spanLen 4 := by
  decide +kernel

/-- A keyed session with no message, and an unkeyed one with three bytes, the digest ending at the end of BUF. -/
theorem witness_B2FinalWritesTheDigest :
    (let s : State := { mk [(6, 65504)] [] with b2 := Blake2.zero.init .blake2s (run 0 32) 32 }
     s.b2.phase = .active ∧ s.b2.Inv ∧ s.b2.cfb = true ∧ s.spanOk (s.xNat 6) s.b2.outlen = true)
      ∧ (let s : State := { mk [(6, 65472)] [] with b2 := (Blake2.zero.init .blake2b [] 64).absorb (run 1 3) }
         s.b2.phase = .active ∧ s.b2.Inv ∧ s.b2.cfb = false ∧ s.spanOk (s.xNat 6) s.b2.outlen = true) :=
  ⟨⟨by decide +kernel, ⟨by decide +kernel, by decide +kernel, by decide +kernel, by decide +kernel, by decide +kernel,
      by decide +kernel⟩, by decide +kernel, by decide +kernel⟩,
    by decide +kernel, ⟨by decide +kernel, by decide +kernel, by decide +kernel, by decide +kernel, by decide +kernel,
      by decide +kernel⟩, by decide +kernel, by decide +kernel⟩

theorem witness_HashOfAnyChunkingIsTheReference :
    hashLengthsOk .blake2b 64 64 = true ∧ hashLengthsOk .blake2b 0 1 = true ∧ hashLengthsOk .blake2s 32 32 = true := by
  decide

/-- The two nonce lengths, the nonce at the end of BUF. -/
theorem witness_ChachaInitBuildsTheContext :
    (let s := mk [(1, 32), (2, 65524), (3, 12)] []
     s.spanLen 0 = 32 ∧ s.spanOk (s.spanAddr 0) 32 = true ∧ s.spanOk (s.spanAddr 2) (s.spanLen 2) = true ∧ s.spanLen 2 = 12)
      ∧ (let s := mk [(1, 32), (2, 65512), (3, 24)] []
         s.spanLen 0 = 32 ∧ s.spanOk (s.spanAddr 0) 32 = true ∧ s.spanOk (s.spanAddr 2) (s.spanLen 2) = true
          ∧ s.spanLen 2 = 24) := by
  decide +kernel

/-- A transform of 65 bytes in place with the largest ChaCha20 caller counter; one that ends at counter 2^64 - 1. -/
theorem witness_XformXorsTheKeystream :
    (let s := ccReady 0 (mk [(4, 65471), (5, 65), (6, 2 ^ 32 - 1)] [])
     s.cc.phase = .ready ∧ s.spanOk (s.spanAddr 4) (s.spanLen 4) = true ∧ s.spanOk (s.xNat 4) (s.spanLen 4) = true
      ∧ disjointOrSame (s.xNat 4) (s.spanAddr 4) (s.spanLen 4) = true ∧ (s.cc.var = .chacha20 → s.xNat 6 < 2 ^ 32)
      ∧ s.xNat 6 + (s.cc.w.get 13).toNat * 2 ^ 32 + (s.spanLen 4 + 63) / 64 ≤ 2 ^ 64 - 1)
      ∧ (let s := xccReady (mk [(4, 0x100), (5, 64), (6, 2 ^ 64 - 2), (7, 0x140)] [])
         s.cc.phase = .ready ∧ s.spanOk (s.spanAddr 4) (s.spanLen 4) = true ∧ s.spanOk (s.xNat 7) (s.spanLen 4) = true
          ∧ disjointOrSame (s.xNat 7) (s.spanAddr 4) (s.spanLen 4) = true ∧ (s.cc.var = .chacha20 → s.xNat 6 < 2 ^ 32)
          ∧ s.xNat 6 + (s.cc.w.get 13).toNat * 2 ^ 32 + (s.spanLen 4 + 63) / 64 ≤ 2 ^ 64 - 1) := by
  decide +kernel

/-- The three clauses: ChaCha20 with counter 2^32, XChaCha20 one block too far (V-X25), and an empty transform at the largest
counter (V-X26). -/
theorem witness_XformRefusesCounterOverflow :
    let common := fun s : State => s.cc.phase = .ready ∧ s.spanOk (s.spanAddr 4) (s.spanLen 4) = true
      ∧ s.spanOk (s.xNat 7) (s.spanLen 4) = true ∧ disjointOrSame (s.xNat 7) (s.spanAddr 4) (s.spanLen 4) = true
    (let s := ccReady 0 (mk [(4, 0x100), (5, 64), (6, 2 ^ 32), (7, 0x200)] [])
     common s ∧ s.cc.var = .chacha20 ∧ 2 ^ 32 ≤ s.xNat 6)
      ∧ (let s := xccReady (mk [(4, 0x100), (5, 65), (6, 2 ^ 64 - 2), (7, 0x200)] [])
         common s ∧ (s.cc.var = .chacha20 → s.xNat 6 < 2 ^ 32)
          ∧ 2 ^ 64 - 1 < s.xNat 6 + (s.cc.w.get 13).toNat * 2 ^ 32 + (s.spanLen 4 + 63) / 64)
      ∧ (let s := xccReady (mk [(4, 2 ^ 64 - 1), (6, 2 ^ 64 - 1), (7, 2 ^ 64 - 1)] [])
         common s ∧ (s.cc.var = .chacha20 → s.xNat 6 < 2 ^ 32) ∧ s.cc.Inv ∧ s.spanLen 4 = 0) := by
  refine ⟨by decide +kernel, by decide +kernel, by decide +kernel, by decide +kernel,
    ⟨fun _ => by unfold contextWords; decide +kernel, by decide +kernel⟩, by decide +kernel⟩

/-- Eight bytes transformed in place, the counter restored, and transformed again. -/
theorem witness_XformIsSelfInverse :
    let s := ccReady 0x4A00000000 (mk [(4, 0x100), (5, 8), (6, 1)] [(0x100, run 1 8)])
    let t := after (.ccXform 4 4 6) s
    let v := t.setXNat 6 1
    exec (.ccXform 4 4 6) s = .next t ∧ t.status = some .ok ∧ v.cc = s.cc ∧ v.spanAddr 4 = s.xNat 4
      ∧ v.spanLen 4 = s.spanLen 4 ∧ v.xNat 6 = s.xNat 6
      ∧ (∀ k < s.spanLen 4, v.readByte (s.xNat 4 + k) = t.readByte (s.xNat 4 + k))
      ∧ exec (.ccXform 4 4 6) v = .next (after (.ccXform 4 4 6) v) ∧ (after (.ccXform 4 4 6) v).status = some .ok := by
  refine ⟨runs_next (by decide +kernel), by decide +kernel, by decide +kernel, by decide +kernel, by decide +kernel,
    by decide +kernel, by decide +kernel, runs_next (by decide +kernel), by decide +kernel⟩

theorem witness_P13InitCutsTheKey :
    let s := mk [(0, 65504), (1, 32)] []
    s.spanLen 0 = 32 ∧ s.spanOk (s.spanAddr 0) 32 = true := by
  decide +kernel

/-- A session of V-P1's key with 20 of its bytes absorbed. -/
def polyMid : PolyMac := (PolyMac.zero.init polyKey).absorb (run 0x43 20)

theorem inv_polyMid : polyMid.Inv :=
  ⟨⟨by decide +kernel, by decide +kernel, by decide +kernel, by decide +kernel, by decide +kernel⟩, by decide +kernel,
    by decide +kernel, by decide +kernel⟩

theorem witness_AbsorbBlockMultipliesModP :
    polyMid.Inv ∧ (List.replicate 16 0xFF : Bytes).length = 16 ∧ 1 ≤ 1 := ⟨inv_polyMid, by decide, by decide⟩

/-- Eleven more bytes complete no block, twelve complete one. -/
theorem witness_P13UpdateAbsorbsItsSpan :
    let s : State := { mk [(4, 65525), (5, 11)] [] with p13 := { phase := .active, mac := polyMid } }
    s.p13.phase = .active ∧ s.p13.mac.Inv ∧ s.spanOk (s.spanAddr 4) (s.spanLen 4) = true
      ∧ s.p13.mac.fill + s.spanLen 4 < 16 :=
  ⟨by decide +kernel, inv_polyMid, by decide +kernel, by decide +kernel⟩

/-- With bytes left over and with none, the tag at the end of BUF. -/
theorem witness_P13FinalWritesTheTag :
    (let s : State := { mk [(6, 65520)] [] with p13 := { phase := .active, mac := polyMid } }
     s.p13.phase = .active ∧ s.p13.mac.Inv ∧ s.spanOk (s.xNat 6) 16 = true ∧ s.p13.mac.fill = 4)
      ∧ (let s : State := { mk [(6, 65520)] [] with p13 := { phase := .active, mac := PolyMac.zero } }
         s.p13.phase = .active ∧ s.p13.mac.Inv ∧ s.spanOk (s.xNat 6) 16 = true ∧ s.p13.mac.fill = 0) :=
  ⟨⟨by decide +kernel, inv_polyMid, by decide +kernel, by decide +kernel⟩, by decide +kernel,
    ⟨⟨by decide +kernel, by decide +kernel, by decide +kernel, by decide +kernel, by decide +kernel⟩, by decide +kernel,
      by decide +kernel, by decide +kernel⟩, by decide +kernel, by decide +kernel⟩

theorem witness_TagOfAnyChunkingIsTheMathematicalTag : polyKey.length = 32 := by decide +kernel

theorem witness_AeadInitDerivesKeyAndAbsorbsAad :
    let s := mk [(1, 32), (2, 0x20), (3, 12), (4, 65519), (5, 17)] []
    s.spanLen 0 = 32 ∧ s.spanLen 2 = 12 ∧ s.spanOk (s.spanAddr 0) 32 = true ∧ s.spanOk (s.spanAddr 2) 12 = true
      ∧ s.spanOk (s.spanAddr 4) (s.spanLen 4) = true := by
  decide +kernel

/-- The hypotheses that the statements on AEAD.ENC and AEAD.DEC share, for the operands x8, s6, s10. -/
abbrev PayloadChecks (s : State) : Prop :=
  s.aead.phase = .ready ∧ s.spanLen 10 = 16 ∧ s.spanOk (s.spanAddr 6) (s.spanLen 6) = true
    ∧ s.spanOk (s.xNat 8) (s.spanLen 6) = true ∧ s.spanOk (s.spanAddr 10) 16 = true
    ∧ disjointOrSame (s.xNat 8) (s.spanAddr 6) (s.spanLen 6) = true
    ∧ overlap (s.spanAddr 10) 16 (s.spanAddr 6) (s.spanLen 6) = false
    ∧ overlap (s.spanAddr 10) 16 (s.xNat 8) (s.spanLen 6) = false ∧ s.cfg.wf

/-- In place, the tag right behind the ciphertext at the end of BUF. -/
theorem witness_AeadEncSeals :
    PayloadChecks (aeadReady [] (mk [(6, 65519), (7, 1), (8, 65519), (10, 65520), (11, 16)] [])) := by
  decide +kernel

/-- V-A3's tag. -/
theorem witness_AeadDecOpensAVerifiedMessage :
    let s := aeadReceived 0xBB758E737CB56E18DF4748421B085BB0
    PayloadChecks s ∧ s.memRead (s.spanAddr 10) 16 = s.aead.tag (s.readSpan 6) := by
  decide +kernel

/-- V-A3's tag with its last bit flipped. -/
theorem witness_AeadDecReleasesNothingOnMismatch :
    let s := aeadReceived 0xBB758E737CB56E18DF4748421B085BB1
    PayloadChecks s ∧ s.memRead (s.spanAddr 10) 16 ≠ s.aead.tag (s.readSpan 6) := by
  decide +kernel

/-- One byte sealed in place, the session built anew, and the message opened to another place. -/
theorem witness_AeadOpensWhatItSealed :
    let s := aeadReady [] (mk [(6, 0x100), (7, 1), (8, 0x100), (9, 0x300), (10, 0x280), (11, 16)] [(0x100, [0])])
    let t := after (.aeadEnc 8 6 10) s
    let v := aeadReady [] t
    s.aead = State.reset.aead.init (run 0x80 32) aeadNonce [] ∧ exec (.aeadEnc 8 6 10) s = .next t ∧ t.status = some .ok
      ∧ v.aead = t.aead.init (run 0x80 32) aeadNonce [] ∧ v.spanAddr 6 = s.xNat 8 ∧ v.spanLen 6 = s.spanLen 6
      ∧ v.spanAddr 10 = s.spanAddr 10
      ∧ (∀ k < s.spanLen 6, v.readByte (s.xNat 8 + k) = t.readByte (s.xNat 8 + k))
      ∧ (∀ k < 16, v.readByte (s.spanAddr 10 + k) = t.readByte (s.spanAddr 10 + k))
      ∧ Accepts v (.aeadDec 9 6 10) := by
  unfold Accepts
  refine ⟨by decide +kernel, runs_next (by decide +kernel), by decide +kernel, by decide +kernel, by decide +kernel,
    by decide +kernel, by decide +kernel, by decide +kernel, by decide +kernel, by decide +kernel⟩

/-- Both variants with the longest key and digest. -/
theorem witness_KdfCfgHoldsTheConfiguration :
    let fits := fun (s : State) (imm8 : BitVec 8) => imm8.toNat ≤ 1 ∧ s.spanLen 2 ≤ (if imm8.toNat = 0 then 64 else 32)
      ∧ 1 ≤ s.xNat 4 ∧ s.xNat 4 ≤ (if imm8.toNat = 0 then 64 else 32) ∧ s.spanOk (s.spanAddr 2) (s.spanLen 2) = true
    fits (mk [(2, 65472), (3, 64), (4, 64)] []) 0 ∧ fits (mk [(2, 65504), (3, 32), (4, 32)] []) 1 := by
  decide +kernel

theorem inv_kdfS : kdfS.Inv := ⟨by decide +kernel, by decide +kernel, by decide +kernel, by decide +kernel⟩

/-- The salt right behind the derived key, at the end of BUF. -/
theorem witness_Pbkdf2WritesTheDerivedKey :
    let s : State := { mk [(6, 65499), (7, 33), (8, 65532), (9, 4), (10, 1)] [] with kdf := kdfS }
    s.kdf.phase = .ready ∧ s.kdf.Inv ∧ 1 ≤ s.xNat 10 ∧ 1 ≤ s.spanLen 6
      ∧ ceilDiv (s.spanLen 6) s.kdf.outlen ≤ 2 ^ 32 - 1 ∧ s.spanOk (s.spanAddr 6) (s.spanLen 6) = true
      ∧ s.spanOk (s.spanAddr 8) (s.spanLen 8) = true
      ∧ overlap (s.spanAddr 6) (s.spanLen 6) (s.spanAddr 8) (s.spanLen 8) = false :=
  ⟨by decide +kernel, inv_kdfS, by decide +kernel, by decide +kernel, by decide +kernel, by decide +kernel, by decide +kernel,
    by decide +kernel⟩

/-- The longest key that HKDF derives: 255 blocks. -/
theorem witness_HkdfWritesTheDerivedKey :
    let s : State := { mk [(6, 0), (7, 8160), (8, 8160), (9, 4)] [] with kdf := kdfS }
    s.kdf.phase = .ready ∧ s.kdf.Inv ∧ 1 ≤ s.spanLen 6 ∧ s.spanLen 6 ≤ 255 * s.kdf.outlen
      ∧ s.spanOk (s.spanAddr 6) (s.spanLen 6) = true ∧ s.spanOk (s.spanAddr 8) (s.spanLen 8) = true
      ∧ overlap (s.spanAddr 6) (s.spanLen 6) (s.spanAddr 8) (s.spanLen 8) = false :=
  ⟨by decide +kernel, inv_kdfS, by decide +kernel, by decide +kernel, by decide +kernel, by decide +kernel, by decide +kernel⟩

theorem witness_HkdfShorterOutputIsAPrefix : kdfS.Inv ∧ 1 ≤ kdfS.outlen ∧ 32 ≤ 33 := ⟨inv_kdfS, by decide, by decide⟩

theorem witness_PcgRangeReturnsTheFirstAcceptedDraw : State.reset.pcg.inc.toNat % 2 = 1 := by decide +kernel

theorem witness_PcgJumpIsTheIteratedStep : ({ lcg := 0x2A, inc := 0x37 } : Pcg).inc.toNat % 2 = 1 := by decide

theorem witness_ModinvInvertsOddValues : (mk [(1, 2 ^ 64 - 1)] []).xNat 1 % 2 = 1 ∧ State.reset.xNat 1 % 2 = 0 := by
  decide +kernel

/-- XORB onto its second source, at the end of BUF. -/
theorem witness_SpanCompareAndXor :
    let s := mk [(2, 65528), (3, 4), (4, 65532), (5, 4), (6, 65532)] []
    s.spanOk (s.spanAddr 2) (s.spanLen 2) = true ∧ s.spanOk (s.spanAddr 4) (s.spanLen 4) = true
      ∧ s.spanLen 2 = s.spanLen 4 ∧ s.spanOk (s.xNat 6) (s.spanLen 2) = true
      ∧ disjointOrSame (s.xNat 6) (s.spanAddr 2) (s.spanLen 2) = true
      ∧ disjointOrSame (s.xNat 6) (s.spanAddr 4) (s.spanLen 2) = true := by
  decide +kernel

/-- CTEQ on spans with equal bytes and on spans with other bytes. -/
theorem witness_OutcomeDoesNotDependOnBufBytes :
    let s := spans 4 4 (run 1 4) (run 1 4)
    let s' : State := { s with buf := (spans 4 4 (run 1 4) (run 5 4)).buf }
    (∀ xa sb sc, Instr.cteq 0 2 4 ≠ .aeadDec xa sb sc) ∧ exec (.cteq 0 2 4) s = .next (after (.cteq 0 2 4) s)
      ∧ exec (.cteq 0 2 4) s' = .next (after (.cteq 0 2 4) s') ∧ ∀ sb sc, Instr.cteq 0 2 4 ≠ .cteq 9 sb sc :=
  ⟨by simp, runs_next (by decide +kernel), runs_next (by decide +kernel), by simp⟩

theorem witness_LoadConstantPseudoInstructions : 2 ^ 64 - 1 < 2 ^ 64 ∧ 2 ^ 20 < 2 ^ 64 ∧ 0 < 2 ^ 64 := by decide

end Sys2Proof.Tests
end

section
/-! The record of an error, the operations that keep the invariant of the state (spec/10_state.md R27 to R42), and reset. -/

namespace Sys2Proof.Machine

/-! ## The error record (spec/60_exceptions.md R341 to R344) -/

theorem flag_toNat_lt (e : Error) : e.flag.toNat < 2 ^ 3 := by
  cases e with
  | usage d => cases d <;> decide
  | authentication => decide
  | arithmeticOverflow => decide

/-- SR1 holds the cause in its low byte and the detail above it (R28). -/
theorem record_toNat (e : Error) : e.record.toNat = e.cause + e.detail * 2 ^ 8 := by
  cases e with
  | usage d => cases d <;> rfl
  | authentication => rfl
  | arithmeticOverflow => rfl

/-- The completion status of an error is the cause that SR1 holds. -/
theorem status_code_eq_record_mod (e : Error) : e.status.code = e.record.toNat % 4 := by
  have hc : e.cause < 4 := by
    rw [Error.cause]
    cases e.status <;> decide
  rw [record_toNat, ← Error.cause]
  omega

theorem or_flag_and_flag (x f : Word) : (x ||| f) &&& f = f := by
  ext k hk
  simp +contextual

theorem setWidth_word_toNat (w : Word32) : (w.setWidth 64).toNat = w.toNat :=
  BitVec.toNat_setWidth_of_le (by decide)

/-! ## Operations that keep the invariant -/

/-- The host's pending events are no part of the invariant. -/
theorem withPort_inv {s : State} (h : s.Inv) (port : List HostEvent) : ({ s with port := port } : State).Inv := { h with }

theorem retire_inv {s : State} (h : s.Inv) : s.retire.Inv := { h with }

theorem raise_inv {s : State} (h : s.Inv) (w : Word32) (e : Error) : (s.raise w e).Inv :=
  { h with
    sr0 := by
      rw [raise_errflags, BitVec.toNat_or]
      exact Nat.or_lt_two_pow h.sr0 (flag_toNat_lt e)
    sr1 := .inr ⟨e, rfl, or_flag_and_flag s.errflags e.flag⟩
    sr2 := by rw [raise_lastcmd, setWidth_word_toNat]; exact w.isLt }

/-- A region that passes CheckSpan is empty or ends inside BUF (spec/20_memory.md R64). -/
theorem spanOk_iff (s : State) (a n : Nat) : s.spanOk a n = true ↔ n = 0 ∨ a + n ≤ s.cfg.bufBytes := by
  simp [State.spanOk]

theorem memWrite_inv {s : State} (h : s.Inv) (a : Nat) (v : Bytes) (hv : s.spanOk a v.length = true) :
    (s.memWrite a v).Inv :=
  { h with
    memWf := Memory.putAll_wf s.buf a v h.memWf
    memIn := memWrite_mem_bound s a v s.cfg.bufBytes h.memIn ((spanOk_iff ..).mp hv) }

/-- A failed verification changes no more of the controller than its phase (spec/44_aead.md R224). -/
theorem aeadConsumed_inv {s : State} (h : s.Inv) : (aeadConsumed s).Inv :=
  { h with aead := { p := h.aead.p, words := nofun, whole := nofun } }

theorem get_replicate {α : Type} {n : Nat} (x : α) (i : Fin n) : (Vector.replicate n x).get i = x :=
  Vector.getElem_replicate ..

theorem polyZero_inv : PolyMac.zero.Inv where
  h := by constructor <;> decide
  r := by decide
  s5 := by decide
  fill := by decide

theorem blake2Zero_inv : Blake2.zero.Inv where
  fill := by decide
  words := by decide
  counter := by decide
  outlen := by decide
  activeLen := nofun
  first := nofun

theorem afterReset_inv (cfg : Config) (resets : Nat) (port : List HostEvent) (h : cfg.wf) :
    (State.afterReset cfg resets port).Inv where
  cfg := h
  memWf := List.Pairwise.nil
  memIn := nofun
  sr0 := Nat.two_pow_pos 3
  sr1 := .inl ⟨rfl, rfl⟩
  sr2 := Nat.two_pow_pos 32
  b2 := blake2Zero_inv
  cc := { words := nofun, nonce := nofun }
  p13 := polyZero_inv
  aead := { p := polyZero_inv, words := nofun, whole := nofun }
  kdf := { keylen := Nat.zero_le _, outlen := Nat.zero_le _, readyLen := nofun
           padding := fun i _ => get_replicate 0 i }
  pcg := rfl

/-- Settles O16: every field is zero, and `pcg.inc` one. -/
theorem resetMeetsTheInvariant : Obligations.ResetMeetsTheInvariant := afterReset_inv

end Sys2Proof.Machine
end

section
/-! What the effects of the commands write to BUF, against the regions of `writeRegions` (spec/20_memory.md R61, R69). -/

namespace Sys2Proof.Machine

@[simp] theorem length_readSpan (s : State) (r : SpanReg) : (s.readSpan r).length = s.spanLen r := length_memRead ..

/-- The memory with several byte strings written, each from its address on, the first one first. -/
def Memory.putRegions (m : Memory) (writes : List (Nat × Bytes)) : Memory :=
  writes.foldl (fun m w => m.putAll w.1 w.2) m

/-- A byte string is written to a region: it starts where the region does and does not reach past it. -/
def WrittenTo (write : Nat × Bytes) (region : Nat × Nat) : Prop := write.1 = region.1 ∧ write.2.length ≤ region.2

theorem putRegions_wf (m : Memory) (writes : List (Nat × Bytes)) (h : m.wf) : (m.putRegions writes).wf := by
  induction writes generalizing m with
  | nil => exact h
  | cons w ws ih => exact ih _ (Memory.putAll_wf m w.1 w.2 h)

/-- Writes to regions that are empty or end below a bound leave every written address below it. -/
theorem putRegions_bound {bound : Nat} {m : Memory} {writes : List (Nat × Bytes)} {regions : List (Nat × Nat)}
    (hw : List.Forall₂ WrittenTo writes regions) (hr : ∀ r ∈ regions, r.2 = 0 ∨ r.1 + r.2 ≤ bound)
    (hm : ∀ c ∈ m, c.1 < bound) : ∀ c ∈ m.putRegions writes, c.1 < bound := by
  induction hw generalizing m with
  | nil => exact hm
  | @cons w r ws rs hwr _ ih =>
    obtain ⟨hr, hrs⟩ := List.forall_mem_cons.mp hr
    obtain ⟨haddr, hlen⟩ := hwr
    refine ih hrs fun c hc => ?_
    rcases Memory.mem_putAll m w.1 w.2 c hc with h | ⟨d, hd, h⟩
    · omega
    · rw [← h]; exact hm d hd

/-- A command with no region of its own leaves BUF as it is. -/
theorem effectOf_buf (i : Instr) (s : State) (h : writeRegions s i = []) : (effectOf i s).buf = s.buf := by
  cases i
  case b2Final | p13Final | ccXform | aeadEnc | aeadDec | pbkdf2 | hkdf | xorb => exact absurd h (List.cons_ne_nil _ _)
  case pcgRange => rcases effectOf_pcgRange _ _ _ s with h' | ⟨r, h'⟩ <;> rw [h']; simp only [pcgRangeEffect, setXNat_buf]
  all_goals simp only [effectOf, ldiEffect, ldsEffect, movEffect, rdsrEffect, clrerrEffect, b2InitEffect, b2UpdateEffect,
    cc20InitEffect, xcc20InitEffect, p13InitEffect, p13UpdateEffect, aeadInitEffect, kdfCfgEffect, pcgSeedEffect,
    pcgNextEffect, pcgJumpEffect, pcgGetsEffect, rotl32Effect, rotr32Effect, rotl64Effect, rotr64Effect, lzcnt32Effect,
    lzcnt64Effect, tzcnt32Effect, tzcnt64Effect, popcnt32Effect, popcnt64Effect, log2fEffect, log2cEffect, ispow2Effect,
    gcdEffect, modinvEffect, cteqEffect, setX_buf, setXNat_buf]

theorem length_chachaXor_readSpan_le (w : Vector Word32 16) (ctr0 : Nat) (s : State) (r : SpanReg) :
    (chachaXor w ctr0 (s.readSpan r)).length ≤ s.spanLen r := by
  rw [chachaXor, length_xorBytes, length_readSpan]; exact Nat.min_le_left ..

/-- A command with one region writes one string there. -/
theorem one_write {i : Instr} {s : State} {a n : Nat} {v : Bytes} (hbuf : (effectOf i s).buf = s.buf.putAll a v)
    (hlen : v.length ≤ n) (hr : writeRegions s i = [(a, n)]) :
    ∃ writes, (effectOf i s).buf = s.buf.putRegions writes ∧ List.Forall₂ WrittenTo writes (writeRegions s i) :=
  ⟨[(a, v)], hbuf, by rw [hr]; exact .cons ⟨rfl, hlen⟩ .nil⟩

/-- The effect of a command writes its own regions of BUF, one string to each, and nothing else. -/
theorem effectOf_buf_writes (i : Instr) (s : State) :
    ∃ writes, (effectOf i s).buf = s.buf.putRegions writes ∧ List.Forall₂ WrittenTo writes (writeRegions s i) := by
  cases i
  case b2Final xa =>
    refine one_write (v := s.b2.finish.digest) ?_ ?_ rfl
    · simp only [effectOf, b2FinalEffect, memWrite_buf]
    · rw [Blake2.digest, finish_outlen]; exact List.length_take_le ..
  case p13Final xa =>
    refine one_write (v := s.p13.mac.finish.tag) ?_ (length_toLe ..).le rfl
    simp only [effectOf, p13FinalEffect, memWrite_buf]
  case ccXform xa sb xc =>
    refine one_write (v := chachaXor s.cc.w (firstCounter s.cc.w (s.xNat xc)) (s.readSpan sb)) ?_
      (length_chachaXor_readSpan_le ..) rfl
    simp only [effectOf, ccXformEffect, setXNat_buf, memWrite_buf]
  case aeadEnc xa sb sc =>
    have hct := length_chachaXor_readSpan_le s.aead.w s.aead.payloadCounter s sb
    generalize hv : chachaXor s.aead.w s.aead.payloadCounter (s.readSpan sb) = ct at hct
    refine ⟨[(s.xNat xa, ct), (s.spanAddr sc, s.aead.tag ct)], ?_,
      .cons ⟨rfl, hct⟩ (.cons ⟨rfl, (length_toLe ..).le⟩ .nil)⟩
    simp only [effectOf, aeadEncEffect, hv, memWrite_buf, Memory.putRegions, List.foldl_cons, List.foldl_nil]
  case aeadDec xa sb sc =>
    refine one_write (v := chachaXor s.aead.w s.aead.payloadCounter (s.readSpan sb)) ?_
      (length_chachaXor_readSpan_le ..) rfl
    simp only [effectOf, aeadDecEffect, memWrite_buf]
  case pbkdf2 sa sb xc =>
    refine one_write (v := pbkdf2Output s.kdf (s.readSpan sb) (s.xNat xc) (s.spanLen sa)) ?_ (List.length_take_le ..) rfl
    simp only [effectOf, pbkdf2Effect, memWrite_buf]
  case hkdf sa sb =>
    refine one_write (v := hkdfOutput s.kdf (s.readSpan sb) (s.spanLen sa)) ?_ (List.length_take_le ..) rfl
    simp only [effectOf, hkdfEffect, memWrite_buf]
  case xorb xa sb sc =>
    refine one_write (v := xorBytes (s.readSpan sb) (s.readSpan sc)) ?_ ?_ rfl
    · simp only [effectOf, xorbEffect, memWrite_buf]
    · rw [length_xorBytes, length_readSpan]; exact Nat.min_le_left ..
  all_goals exact ⟨[], effectOf_buf _ s rfl, .nil⟩

/-- The regions that an accepted command writes have passed CheckSpan (spec/20_memory.md R64). -/
theorem writeRegions_spanOk {i : Instr} {s : State} (h : Accepts s i) :
    ∀ region ∈ writeRegions s i, s.spanOk region.1 region.2 = true := by
  have span : ∀ a n, needSpan s a n ∈ checksOf s i → s.spanOk a n = true := fun a n hm => h _ hm
  cases i
  case b2Final | p13Final | ccXform | aeadDec | pbkdf2 | hkdf | xorb =>
    simp only [writeRegions, List.forall_mem_singleton]
    apply span
    simp [checksOf, b2FinalChecks, p13FinalChecks, ccXformChecks, aeadPayloadChecks, pbkdf2Checks, hkdfChecks, xorbChecks]
  case aeadEnc =>
    simp only [writeRegions, List.forall_mem_cons]
    refine ⟨span _ _ ?_, span _ _ ?_, nofun⟩ <;> simp [checksOf, aeadPayloadChecks]
  all_goals exact nofun

end Sys2Proof.Machine
end

section
/-! The Poly1305 unit: one block, the key, and what a session holds of its input (spec/43_poly1305.md R200 to R205). -/

namespace Sys2Proof.Machine

/-! ## Poly1305: one block (spec/43_poly1305.md R204) -/

theorem absorbBlock_acc (p : PolyMac) (b : Bytes) (hibit : Nat) (hp : p.Inv) (hi : hibit ≤ 1) :
    (p.absorbBlock b hibit).acc
      = (carryChain (limbProducts (addBlock (Limbs.ofFields p.h) b hibit) (Limbs.ofFields p.r) p.s5Limbs)).value := by
  rw [PolyMac.acc, PolyMac.absorbBlock, (absorbBlock_reduced p b hibit hp hi).toFields]

/-- Absorbing a block of 16 bytes is `(H + n) × r` modulo p. -/
theorem absorbBlock_acc_mod (p : PolyMac) (b : Bytes) (hibit : Nat) (hp : p.Inv) (hb : b.length = 16) (hi : hibit ≤ 1) :
    (p.absorbBlock b hibit).acc % polyP = (p.acc + (le b + hibit * 2 ^ 128)) * p.rValue % polyP := by
  obtain ⟨h1, h2, h3, h4⟩ := s5Limbs_eq p hp
  have hmod := (carryChain_value _).trans
    (limbProducts_value (addBlock (Limbs.ofFields p.h) b hibit) (Limbs.ofFields p.r) p.s5Limbs h1 h2 h3 h4)
  rw [addBlock_value _ b hibit hb] at hmod
  rw [absorbBlock_acc p b hibit hp hi]
  exact hmod

/-- Settles O36, from the laws of the limb steps. -/
theorem absorbBlockMultipliesModP : Obligations.AbsorbBlockMultipliesModP := by
  intro p b hibit hp hb hi
  refine ⟨absorbBlock_acc_mod p b hibit hp hb hi, ?_, absorbBlock_inv p b hibit hp hi⟩
  rw [absorbBlock_acc p b hibit hp hi]
  exact (absorbBlock_reduced p b hibit hp hi).value_lt

/-! ## Poly1305: the key (spec/43_poly1305.md R200 to R202) -/

/-- A bitwise AND, taken in two parts: the low k bits and the rest. -/
theorem and_eq_low_add_high (x c k : Nat) : x &&& c = (x % 2 ^ k &&& c % 2 ^ k) + 2 ^ k * (x / 2 ^ k &&& c / 2 ^ k) := by
  rw [← Nat.and_mod_two_pow, ← Nat.and_div_two_pow, Nat.mod_add_div]

/-- A mask below 2^k sees the low k bits only. -/
theorem and_eq_mod_and {c k : Nat} (x : Nat) (h : c < 2 ^ k) : x &&& c = x % 2 ^ k &&& c := by
  rw [and_eq_low_add_high x c k, Nat.mod_eq_of_lt h, Nat.div_eq_of_lt h, Nat.and_zero, Nat.mul_zero, Nat.add_zero]

/-- The limbs of a key stand for its first 16 bytes, clamped: each masked cut is a cut of the clamped number. -/
theorem keyLimbs_value (key : Bytes) : (keyLimbs key).value = polyKeyR key := by
  simp only [keyLimbs, Limbs.value, polyKeyR, polyClamp, le_slice, Nat.shiftRight_eq_div_pow]
  generalize le key = n
  rw [and_eq_mod_and (k := 26) _ (show 0x3FFFFFF < 2 ^ 26 by decide),
    and_eq_mod_and (k := 26) _ (show 0x3FFFF03 < 2 ^ 26 by decide),
    and_eq_mod_and (k := 26) _ (show 0x3FFC0FF < 2 ^ 26 by decide),
    and_eq_mod_and (k := 26) _ (show 0x3F03FFF < 2 ^ 26 by decide),
    and_eq_mod_and (k := 24) _ (show 0x00FFFFF < 2 ^ 24 by decide)]
  generalize hN : n / 256 ^ 0 % 256 ^ (16 - 0) = N
  have e0 : n / 256 ^ 0 % 256 ^ (4 - 0) % 2 ^ 26 = N % 2 ^ 26 := by omega
  have e1 : n / 256 ^ 3 % 256 ^ (7 - 3) / 2 ^ 2 % 2 ^ 26 = N / 2 ^ 26 % 2 ^ 26 := by omega
  have e2 : n / 256 ^ 6 % 256 ^ (10 - 6) / 2 ^ 4 % 2 ^ 26 = N / 2 ^ 26 / 2 ^ 26 % 2 ^ 26 := by omega
  have e3 : n / 256 ^ 9 % 256 ^ (13 - 9) / 2 ^ 6 % 2 ^ 26 = N / 2 ^ 26 / 2 ^ 26 / 2 ^ 26 % 2 ^ 26 := by omega
  have e4 : n / 256 ^ 12 % 256 ^ (16 - 12) / 2 ^ 8 % 2 ^ 24 = N / 2 ^ 26 / 2 ^ 26 / 2 ^ 26 / 2 ^ 26 := by omega
  rw [e0, e1, e2, e3, e4, and_eq_low_add_high N _ 26, and_eq_low_add_high (N / 2 ^ 26) _ 26,
    and_eq_low_add_high (N / 2 ^ 26 / 2 ^ 26) _ 26, and_eq_low_add_high (N / 2 ^ 26 / 2 ^ 26 / 2 ^ 26) _ 26]
  norm_num
  ring

theorem keyLimbs_toFields (key : Bytes) : Limbs.ofFields (keyLimbs key).toFields = keyLimbs key := by
  obtain ⟨b0, b1, b2, b3, b4⟩ := keyLimbs_bounds key
  apply toFields_value <;> omega

section
variable (p : PolyMac) (key : Bytes)
@[simp] theorem polyInit_fill : (p.init key).fill = 0 := rfl
@[simp] theorem polyInit_acc : (p.init key).acc = 0 := by
  simp [PolyMac.acc, PolyMac.init, Limbs.ofFields, Limbs.value, Vector.get_eq_getElem]
@[simp] theorem polyInit_rValue : (p.init key).rValue = polyKeyR key :=
  (congrArg Limbs.value (keyLimbs_toFields key)).trans (keyLimbs_value key)

/-- The four pad words of a key stand for its second 16 bytes. -/
@[simp] theorem polyInit_sValue : (p.init key).sValue = polyKeyS key := by
  simp only [PolyMac.sValue, PolyMac.init, polyKeyS, Vector.get_eq_getElem, Vector.getElem_ofFn, le_slice,
    BitVec.toNat_ofNat]
  norm_num
  omega
end

theorem polyKeyS_eq_le_drop {key : Bytes} (h : key.length ≤ 32) : polyKeyS key = le (key.drop 16) := by
  rw [polyKeyS, slice, List.take_of_length_le]
  rw [List.length_drop]; omega

theorem polyKeyR_eq_le_take (key : Bytes) : polyKeyR key = le (key.take 16) &&& polyClamp := by
  rw [polyKeyR, slice, List.drop_zero]

/-! ## Poly1305: bytes (spec/43_poly1305.md R205) -/

section
variable (p : PolyMac) (d : Byte) (data : Bytes)
@[simp] theorem polyAbsorbByte_r : (p.absorbByte d).r = p.r := by simp only [PolyMac.absorbByte]; split <;> rfl
@[simp] theorem polyAbsorbByte_s5 : (p.absorbByte d).s5 = p.s5 := by simp only [PolyMac.absorbByte]; split <;> rfl
@[simp] theorem polyAbsorbByte_pad : (p.absorbByte d).pad = p.pad := by simp only [PolyMac.absorbByte]; split <;> rfl
theorem polyAbsorb_cons (ds : Bytes) : p.absorb (d :: ds) = (p.absorbByte d).absorb ds := rfl

/-- What no byte changes, no byte string changes. -/
theorem polyAbsorb_keeps {α : Type} (f : PolyMac → α) (hf : ∀ p d, f (PolyMac.absorbByte p d) = f p) :
    f (p.absorb data) = f p := by
  induction data generalizing p with
  | nil => rfl
  | cons d ds ih => rw [polyAbsorb_cons, ih, hf]
@[simp] theorem polyAbsorb_r : (p.absorb data).r = p.r := polyAbsorb_keeps p data PolyMac.r polyAbsorbByte_r
@[simp] theorem polyAbsorb_s5 : (p.absorb data).s5 = p.s5 := polyAbsorb_keeps p data PolyMac.s5 polyAbsorbByte_s5
@[simp] theorem polyAbsorb_pad : (p.absorb data).pad = p.pad := polyAbsorb_keeps p data PolyMac.pad polyAbsorbByte_pad
theorem polyAbsorb_sValue : (p.absorb data).sValue = p.sValue := by rw [PolyMac.sValue, polyAbsorb_pad, ← PolyMac.sValue]
end

/-- A byte that completes no block waits. -/
theorem polyAbsorbByte_of_waits {p : PolyMac} (d : Byte) (h : p.fill + 1 ≠ 16) :
    p.absorbByte d = { p with buf := p.buf.setIfInBounds p.fill d, fill := p.fill + 1 } := if_neg h

/-- The sixteenth byte completes the block that waits, which is absorbed. -/
theorem polyAbsorbByte_acc_of_completes {p : PolyMac} (d : Byte) (h : p.fill + 1 = 16) :
    (p.absorbByte d).acc = (p.absorbBlock (p.buf.toList.take p.fill ++ [d]) 1).acc := by
  have hblock : (p.buf.setIfInBounds p.fill d).toList = p.buf.toList.take p.fill ++ [d] := by
    rw [← take_setIfInBounds p.buf p.fill d (by omega), List.take_of_length_le]
    rw [Vector.length_toList]; omega
  simp only [PolyMac.absorbByte, if_pos h, PolyMac.acc, hblock, PolyMac.absorbBlock, PolyMac.s5Limbs]

theorem polyAbsorbByte_fill {p : PolyMac} (d : Byte) (hp : p.fill ≤ 15) :
    (p.absorbByte d).fill = (p.fill + 1) % 16 := by
  simp only [PolyMac.absorbByte]
  split
  · next h16 => rw [h16]
  · next h16 => simp only at h16 ⊢; omega

/-- The fill is the number of bytes taken, modulo 16. -/
theorem polyAbsorb_fill {p : PolyMac} (data : Bytes) (hp : p.fill ≤ 15) :
    (p.absorb data).fill = (p.fill + data.length) % 16 := by
  induction data generalizing p with
  | nil => exact (Nat.mod_eq_of_lt (Nat.lt_succ_of_le hp)).symm
  | cons d ds ih =>
    have hd := polyAbsorbByte_fill d hp
    rw [polyAbsorb_cons, ih (by omega), hd, List.length_cons]
    omega

/-- Bytes that complete no block leave the accumulator. -/
theorem polyAbsorb_h_of_no_block {p : PolyMac} (data : Bytes) (h : p.fill + data.length < 16) :
    (p.absorb data).h = p.h := by
  induction data generalizing p with
  | nil => rfl
  | cons d ds ih =>
    rw [List.length_cons] at h
    have hd := polyAbsorbByte_of_waits (p := p) d (by omega)
    rw [polyAbsorb_cons, ih (by rw [hd]; exact (Nat.add_right_comm ..).trans_lt h), hd]

/-! ## Poly1305: what a session holds of its input (spec/43_poly1305.md R203, R205) -/

@[simp] theorem polyBlocks_nil (fuel : Nat) : polyBlocks fuel [] = [] := by cases fuel <;> rfl

/-- After `k` whole blocks, up to 16 bytes more are one block more. -/
theorem polyBlocks_append_block {fuel k : Nat} {a b : Bytes} (ha : a.length = 16 * k) (hb : b ≠ []) (hb' : b.length ≤ 16)
    (hk : k < fuel) : polyBlocks fuel (a ++ b) = polyBlocks fuel a ++ [b] := by
  induction k generalizing fuel a with
  | zero =>
    obtain ⟨f, rfl⟩ := Nat.exists_eq_add_of_lt hk
    obtain rfl : a = [] := List.length_eq_zero_iff.mp ha
    rw [polyBlocks_nil, List.nil_append, List.nil_append, polyBlocks, if_neg hb, List.take_of_length_le hb',
      List.drop_of_length_le hb', polyBlocks_nil]
  | succ k ih =>
    cases fuel with
    | zero => omega
    | succ f =>
      have hne : a ≠ [] := by rintro rfl; simp at ha
      rw [polyBlocks, polyBlocks, if_neg hne, if_neg (List.append_ne_nil_of_left_ne_nil hne b),
        List.take_append_of_le_length (by omega), List.drop_append_of_le_length (by omega),
        ih (by rw [List.length_drop]; omega) (by omega), List.cons_append]

theorem polyAccumulate_append_block (r : Nat) (blocks : List Bytes) (b : Bytes) :
    polyAccumulate r (blocks ++ [b]) = (polyAccumulate r blocks + polyBlockValue b) * r % polyP := by
  rw [polyAccumulate, List.foldl_append, List.foldl_cons, List.foldl_nil, ← polyAccumulate]

/-- The number of input bytes that are in whole blocks. -/
def wholeLength (input : Bytes) : Nat := 16 * (input.length / 16)

/-- A session with multiplier `r` has taken the bytes `input`: its whole blocks are accumulated, the rest waits in the
buffer. -/
structure PolyAbsorbed (r : Nat) (input : Bytes) (p : PolyMac) : Prop where
  inv : p.Inv
  multiplier : p.rValue = r
  fill : p.fill = input.length % 16
  waiting : p.buf.toList.take p.fill = input.drop (wholeLength input)
  acc : ∀ fuel, input.length / 16 ≤ fuel →
    p.acc % polyP = polyAccumulate r (polyBlocks fuel (input.take (wholeLength input)))

theorem polyAbsorbed_init (old : PolyMac) (key : Bytes) : PolyAbsorbed (polyKeyR key) [] (old.init key) where
  inv := polyInit_inv old key
  multiplier := polyInit_rValue old key
  fill := rfl
  waiting := rfl
  acc fuel _ := by rw [polyInit_acc, List.take_nil, polyBlocks_nil]; rfl

theorem wholeLength_le (input : Bytes) : wholeLength input ≤ input.length := Nat.mul_div_le ..

/-- One byte more is taken (R205). -/
theorem PolyAbsorbed.absorbByte {r : Nat} {input : Bytes} {p : PolyMac} (a : PolyAbsorbed r input p) (d : Byte) :
    PolyAbsorbed r (input ++ [d]) (p.absorbByte d) := by
  obtain ⟨hinv, hr, hfill, hwait, hacc⟩ := a
  have hle := wholeLength_le input
  have hlen : (input ++ [d]).length = input.length + 1 := List.length_append
  have hr' : (p.absorbByte d).rValue = r := by rw [PolyMac.rValue, polyAbsorbByte_r]; exact hr
  have hfill' : (p.absorbByte d).fill = (input ++ [d]).length % 16 := by rw [polyAbsorbByte_fill d hinv.fill]; omega
  have hrest : p.buf.toList.take p.fill ++ [d] = (input ++ [d]).drop (wholeLength input) := by
    rw [hwait, List.drop_append_of_le_length hle]
  by_cases h16 : p.fill + 1 = 16
  · have hwhole : wholeLength (input ++ [d]) = (input ++ [d]).length := by rw [wholeLength]; omega
    refine ⟨polyAbsorbByte_inv p d hinv, hr', hfill', ?_, fun fuel hfuel => ?_⟩
    · rw [hfill', hwhole, List.drop_length, show (input ++ [d]).length % 16 = 0 by omega, List.take_zero]
    · have hblock : (p.buf.toList.take p.fill ++ [d]).length = 16 := by simp; omega
      have hsplit : input ++ [d] = input.take (wholeLength input) ++ (p.buf.toList.take p.fill ++ [d]) := by
        rw [hwait, ← List.append_assoc, List.take_append_drop]
      have hblocks : polyBlocks fuel (input ++ [d])
          = polyBlocks fuel (input.take (wholeLength input)) ++ [p.buf.toList.take p.fill ++ [d]] := by
        rw [hsplit]
        exact polyBlocks_append_block (k := input.length / 16) (List.length_take_of_le hle) (by simp) hblock.le (by omega)
      rw [hwhole, List.take_length, hblocks, polyAccumulate_append_block, ← hacc fuel (by omega),
        polyAbsorbByte_acc_of_completes d h16, absorbBlock_acc_mod _ _ _ hinv hblock le_rfl, polyBlockValue, hblock, hr,
        Nat.one_mul, Nat.mul_mod, Nat.mul_mod (_ + _) r, Nat.mod_add_mod]
  · have hwhole : wholeLength (input ++ [d]) = wholeLength input := by rw [wholeLength, wholeLength]; omega
    have hstep := polyAbsorbByte_of_waits d h16
    refine ⟨polyAbsorbByte_inv p d hinv, hr', hfill', ?_, fun fuel hfuel => ?_⟩
    · rw [hwhole, ← hrest, ← take_setIfInBounds p.buf p.fill d (by omega), hstep]
    · rw [hwhole, List.take_append_of_le_length hle, ← hacc fuel (by omega), hstep]
      simp only [PolyMac.acc]

/-- A byte string is taken (R205). -/
theorem PolyAbsorbed.absorb {r : Nat} {input : Bytes} {p : PolyMac} (a : PolyAbsorbed r input p) (data : Bytes) :
    PolyAbsorbed r (input ++ data) (p.absorb data) := by
  induction data generalizing input p with
  | nil => rw [List.append_nil]; exact a
  | cons d ds ih => rw [List.append_cons]; exact ih (a.absorbByte d)

/-- Input of whole blocks is accumulated whole. -/
theorem PolyAbsorbed.acc_of_whole {r : Nat} {input : Bytes} {p : PolyMac} (a : PolyAbsorbed r input p)
    (h : input.length % 16 = 0) {fuel : Nat} (hfuel : input.length / 16 ≤ fuel) :
    p.acc % polyP = polyAccumulate r (polyBlocks fuel input) := by
  have hwhole : wholeLength input = input.length := by rw [wholeLength]; omega
  rw [a.acc fuel hfuel, hwhole, List.take_length]

end Sys2Proof.Machine
end

section
/-! Every step keeps the invariant of the state. -/

namespace Sys2Proof.Machine

/-! ## The sessions after a command (spec/10_state.md R30 to R42) -/

theorem effectOf_b2_inv {i : Instr} {s : State} (h : s.b2.Inv) (ha : Accepts s i) : (effectOf i s).b2.Inv := by
  by_cases hw : writesEngine i = some .blake2
  · cases i
    case b2bInit sa xb =>
      have hl : hashLengthsOk .blake2b (s.spanLen sa) (s.xNat xb) = true := ha _ List.mem_cons_self
      exact blake2_init_inv s.b2 _ _ _ (by rw [length_readSpan]; exact hl)
    case b2sInit sa xb =>
      have hl : hashLengthsOk .blake2s (s.spanLen sa) (s.xNat xb) = true := ha _ List.mem_cons_self
      exact blake2_init_inv s.b2 _ _ _ (by rw [length_readSpan]; exact hl)
    case b2Update sa => exact blake2_absorb_inv s.b2 _ h
    case b2Final xa =>
      simp only [effectOf, b2FinalEffect, memWrite_b2]
      exact blake2_finish_inv s.b2 h
    all_goals nomatch hw
  · rw [effectOf_b2 i s hw]; exact h

theorem chacha20Words_contextWords (key nonce : Bytes) : contextWords (chacha20Words key nonce) := ⟨rfl, rfl, rfl, rfl, rfl⟩

theorem xchacha20Words_contextWords (key nonce : Bytes) : contextWords (xchacha20Words key nonce) :=
  ⟨rfl, rfl, rfl, rfl, rfl⟩

theorem effectOf_cc_inv {i : Instr} {s : State} (h : s.cc.Inv) : (effectOf i s).cc.Inv := by
  by_cases hw : writesEngine i = some .chacha
  · cases i
    case cc20Init sa sb => exact { words := fun _ => chacha20Words_contextWords .., nonce := nofun }
    case xcc20Init sa sb => exact { words := fun _ => xchacha20Words_contextWords .., nonce := fun _ => rfl }
    all_goals nomatch hw
  · rw [effectOf_cc i s hw]; exact h

theorem effectOf_p13_inv {i : Instr} {s : State} (h : s.p13.mac.Inv) : (effectOf i s).p13.mac.Inv := by
  by_cases hw : writesEngine i = some .poly1305
  · cases i
    case p13Init sa => exact polyInit_inv s.p13.mac _
    case p13Update sa => exact polyAbsorb_inv s.p13.mac _ h
    case p13Final xa =>
      simp only [effectOf, p13FinalEffect, memWrite_p13]
      exact polyFinish_inv s.p13.mac h
    all_goals nomatch hw
  · rw [effectOf_p13 i s hw]; exact h

/-- The associated data and its padding are whole blocks (spec/44_aead.md R221). -/
theorem length_append_pad16_mod (b : Bytes) : (b ++ pad16 b.length).length % 16 = 0 := by
  rw [List.length_append, length_pad16]; omega

theorem aeadInit_inv (a : Aead) (key nonce aad : Bytes) : (a.init key nonce aad).Inv where
  p := polyAbsorb_inv _ _ (polyInit_inv ..)
  words _ := chacha20Words_contextWords key nonce
  whole _ := by
    rw [Aead.init, polyAbsorb_fill _ (Nat.zero_le 15), polyInit_fill, Nat.zero_add, length_append_pad16_mod]

theorem aeadComplete_inv {a : Aead} (h : a.Inv) (ct : Bytes) : (a.complete ct).Inv where
  p := polyFinish_inv _ (polyAbsorb_inv _ _ h.p)
  words := nofun
  whole := nofun

theorem effectOf_aead_inv {i : Instr} {s : State} (h : s.aead.Inv) : (effectOf i s).aead.Inv := by
  by_cases hw : writesEngine i = some .aead
  · cases i
    case aeadInit sa sb sc => exact aeadInit_inv s.aead ..
    case aeadEnc xa sb sc =>
      simp only [effectOf, aeadEncEffect, memWrite_aead]
      exact aeadComplete_inv h _
    case aeadDec xa sb sc =>
      simp only [effectOf, aeadDecEffect, memWrite_aead]
      exact aeadComplete_inv h _
    all_goals nomatch hw
  · rw [effectOf_aead i s hw]; exact h

theorem effectOf_kdf_inv {i : Instr} {s : State} (h : s.kdf.Inv) (ha : Accepts s i) : (effectOf i s).kdf.Inv := by
  by_cases hw : writesEngine i = some .kdf
  · cases i
    case kdfCfg sa xb imm8 =>
      have hl : hashLengthsOk (variantOf imm8) (s.spanLen sa) (s.xNat xb) = true :=
        ha _ (List.mem_cons_of_mem _ List.mem_cons_self)
      obtain ⟨hk, ho1, ho⟩ := (hashLengthsOk_iff ..).mp hl
      refine { keylen := hk, outlen := ho, readyLen := fun _ => ho1, padding := fun j hj => ?_ }
      simp only [effectOf, kdfCfgEffect] at hj ⊢
      rw [get_overwrite, List.getD_eq_default _ _ (by rw [length_readSpan]; exact hj)]
      exact get_replicate 0 j
    all_goals nomatch hw
  · rw [effectOf_kdf i s hw]; exact h

/-! ## The generator's increment (spec/47_pcg32.md R281 to R286) -/

@[simp] theorem step_iterate_inc (g : Pcg) (n : Nat) : (Pcg.step^[n] g).inc = g.inc := by rw [step_iterate]

theorem drawOnce_ok_inc {lo range thr : Nat} {g : Pcg} {r : Nat × Pcg} (h : drawOnce lo range thr g = .ok r) :
    r.2.inc = g.inc := by
  simp only [drawOnce] at h
  split at h
  · cases h; rw [draw_snd, step_inc]
  · nomatch h

/-- A bounded draw leaves the increment. -/
theorem bounded_inc {g : Pcg} {lo hi : Nat} {r : Nat × Pcg} (h : g.bounded lo hi = some r) : r.2.inc = g.inc := by
  simp only [Pcg.bounded] at h
  split at h
  · cases h; rw [draw_snd, step_inc]
  · obtain ⟨n, -, -, q, hq, hu⟩ | ⟨-, hu⟩ := drawUpTo_spec lo (hi - lo + 1) (2 ^ 32 % (hi - lo + 1)) 64 g
    · rw [hu] at h
      cases h
      rw [drawOnce_ok_inc hq, step_iterate_inc]
    · rw [hu] at h
      nomatch h

theorem or_one_odd (x : Word) : (x ||| 1).toNat % 2 = 1 := by
  rw [BitVec.toNat_or]
  exact (Nat.or_mod_two_eq_one).mpr (.inr rfl)

theorem effectOf_pcg_inc_odd {i : Instr} {s : State} (h : s.pcg.inc.toNat % 2 = 1) :
    (effectOf i s).pcg.inc.toNat % 2 = 1 := by
  by_cases hw : writesEngine i = some .pcg
  · cases i
    case pcgSeed xa xb => exact or_one_odd (s.getX xb)
    case pcgNext xa =>
      simp only [effectOf, pcgNextEffect, setX_pcg, draw_snd, step_inc]
      exact h
    case pcgRange xa xb xc =>
      simp only [effectOf]
      split
      · next r hr =>
        simp only [pcgRangeEffect, setXNat_pcg]
        rw [bounded_inc hr]; exact h
      · exact h
    case pcgJump xa =>
      simp only [effectOf, pcgJumpEffect, Pcg.jump]
      exact h
    all_goals nomatch hw
  · rw [effectOf_pcg i s hw]; exact h

/-! ## The invariant of the machine -/

theorem clrerrEffect_inv {s : State} (h : s.Inv) : (clrerrEffect s).Inv :=
  { h with sr0 := Nat.two_pow_pos 3, sr1 := .inl ⟨rfl, rfl⟩, sr2 := Nat.two_pow_pos 32 }

/-- The effect of an accepted command keeps the invariant. -/
theorem effectOf_inv {i : Instr} {s : State} (h : s.Inv) (ha : Accepts s i) : (effectOf i s).Inv := by
  by_cases hi : i = .clrerr
  · subst hi; exact clrerrEffect_inv h
  · obtain ⟨writes, hbuf, hw⟩ := effectOf_buf_writes i s
    have hregions : ∀ r ∈ writeRegions s i, r.2 = 0 ∨ r.1 + r.2 ≤ s.cfg.bufBytes := fun r hr =>
      (spanOk_iff ..).mp (writeRegions_spanOk ha r hr)
    exact
      { cfg := by rw [effectOf_cfg]; exact h.cfg
        memWf := by rw [hbuf]; exact putRegions_wf _ _ h.memWf
        memIn := by rw [hbuf, effectOf_cfg]; exact putRegions_bound hw hregions h.memIn
        sr0 := by rw [effectOf_errflags i s hi]; exact h.sr0
        sr1 := by rw [effectOf_errflags i s hi, effectOf_lasterr i s hi]; exact h.sr1
        sr2 := by rw [effectOf_lastcmd i s hi]; exact h.sr2
        b2 := effectOf_b2_inv h.b2 ha
        cc := effectOf_cc_inv h.cc
        p13 := effectOf_p13_inv h.p13
        aead := effectOf_aead_inv h.aead
        kdf := effectOf_kdf_inv h.kdf ha
        pcg := effectOf_pcg_inc_odd h.pcg }

/-- Executing a command keeps the invariant, whether it completes OK or raises. -/
theorem exec_inv {i : Instr} {s t : State} (h : s.Inv) (he : exec i s = .next t) : t.Inv := by
  obtain ⟨e, -, rfl⟩ | ⟨ha, rfl, -, -⟩ | ⟨xa, sb, sc, -, -, -, rfl⟩ := exec_cases he
  · exact raise_inv h (encode i) e
  · exact retire_inv (effectOf_inv h ha)
  · exact raise_inv (aeadConsumed_inv h) (encode i) .authentication

/-- Settles O17: each of the host's events, and each way a command can end, keeps the invariant. -/
theorem stepKeepsTheInvariant : Obligations.StepKeepsTheInvariant := by
  intro s t h hs
  obtain ⟨-, rfl⟩ | ⟨w, rest, i, -, -, he⟩ | ⟨w, rest, e, -, -, rfl⟩ | ⟨a, bs, rest, -, hok, rfl⟩ | ⟨rest, -, rfl⟩ :=
    step_next_cases hs
  · exact h
  · exact exec_inv (withPort_inv h rest) he
  · exact raise_inv (withPort_inv h rest) w (.usage .illegalCmd)
  · exact memWrite_inv (withPort_inv h rest) a bs hok
  · exact afterReset_inv s.cfg (s.resets + 1) rest h.cfg

end Sys2Proof.Machine
end

section
/-! What every command reports and leaves alone; the host's other events; operands. -/

namespace Sys2Proof.Machine

/-! ## Every command -/

/-- A command's completion is counted, and leaves the host's pending events and the parameters alone, however
it ends. -/
theorem exec_counts_and_keepsEnv {i : Instr} {s t : State} (h : exec i s = .next t) :
    t.cmdcnt = s.cmdcnt + 1 ∧ KeepsEnv s t := by
  obtain ⟨e, -, rfl⟩ | ⟨-, rfl, -, -⟩ | ⟨xa, sb, sc, -, -, -, rfl⟩ := exec_cases h
  · exact ⟨raise_cmdcnt .., rfl, rfl, rfl⟩
  · rw [retire_cmdcnt, effectOf_cmdcnt]
    exact ⟨rfl, effectOf_cfg i s, effectOf_resets i s, effectOf_port i s⟩
  · exact ⟨raise_cmdcnt .., rfl, rfl, rfl⟩

/-- The status that an error reports is its cause, which SR1 holds too (spec/60_exceptions.md R343). -/
theorem raise_reports (s : State) (w : Word32) (e : Error) :
    ∃ st, (s.raise w e).status = some st ∧ (st.code = 0 ∨ st.code = (s.raise w e).lasterr.toNat % 4) :=
  ⟨e.status, rfl, .inr (status_code_eq_record_mod e)⟩

theorem exec_reports {i : Instr} {s t : State} (h : exec i s = .next t) :
    ∃ st, t.status = some st ∧ (st.code = 0 ∨ st.code = t.lasterr.toNat % 4) := by
  obtain ⟨e, -, rfl⟩ | ⟨-, rfl, -, -⟩ | ⟨xa, sb, sc, -, -, -, rfl⟩ := exec_cases h
  · exact raise_reports ..
  · exact ⟨.ok, rfl, .inl rfl⟩
  · exact raise_reports ..

/-- Settles O14, by the ways a command can end. -/
theorem errorRecordIsSticky : Obligations.ErrorRecordIsSticky := by
  intro i s t h
  obtain ⟨e, -, rfl⟩ | ⟨-, rfl, -, -⟩ | ⟨xa, sb, sc, -, -, -, rfl⟩ := exec_cases h
  · exact .inr ⟨e, rfl, rfl, record_toNat e, setWidth_word_toNat _⟩
  · refine .inl ⟨rfl, fun hi => ?_, fun hi => ?_⟩
    · exact ⟨effectOf_errflags i s hi, effectOf_lasterr i s hi, effectOf_lastcmd i s hi⟩
    · subst hi; exact ⟨rfl, rfl, rfl⟩
  · exact .inr ⟨.authentication, rfl, rfl, record_toNat _, setWidth_word_toNat _⟩

/-- Settles O15: by the event that the step takes. -/
theorem everyCommandIsCountedAndReports : Obligations.EveryCommandIsCountedAndReports := by
  intro s t h
  refine ⟨fun w rest hp => ?_, fun a bs rest hp => ?_⟩
  · rw [step_command hp] at h
    obtain ⟨i, -, he⟩ | ⟨e, -, he⟩ := acceptCommand_cases w { s with port := rest }
    · rw [he] at h
      obtain ⟨hcnt, -, -, hport⟩ := exec_counts_and_keepsEnv h
      exact ⟨hcnt, hport, exec_reports h⟩
    · rw [he] at h
      cases h
      exact ⟨rfl, rfl, raise_reports ..⟩
  · rw [step_writeBuf hp] at h
    obtain ⟨-, he⟩ | ⟨-, he⟩ := hostWrite_cases a bs { s with port := rest }
    · rw [he] at h
      cases h
      exact ⟨rfl, rfl, rfl⟩
    · rw [he] at h
      nomatch h

/-- Settles O19: an error writes no register, an effect only its destination. -/
theorem onlyTheDestinationRegisterChanges : Obligations.OnlyTheDestinationRegisterChanges := by
  intro i s t h r hr
  obtain ⟨e, -, rfl⟩ | ⟨-, rfl, -, -⟩ | ⟨xa, sb, sc, -, -, -, rfl⟩ := exec_cases h
  · exact getX_raise ..
  · exact effectOf_getX i s r hr
  · rfl

/-- Settles O21: an error changes no engine, but for AEAD.DEC's own. -/
theorem enginesChangeOnlyByTheirOwnCommands : Obligations.EnginesChangeOnlyByTheirOwnCommands := by
  intro i s t h
  obtain ⟨-, henv⟩ := exec_counts_and_keepsEnv h
  obtain ⟨e, -, rfl⟩ | ⟨-, rfl, -, -⟩ | ⟨xa, sb, sc, rfl, -, -, rfl⟩ := exec_cases h
  · exact ⟨fun _ => rfl, fun _ => rfl, fun _ => rfl, fun _ => rfl, fun _ => rfl, fun _ => rfl, henv⟩
  · exact ⟨effectOf_b2 i s, effectOf_cc i s, effectOf_p13 i s, effectOf_aead i s, effectOf_kdf i s, effectOf_pcg i s, henv⟩
  · exact ⟨fun _ => rfl, fun _ => rfl, fun _ => rfl, fun hw => absurd rfl hw, fun _ => rfl, fun _ => rfl, henv⟩

/-! ## Steps, reset and operands -/

theorem step_withFetchWord (s : State) (nbits w : Nat) :
    step (s.withFetchWord nbits w) = acceptCommand (BitVec.ofNat 32 (w % 2 ^ nbits)) s :=
  step_command rfl

/-- Settles O5: the step takes the word off the port and accepts it. -/
theorem stepRunsTheDecodedCommand : Obligations.StepRunsTheDecodedCommand := by
  refine ⟨fun s w rest hp => ?_, step_withFetchWord⟩
  rw [step_command hp, acceptCommand]
  exact ⟨fun i hi => by rw [hi], fun e he => by rw [he, illegalCommand]⟩

/-- Settles O7: a host write is `memWrite` when it lies in BUF, and a stop otherwise. -/
theorem hostActionsBetweenCommands : Obligations.HostActionsBetweenCommands := by
  intro s
  refine ⟨step_idle, fun a bs rest hp hok => ?_, fun a bs rest hp hout => ?_⟩
  · refine ⟨({ s with port := rest } : State).memWrite a bs, ?_, memRead_memWrite_self .., ?_, ?_⟩
    · rw [step_writeBuf hp, hostWrite]; exact if_pos hok
    · exact fun b hb => memWrite_keepsBufOutside _ a bs b hb
    · exact ⟨fun _ => rfl, ⟨rfl, rfl, rfl⟩, ⟨rfl, rfl, rfl, rfl, rfl, rfl⟩, rfl, rfl, rfl, rfl, rfl⟩
  · rw [step_writeBuf hp]
    obtain ⟨hok, -⟩ | ⟨-, he⟩ := hostWrite_cases a bs { s with port := rest }
    · nomatch hout.symm.trans hok
    · exact he

/-- Every field of the state after reset is at the value of R45. -/
theorem reset_atReset : AtReset State.reset where
  x := get_replicate 0
  sr := by decide
  status := rfl
  b2 := ⟨rfl, rfl, rfl, rfl, rfl, rfl, get_replicate 0, get_replicate 0⟩
  cc := ⟨rfl, rfl, get_replicate 0⟩
  p13 := ⟨rfl, rfl, get_replicate 0, get_replicate 0, get_replicate 0, get_replicate 0, get_replicate 0⟩
  aead := ⟨rfl, rfl, get_replicate 0, rfl, get_replicate 0, get_replicate 0, get_replicate 0, get_replicate 0,
    get_replicate 0⟩
  kdf := ⟨rfl, rfl, rfl, rfl, get_replicate 0⟩
  pcg := ⟨rfl, rfl⟩
  buf := fun _ => rfl

/-- Settles O8, field by field. -/
theorem resetLeavesTheStatedValues : Obligations.ResetLeavesTheStatedValues := ⟨reset_atReset, rfl⟩

theorem spanLen_eq (s : State) (r : SpanReg) :
    s.spanLen r = (s.getX ⟨(r.val + 1) % 16, Nat.mod_lt _ (by decide)⟩).toNat := by
  rw [State.spanLen, State.xNat]
  congr 2

/-- Two regions overlap exactly when they share a byte (spec/20_memory.md R66). -/
theorem overlap_iff (a1 n1 a2 n2 : Nat) : overlap a1 n1 a2 n2 = true ↔ ShareByte a1 n1 a2 n2 := by
  simp only [overlap, Bool.and_eq_true, decide_eq_true_eq]
  constructor
  · intro h
    exact ⟨max a1 a2, by omega⟩
  · rintro ⟨k, h⟩
    omega

/-- The in-place exception admits a destination at the source's own address (spec/20_memory.md R66). -/
theorem disjointOrSame_iff (d a n : Nat) : disjointOrSame d a n = true ↔ d = a ∨ ¬ShareByte d n a n := by
  rw [← overlap_iff, disjointOrSame, Bool.or_eq_true, decide_eq_true_eq, Bool.not_eq_true', Bool.not_eq_true, or_comm]

/-- Settles O22, from the meaning of each check. -/
theorem operandFormsAndRegionChecks : Obligations.OperandFormsAndRegionChecks := by
  refine ⟨fun s r => ⟨rfl, spanLen_eq s r⟩, spanOk_iff, overlap_iff, fun d a n => ?_⟩
  rw [disjointOrSame_iff, ShareByte, not_exists]

end Sys2Proof.Machine
end

section
/-! The commands that set up or feed a session. -/

namespace Sys2Proof.Machine

/-- An accepted command with no destination register and no region of BUF completes OK and changes a session at most. -/
theorem exec_session {i : Instr} {s : State} (ha : Accepts s i) (hclr : i ≠ .clrerr) (hdest : destRegister i = none)
    (hregions : writeRegions s i = []) :
    exec i s = .next (effectOf i s).retire ∧ WroteOnlySession s (effectOf i s).retire := by
  constructor
  · refine exec_ok ha ?_ ?_
    · rintro xa sb sc rfl; nomatch hregions
    · rintro xa xb xc rfl; nomatch hdest
  · refine ⟨fun r => effectOf_getX i s r (by rw [hdest]; nofun),
      ⟨effectOf_errflags i s hclr, effectOf_lasterr i s hclr, effectOf_lastcmd i s hclr⟩, fun a => ?_,
      ⟨effectOf_cfg i s, effectOf_resets i s, effectOf_port i s⟩, ?_, rfl⟩
    · rw [readByte_retire, State.readByte, effectOf_buf i s hregions, effectOf_resets, State.readByte]
    · rw [retire_cmdcnt, effectOf_cmdcnt]

/-! ## ChaCha (spec/42_chacha.md R174, R175) -/

theorem chacha20Words_get (key nonce : Bytes) (i : Fin 16) :
    (chacha20Words key nonce).get i = if h : i.val < 4 then chachaConst.get ⟨i.val, h⟩
      else if i.val < 12 then wordAt key (i.val - 4) else if i.val = 12 then 0 else wordAt nonce (i.val - 13) := by
  fin_cases i <;> rfl

theorem xchacha20Words_get (key nonce : Bytes) (i : Fin 16) :
    (xchacha20Words key nonce).get i = if h : i.val < 4 then chachaConst.get ⟨i.val, h⟩
      else if i.val < 12 then wordAt (hchacha20 key (nonce.take 16)) (i.val - 4)
      else if i.val < 14 then 0 else wordAt nonce (i.val - 10) := by
  fin_cases i <;> rfl

/-- Settles O31: the checks pass, and the context is read off word by word. -/
theorem chachaInitBuildsTheContext : Obligations.ChachaInitBuildsTheContext := by
  intro s sa sb hkey hkeySpan hnonceSpan
  refine ⟨fun hn => ?_, fun hn => ?_⟩
  · have ha : Accepts s (.cc20Init sa sb) := by
      simp [Accepts, checksOf, ccInitChecks, needLength, needSpan, hkey, hn, hkeySpan, hn ▸ hnonceSpan]
    obtain ⟨he, hw⟩ := exec_session ha (by simp) rfl rfl
    exact ⟨_, he, hw, rfl, rfl, rfl, rfl, rfl, rfl, rfl, chacha20Words_get _ _⟩
  · have ha : Accepts s (.xcc20Init sa sb) := by
      simp [Accepts, checksOf, ccInitChecks, needLength, needSpan, hkey, hn, hkeySpan, hn ▸ hnonceSpan]
    obtain ⟨he, hw⟩ := exec_session ha (by simp) rfl rfl
    exact ⟨_, he, hw, rfl, rfl, rfl, rfl, rfl, rfl, rfl, xchacha20Words_get _ _⟩

/-! ## Poly1305 (spec/43_poly1305.md R202, R205) -/

/-- Settles O35: the limbs and pad words stand for the key's two halves. -/
theorem p13InitCutsTheKey : Obligations.P13InitCutsTheKey := by
  intro s sa hkey hspan
  have ha : Accepts s (.p13Init sa) := by simp [Accepts, checksOf, p13InitChecks, needLength, needSpan, hkey, hspan]
  have hlen : (s.readSpan sa).length ≤ 32 := by rw [length_readSpan, hkey]
  have hinv := polyInit_inv s.p13.mac (s.readSpan sa)
  obtain ⟨he, hw⟩ := exec_session ha (by simp) rfl rfl
  exact ⟨_, he, hw, rfl, rfl, rfl, rfl, rfl, rfl, rfl, polyInit_acc .., (polyInit_rValue ..).trans (polyKeyR_eq_le_take _),
    (polyInit_sValue ..).trans (polyKeyS_eq_le_drop hlen), hinv.r, hinv.s5⟩

/-- Settles O37, from what absorbing a byte string does to each field. -/
theorem p13UpdateAbsorbsItsSpan : Obligations.P13UpdateAbsorbsItsSpan := by
  intro s sa hphase hinv hspan
  have ha : Accepts s (.p13Update sa) := by simp [Accepts, checksOf, p13UpdateChecks, needPhase, needSpan, hphase, hspan]
  have hlen : (s.readSpan sa).length = s.spanLen sa := length_readSpan s sa
  obtain ⟨he, hw⟩ := exec_session ha (by simp) rfl rfl
  refine ⟨_, he, hw, rfl, rfl, rfl, rfl, rfl, hphase, rfl, ?_, polyAbsorb_r .., polyAbsorb_s5 ..,
    polyAbsorb_pad .., fun h => ?_⟩
  · rw [← hlen]; exact polyAbsorb_fill _ hinv.fill
  · exact polyAbsorb_h_of_no_block _ (by rw [hlen]; exact h)

/-! ## AEAD (spec/44_aead.md R221) -/

theorem oneTimeKey_eq_take (w : Vector Word32 16) :
    oneTimeKey w = (chachaBlock w ((w.get 13).toNat * 2 ^ 32)).take 32 := by
  rw [oneTimeKey, firstCounter, Nat.zero_add, slice, List.drop_zero]

/-- The controller's own MAC session is keyed and has taken the associated data and its padding. -/
theorem aeadInit_absorbed (a : Aead) (key nonce aad : Bytes) :
    PolyAbsorbed (polyKeyR (oneTimeKey (chacha20Words key nonce))) (aad ++ pad16 aad.length) (a.init key nonce aad).p :=
  (polyAbsorbed_init a.p _).absorb _

/-- Settles O40: the controller's session is one that has taken the padded associated data. -/
theorem aeadInitDerivesKeyAndAbsorbsAad : Obligations.AeadInitDerivesKeyAndAbsorbsAad := by
  intro s sa sb sc hkey hnonce hkeySpan hnonceSpan haadSpan
  have ha : Accepts s (.aeadInit sa sb sc) := by
    simp [Accepts, checksOf, aeadInitChecks, needLength, needSpan, hkey, hnonce, hkeySpan, hnonceSpan, haadSpan]
  have habs := aeadInit_absorbed s.aead (s.readSpan sa) (s.readSpan sb) (s.readSpan sc)
  have hinv := aeadInit_inv s.aead (s.readSpan sa) (s.readSpan sb) (s.readSpan sc)
  have hwhole := length_append_pad16_mod (s.readSpan sc)
  have hlen : (s.readSpan sc).length = s.spanLen sc := length_readSpan s sc
  obtain ⟨he, hw⟩ := exec_session ha (by simp) rfl rfl
  refine ⟨_, oneTimeKey (chacha20Words (s.readSpan sa) (s.readSpan sb)), he, hw, rfl, rfl, rfl, rfl, rfl, rfl, rfl,
    oneTimeKey_eq_take _, habs.multiplier, (polyAbsorb_sValue ..).trans (polyInit_sValue ..), hinv.whole rfl, ?_, ?_⟩
  · rw [← hlen]
    exact habs.acc_of_whole hwhole (by rw [List.length_append, length_pad16]; omega)
  · rw [← hlen]; rfl

/-! ## Key derivation (spec/45_kdf.md R241) -/

theorem variantOf_code {imm8 : BitVec 8} (h : imm8.toNat ≤ 1) : (variantOf imm8).code = imm8.toNat := by
  rw [variantOf]
  split
  · next h0 => exact h0.symm
  · next h0 => show 1 = _; omega

theorem variantOf_maxLen (imm8 : BitVec 8) : (variantOf imm8).maxLen = if imm8.toNat = 0 then 64 else 32 := by
  rw [variantOf]; split <;> rfl

/-- Byte `k` of a span. -/
theorem getD_memRead (s : State) (a n k : Nat) (d : Byte) :
    (s.memRead a n).getD k d = if k < n then s.readByte (a + k) else d := by
  split
  · next h =>
    rw [List.getD_eq_getElem _ _ (by rw [length_memRead]; exact h)]
    simp [State.memRead]
  · next h => exact List.getD_eq_default _ _ (by rw [length_memRead]; omega)

/-- Settles O46: byte `i` of the held key is byte `i` of the span, or the zero it is written over. -/
theorem kdfCfgHoldsTheConfiguration : Obligations.KdfCfgHoldsTheConfiguration := by
  intro s sa xb imm8 himm hkey hout1 hout hspan
  rw [← variantOf_maxLen] at hkey hout
  have hlengths := (hashLengthsOk_iff _ _ _).mpr ⟨hkey, hout1, hout⟩
  have ha : Accepts s (.kdfCfg sa xb imm8) := by
    simp [Accepts, checksOf, kdfCfgChecks, variantNumberOk, needLength, needSpan, himm, hlengths, hspan]
  obtain ⟨he, hw⟩ := exec_session ha (by simp) rfl rfl
  refine ⟨_, he, hw, rfl, rfl, rfl, rfl, rfl, rfl, variantOf_code himm, rfl, rfl, fun i => ?_⟩
  exact (get_overwrite ..).trans ((getD_memRead ..).trans (by rw [get_replicate]))

end Sys2Proof.Machine
end

section
/-! What every command leaves of BUF (spec/20_memory.md R61, R69). -/

namespace Sys2Proof.Machine

/-- Writes leave every byte outside their regions alone. -/
theorem putRegions_lookup_outside {m : Memory} {writes : List (Nat × Bytes)} {regions : List (Nat × Nat)} {a : Nat}
    (hw : List.Forall₂ WrittenTo writes regions) (ha : ∀ r ∈ regions, a < r.1 ∨ r.1 + r.2 ≤ a) :
    (m.putRegions writes).lookup a = m.lookup a := by
  induction hw generalizing m with
  | nil => rfl
  | @cons w r ws rs hwr _ ih =>
    obtain ⟨hr, hrs⟩ := List.forall_mem_cons.mp ha
    obtain ⟨haddr, hlen⟩ := hwr
    calc (m.putRegions (w :: ws)).lookup a
      _ = (m.putAll w.1 w.2).lookup a := ih hrs
      _ = m.lookup a := by rw [Memory.lookup_putAll, if_neg (by omega)]

/-- The effect of a command changes no byte outside the regions it writes. -/
theorem effectOf_readByte_outside {i : Instr} {s : State} {a : Nat}
    (ha : ∀ r ∈ writeRegions s i, a < r.1 ∨ r.1 + r.2 ≤ a) : (effectOf i s).readByte a = s.readByte a := by
  obtain ⟨writes, hbuf, hw⟩ := effectOf_buf_writes i s
  rw [State.readByte, hbuf, putRegions_lookup_outside hw ha, effectOf_resets, State.readByte]

/-- Settles O20: an error writes no byte of BUF, an effect only its own regions. -/
theorem bufChangesOnlyInWrittenRegions : Obligations.BufChangesOnlyInWrittenRegions := by
  intro i s t h a ha
  obtain ⟨e, -, rfl⟩ | ⟨-, rfl, -, -⟩ | ⟨xa, sb, sc, -, -, -, rfl⟩ := exec_cases h
  · exact readByte_raise ..
  · rw [readByte_retire]; exact effectOf_readByte_outside ha
  · rfl

end Sys2Proof.Machine
end

section
/-! The decoder and the encoder against the opcode table (spec/30_encoding.md R90 to R98). -/

namespace Sys2Proof

/-! ## The opcodes of the table -/

/-- The opcode that a row of the table assigns, `match[31:24]` (R96). -/
def OpcodeRow.opcode (row : OpcodeRow) : Nat := row.opmatch.toNat / 2 ^ 24

theorem opcodes_nodup : (opcodeTable.map OpcodeRow.opcode).Nodup := by decide

/-- The opcodes that R97 lists as unassigned. -/
def UnassignedOpcode (opc : Nat) : Prop :=
  (0x06 ≤ opc ∧ opc ≤ 0x0F) ∨ (0x14 ≤ opc ∧ opc ≤ 0x1F) ∨ (0x23 ≤ opc ∧ opc ≤ 0x2F) ∨ (0x33 ≤ opc ∧ opc ≤ 0x3F)
    ∨ (0x43 ≤ opc ∧ opc ≤ 0x4F) ∨ (0x53 ≤ opc ∧ opc ≤ 0x5F) ∨ (0x65 ≤ opc ∧ opc ≤ 0x6F) ∨ opc = 0x7F ∨ 0x82 ≤ opc

/-- The table and the list of R97 share no opcode. -/
theorem opcode_not_unassigned : ∀ row ∈ opcodeTable, ¬UnassignedOpcode row.opcode := by
  unfold UnassignedOpcode; decide

/-- An opcode is in the table, or it is one of those that R97 lists and decodes to nothing. -/
theorem opcode_cases (opc : Nat) :
    (∃ row ∈ opcodeTable, row.opcode = opc)
      ∨ UnassignedOpcode opc ∧ ∀ w, decodeRow opc w = .error .unassignedOpcode := by
  rw [← List.mem_map]
  unfold decodeRow
  split
  case h_45 =>
    refine .inr ⟨?_, fun _ => rfl⟩
    simp only [imp_false, UnassignedOpcode] at *
    omega
  all_goals exact .inl (by decide)

/-! ## The forms of a row -/

/-- The form of a row of the table: which fields its command takes, and the command they make (R91, R92, R96). -/
inductive RowForm where
  | bare (c : Instr)
  | a (c : Reg → Instr)
  | ab (c : Reg → Reg → Instr)
  | abc (c : Reg → Reg → Reg → Instr)
  | aImm20 (c : Reg → BitVec 20 → Instr)
  | rdsr
  | kdfCfg

namespace RowForm

/-- The decoder's reading of a word whose opcode has this form. -/
def decode (w : Word32) : RowForm → Except DecodeError Instr
  | bare c => rowNone w c
  | a c => rowA w c
  | ab c => rowAB w c
  | abc c => rowABC w c
  | aImm20 c => .ok (c (fieldA w) (fieldImm20 w))
  | rdsr => rowRdsr w
  | kdfCfg => rowKdfCfg w

/-- The command made of the word's fields. -/
def instr (w : Word32) : RowForm → Instr
  | bare c => c
  | a c => c (fieldA w)
  | ab c => c (fieldA w) (fieldB w)
  | abc c => c (fieldA w) (fieldB w) (fieldC w)
  | aImm20 c => c (fieldA w) (fieldImm20 w)
  | rdsr => .rdsr (fieldA w) (fieldImm8 w)
  | kdfCfg => .kdfCfg (fieldA w) (fieldB w) (fieldImm8 w)

/-- The word put together from the fields that the form takes. -/
def word (opc : Nat) (w : Word32) : RowForm → Word32
  | bare _ => formatR opc 0 0 0 0
  | a _ => formatR opc (fieldA w) 0 0 0
  | ab _ => formatR opc (fieldA w) (fieldB w) 0 0
  | abc _ => formatR opc (fieldA w) (fieldB w) (fieldC w) 0
  | aImm20 _ => formatI opc (fieldA w) (fieldImm20 w)
  | rdsr => formatR opc (fieldA w) 0 0 (fieldImm8 w)
  | kdfCfg => formatR opc (fieldA w) (fieldB w) 0 (fieldImm8 w)

/-- The command's immediate is in range (R97). -/
def immOk (w : Word32) : RowForm → Bool
  | rdsr => statusNumberOk (fieldImm8 w)
  | kdfCfg => variantNumberOk (fieldImm8 w)
  | _ => true

/-- The register operands, in the order of their fields (R98). -/
def regs (w : Word32) : RowForm → List Reg
  | bare _ => []
  | a _ | aImm20 _ | rdsr => [fieldA w]
  | ab _ | kdfCfg => [fieldA w, fieldB w]
  | abc _ => [fieldA w, fieldB w, fieldC w]

/-- The immediate with its width. -/
def imm (w : Word32) : RowForm → Option (Nat × Nat)
  | aImm20 _ => some (20, (fieldImm20 w).toNat)
  | rdsr | kdfCfg => some (8, (fieldImm8 w).toNat)
  | _ => none

/-- The width of the field that the mask holds at zero, below the opcode (R94). -/
def zeroWidth : RowForm → Nat
  | bare _ => 24
  | a _ => 20
  | ab _ => 16
  | abc _ => 12
  | aImm20 _ => 0
  | rdsr => 12
  | kdfCfg => 15

/-- The lowest bit of the field that the mask holds at zero; KDF.CFG's leaves one bit for the variant. -/
def zeroLow : RowForm → Nat
  | rdsr => 8
  | kdfCfg => 1
  | _ => 0

/-- The greatest low byte that a row of this form admits. -/
def maxImm8 : RowForm → Nat
  | rdsr => 4
  | _ => 255

/-- The fields that the command does not take are zero, and its immediate is in range. -/
def Fits (f : RowForm) (w : Word32) : Prop :=
  w.toNat / 2 ^ f.zeroLow % 2 ^ f.zeroWidth = 0 ∧ w.toNat % 256 ≤ f.maxImm8

end RowForm

theorem mustBeZero_ok_iff {w : Word32} {hi lo : Nat} {c i : Instr} :
    mustBeZero w hi lo c = .ok i ↔ bits w hi lo = 0 ∧ i = c := by
  rw [mustBeZero]
  split
  · next h => simp [h, eq_comm]
  · next h => simp [h]

/-- A row whose immediate is checked too. -/
theorem immediateInRange_mustBeZero_ok_iff {w : Word32} {hi lo : Nat} {c i : Instr} :
    immediateInRange (mustBeZero w hi lo c) = .ok i ↔ (bits w hi lo = 0 ∧ c.wellFormed = true) ∧ i = c := by
  rw [mustBeZero]
  split
  · next hz =>
    rw [immediateInRange]
    split
    · next hc => simp [hz, hc, eq_comm]
    · next hc => simp [hc]
  · next hz => simp [immediateInRange, hz]

theorem bits_opcode (w : Word32) : bits w 31 24 = w.toNat / 2 ^ 24 := by
  have := w.isLt
  rw [bits]; omega

theorem bits_low_byte (w : Word32) : bits w 7 0 = w.toNat % 256 := by simp [bits]

theorem fieldImm8_toNat (w : Word32) : (fieldImm8 w).toNat = w.toNat % 2 ^ 8 := by simp [fieldImm8, bits]

theorem fieldImm20_toNat (w : Word32) : (fieldImm20 w).toNat = w.toNat % 2 ^ 20 := by simp [fieldImm20, bits]

namespace RowForm

/-- A word of a form's opcode decodes to a command exactly when it fits the form, and the command is made of its fields. -/
theorem decode_ok_iff (f : RowForm) (w : Word32) (i : Instr) : f.decode w = .ok i ↔ f.Fits w ∧ i = f.instr w := by
  have hbyte : w.toNat % 256 ≤ 255 := by omega
  cases f with
  | bare c | a c | ab c | abc c =>
    simp [decode, rowNone, rowA, rowAB, rowABC, mustBeZero_ok_iff, bits, instr, Fits, zeroLow, zeroWidth, maxImm8, hbyte]
  | aImm20 c => simp [decode, instr, Fits, zeroLow, zeroWidth, maxImm8, hbyte, eq_comm, Nat.mod_one]
  | rdsr =>
    refine immediateInRange_mustBeZero_ok_iff.trans (and_congr_left' ?_)
    simp [Instr.wellFormed, statusNumberOk, fieldImm8_toNat, Fits, zeroLow, zeroWidth, maxImm8, bits]
  | kdfCfg =>
    refine immediateInRange_mustBeZero_ok_iff.trans (and_congr_left' ?_)
    simp only [Instr.wellFormed, variantNumberOk, fieldImm8_toNat, Fits, zeroLow, zeroWidth, maxImm8, bits,
      decide_eq_true_eq]
    omega

/-- A word that decodes is put together from the fields that its form takes, and its immediate is in range. -/
theorem word_eq_of_decode {f : RowForm} {w : Word32} {i : Instr} {opc : Nat} (ho : bits w 31 24 = opc)
    (h : f.decode w = .ok i) : f.word opc w = w ∧ f.immOk w = true := by
  cases f with
  | bare c => exact ⟨(rowNone_ok ho h).2, rfl⟩
  | a c => exact ⟨(rowA_ok ho h).2, rfl⟩
  | ab c => exact ⟨(rowAB_ok ho h).2, rfl⟩
  | abc c => exact ⟨(rowABC_ok ho h).2, rfl⟩
  | aImm20 c => exact ⟨formatI_fields ho, rfl⟩
  | rdsr => obtain ⟨-, himm, hw⟩ := rowRdsr_ok ho h; exact ⟨hw, himm⟩
  | kdfCfg => obtain ⟨-, himm, hw⟩ := rowKdfCfg_ok ho h; exact ⟨hw, himm⟩

/-- Operand `k` of a form is field `k` of the word. -/
theorem regs_getElem? {f : RowForm} {w : Word32} {r : Reg} {k : Nat} (h : (f.regs w)[k]? = some r) :
    k ≤ 2 ∧ r.val = w.toNat / 2 ^ (20 - 4 * k) % 16 := by
  obtain ⟨rest, hrest⟩ : ∃ rest, f.regs w ++ rest = [fieldA w, fieldB w, fieldC w] := by
    cases f <;> exact ⟨_, rfl⟩
  have hk : [fieldA w, fieldB w, fieldC w][k]? = some r := by
    obtain ⟨hlt, -⟩ := List.getElem?_eq_some_iff.mp h
    rw [← hrest, List.getElem?_append_left hlt, h]
  match k, hk with
  | 0, hk => cases hk; exact ⟨by decide, rfl⟩
  | 1, hk => cases hk; exact ⟨by decide, rfl⟩
  | 2, hk => cases hk; exact ⟨by decide, rfl⟩

theorem imm_eq {f : RowForm} {w : Word32} {width v : Nat} (h : f.imm w = some (width, v)) :
    v = w.toNat % 2 ^ width := by
  cases f with
  | bare c | a c | ab c | abc c => nomatch h
  | aImm20 c => cases h; exact fieldImm20_toNat w
  | rdsr | kdfCfg => cases h; exact fieldImm8_toNat w

theorem zeroField_lt (f : RowForm) : (2 ^ f.zeroWidth - 1) * 2 ^ f.zeroLow < 2 ^ 24 := by
  cases f <;> simp [zeroWidth, zeroLow]

end RowForm

/-! ## The table's masks -/

/-- A mask of one field takes the field out in place. -/
theorem and_fieldMask (x n lo : Nat) : x &&& (2 ^ n - 1) * 2 ^ lo = 2 ^ lo * (x / 2 ^ lo % 2 ^ n) := by
  rw [Machine.and_eq_low_add_high x _ lo, Nat.mul_mod_left, Nat.mul_div_cancel _ (Nat.two_pow_pos lo), Nat.and_zero,
    Nat.and_two_pow_sub_one_eq_mod, Nat.zero_add]

/-- A mask of the opcode and of one field below it matches an opcode when the opcode is the word's and the field is zero. -/
theorem and_rowMask_eq_iff {x n lo opc : Nat} (hx : x < 2 ^ 32) (hlow : (2 ^ n - 1) * 2 ^ lo < 2 ^ 24) :
    x &&& (0xFF * 2 ^ 24 + (2 ^ n - 1) * 2 ^ lo) = opc * 2 ^ 24 ↔ x / 2 ^ 24 = opc ∧ x / 2 ^ lo % 2 ^ n = 0 := by
  rw [Machine.and_eq_low_add_high x _ 24, Nat.mul_add_mod', Nat.mod_eq_of_lt hlow, ← Machine.and_eq_mod_and x hlow,
    and_fieldMask, Nat.add_comm (0xFF * 2 ^ 24), Nat.add_mul_div_right _ _ (by decide), Nat.div_eq_of_lt hlow, Nat.zero_add,
    Nat.and_two_pow_sub_one_eq_mod _ 8]
  have hpos := Nat.two_pow_pos lo
  have hle : 2 ^ lo * (x / 2 ^ lo % 2 ^ n) < 2 ^ 24 := by
    rw [← and_fieldMask]; exact Nat.lt_of_le_of_lt Nat.and_le_right hlow
  have hzero : 2 ^ lo * (x / 2 ^ lo % 2 ^ n) = 0 ↔ x / 2 ^ lo % 2 ^ n = 0 := by simp
  rw [← hzero]
  omega

/-! ## Every row of the table -/

/-- What a form says of the commands of a row: how the row's words are read, and every table of the model that lists them. -/
structure RowForm.Describes (f : RowForm) (row : OpcodeRow) : Prop where
  decode : ∀ w, decodeRow row.opcode w = f.decode w
  encode : ∀ w, encode (f.instr w) = f.word row.opcode w
  wellFormed : ∀ w, (f.instr w).wellFormed = f.immOk w
  mnemonic : ∀ w, Machine.mnemonic (f.instr w) = row.mnemonic
  operands : ∀ w, Machine.operands (f.instr w) = f.regs w
  immediate : ∀ w, Machine.immediate (f.instr w) = f.imm w
  opmatch : row.opmatch.toNat = row.opcode * 2 ^ 24
  mask : row.mask.toNat = 0xFF * 2 ^ 24 + (2 ^ f.zeroWidth - 1) * 2 ^ f.zeroLow
  maxImm8 : row.maxImm8 = f.maxImm8

/-- Every row of the table has a form, and decoder, encoder, mnemonics, operands and immediates agree on it. -/
theorem opcodeTable_described : ∀ row ∈ opcodeTable, ∃ f : RowForm, f.Describes row := by
  simp only [opcodeTable, List.cons_append, List.nil_append, List.forall_mem_cons]
  refine ⟨⟨.bare .nop, ?_⟩, ⟨.aImm20 .ldi, ?_⟩, ⟨.aImm20 .lds, ?_⟩, ⟨.ab .mov, ?_⟩, ⟨.rdsr, ?_⟩, ⟨.bare .clrerr, ?_⟩,
    ⟨.ab .b2bInit, ?_⟩, ⟨.ab .b2sInit, ?_⟩, ⟨.a .b2Update, ?_⟩, ⟨.a .b2Final, ?_⟩,
    ⟨.ab .cc20Init, ?_⟩, ⟨.ab .xcc20Init, ?_⟩, ⟨.abc .ccXform, ?_⟩,
    ⟨.a .p13Init, ?_⟩, ⟨.a .p13Update, ?_⟩, ⟨.a .p13Final, ?_⟩,
    ⟨.abc .aeadInit, ?_⟩, ⟨.abc .aeadEnc, ?_⟩, ⟨.abc .aeadDec, ?_⟩,
    ⟨.kdfCfg, ?_⟩, ⟨.abc .pbkdf2, ?_⟩, ⟨.ab .hkdf, ?_⟩,
    ⟨.ab .pcgSeed, ?_⟩, ⟨.a .pcgNext, ?_⟩, ⟨.abc .pcgRange, ?_⟩, ⟨.a .pcgJump, ?_⟩, ⟨.a .pcgGets, ?_⟩,
    ⟨.abc .rotl32, ?_⟩, ⟨.abc .rotr32, ?_⟩, ⟨.abc .rotl64, ?_⟩, ⟨.abc .rotr64, ?_⟩,
    ⟨.ab .lzcnt32, ?_⟩, ⟨.ab .lzcnt64, ?_⟩, ⟨.ab .tzcnt32, ?_⟩, ⟨.ab .tzcnt64, ?_⟩, ⟨.ab .popcnt32, ?_⟩,
    ⟨.ab .popcnt64, ?_⟩, ⟨.ab .log2f, ?_⟩, ⟨.ab .log2c, ?_⟩, ⟨.ab .ispow2, ?_⟩, ⟨.abc .gcd, ?_⟩, ⟨.ab .modinv, ?_⟩,
    ⟨.abc .cteq, ?_⟩, ⟨.abc .xorb, ?_⟩, nofun⟩
  all_goals exact ⟨fun _ => rfl, fun _ => rfl, fun _ => rfl, fun _ => rfl, fun _ => rfl, fun _ => rfl, rfl, rfl, rfl⟩

namespace RowForm.Describes

variable {f : RowForm} {row : OpcodeRow} (h : f.Describes row) (w : Word32)
include h

/-- A word has the match under the mask of a row when it has the row's opcode and the masked field is zero. -/
theorem and_mask_eq_iff :
    w &&& row.mask = row.opmatch ↔ bits w 31 24 = row.opcode ∧ w.toNat / 2 ^ f.zeroLow % 2 ^ f.zeroWidth = 0 := by
  rw [← BitVec.toNat_inj, BitVec.toNat_and, h.mask, h.opmatch, and_rowMask_eq_iff w.isLt f.zeroField_lt, bits_opcode]

/-- A word matches a row when it has the row's opcode and fits the row's form. -/
theorem matches_iff : row.matches w ↔ bits w 31 24 = row.opcode ∧ f.Fits w := by
  rw [OpcodeRow.matches, h.and_mask_eq_iff, h.maxImm8, and_assoc, RowForm.Fits]

end RowForm.Describes

/-! ## Decoding any word -/

/-- A word decodes to a command exactly when it matches a row, and the command is made of the fields of the row's form. -/
theorem decode_ok_iff (w : Word32) (i : Instr) :
    decode w = .ok i ↔ ∃ row ∈ opcodeTable, ∃ f : RowForm, f.Describes row ∧ row.matches w ∧ i = f.instr w := by
  rw [decode]
  constructor
  · intro hd
    obtain ⟨row, hrow, hopc⟩ | ⟨-, he⟩ := opcode_cases (bits w 31 24)
    · obtain ⟨f, hf⟩ := opcodeTable_described row hrow
      rw [← hopc, hf.decode, f.decode_ok_iff] at hd
      exact ⟨row, hrow, f, hf, (hf.matches_iff w).mpr ⟨hopc.symm, hd.1⟩, hd.2⟩
    · rw [he] at hd
      nomatch hd
  · rintro ⟨row, -, f, hf, hmatch, rfl⟩
    obtain ⟨hopc, hfits⟩ := (hf.matches_iff w).mp hmatch
    rw [hopc, hf.decode]
    exact (f.decode_ok_iff w _).mpr ⟨hfits, rfl⟩

end Sys2Proof

namespace Sys2Proof.Machine

/-- Settles O1: each command by its own row of the table. -/
theorem decodeOfEncode : Obligations.DecodeOfEncode
  | .nop => Laws.RoundTrip.nop
  | .ldi xa imm20 => Laws.RoundTrip.ldi xa imm20
  | .lds xa imm20 => Laws.RoundTrip.lds xa imm20
  | .mov xa xb => Laws.RoundTrip.mov xa xb
  | .rdsr xa imm8 => Laws.RoundTrip.rdsr xa imm8
  | .clrerr => Laws.RoundTrip.clrerr
  | .b2bInit sa xb => Laws.RoundTrip.b2bInit sa xb
  | .b2sInit sa xb => Laws.RoundTrip.b2sInit sa xb
  | .b2Update sa => Laws.RoundTrip.b2Update sa
  | .b2Final xa => Laws.RoundTrip.b2Final xa
  | .cc20Init sa sb => Laws.RoundTrip.cc20Init sa sb
  | .xcc20Init sa sb => Laws.RoundTrip.xcc20Init sa sb
  | .ccXform xa sb xc => Laws.RoundTrip.ccXform xa sb xc
  | .p13Init sa => Laws.RoundTrip.p13Init sa
  | .p13Update sa => Laws.RoundTrip.p13Update sa
  | .p13Final xa => Laws.RoundTrip.p13Final xa
  | .aeadInit sa sb sc => Laws.RoundTrip.aeadInit sa sb sc
  | .aeadEnc xa sb sc => Laws.RoundTrip.aeadEnc xa sb sc
  | .aeadDec xa sb sc => Laws.RoundTrip.aeadDec xa sb sc
  | .kdfCfg sa xb imm8 => Laws.RoundTrip.kdfCfg sa xb imm8
  | .pbkdf2 sa sb xc => Laws.RoundTrip.pbkdf2 sa sb xc
  | .hkdf sa sb => Laws.RoundTrip.hkdf sa sb
  | .pcgSeed xa xb => Laws.RoundTrip.pcgSeed xa xb
  | .pcgNext xa => Laws.RoundTrip.pcgNext xa
  | .pcgRange xa xb xc => Laws.RoundTrip.pcgRange xa xb xc
  | .pcgJump xa => Laws.RoundTrip.pcgJump xa
  | .pcgGets xa => Laws.RoundTrip.pcgGets xa
  | .rotl32 xa xb xc => Laws.RoundTrip.rotl32 xa xb xc
  | .rotr32 xa xb xc => Laws.RoundTrip.rotr32 xa xb xc
  | .rotl64 xa xb xc => Laws.RoundTrip.rotl64 xa xb xc
  | .rotr64 xa xb xc => Laws.RoundTrip.rotr64 xa xb xc
  | .lzcnt32 xa xb => Laws.RoundTrip.lzcnt32 xa xb
  | .lzcnt64 xa xb => Laws.RoundTrip.lzcnt64 xa xb
  | .tzcnt32 xa xb => Laws.RoundTrip.tzcnt32 xa xb
  | .tzcnt64 xa xb => Laws.RoundTrip.tzcnt64 xa xb
  | .popcnt32 xa xb => Laws.RoundTrip.popcnt32 xa xb
  | .popcnt64 xa xb => Laws.RoundTrip.popcnt64 xa xb
  | .log2f xa xb => Laws.RoundTrip.log2f xa xb
  | .log2c xa xb => Laws.RoundTrip.log2c xa xb
  | .ispow2 xa xb => Laws.RoundTrip.ispow2 xa xb
  | .gcd xa xb xc => Laws.RoundTrip.gcd xa xb xc
  | .modinv xa xb => Laws.RoundTrip.modinv xa xb
  | .cteq xa sb sc => Laws.RoundTrip.cteq xa sb sc
  | .xorb xa sb sc => Laws.RoundTrip.xorb xa sb sc

/-- Settles O2: the word is put together from the fields that its row's form takes. -/
theorem encodeOfDecode : Obligations.EncodeOfDecode := by
  intro w i hd
  obtain ⟨row, -, f, hf, hmatch, rfl⟩ := (decode_ok_iff w i).mp hd
  obtain ⟨hopc, hfits⟩ := (hf.matches_iff w).mp hmatch
  obtain ⟨hword, himm⟩ := RowForm.word_eq_of_decode hopc ((f.decode_ok_iff w _).mpr ⟨hfits, rfl⟩)
  exact ⟨(hf.encode w).trans hword, (hf.wellFormed w).trans himm⟩

/-- No word has the match of two rows: each row's mask holds the opcode, and the opcodes are distinct (R96). -/
theorem opcodeTable_disjoint :
    opcodeTable.Pairwise fun r q => ∀ w : Word32, ¬(w &&& r.mask = r.opmatch ∧ w &&& q.mask = q.opmatch) := by
  have hdistinct : opcodeTable.Pairwise fun r q => r.opcode ≠ q.opcode := List.pairwise_map.mp opcodes_nodup
  refine hdistinct.imp_of_mem fun {r q} hr hq hne w ⟨hwr, hwq⟩ => ?_
  obtain ⟨f, hf⟩ := opcodeTable_described r hr
  obtain ⟨g, hg⟩ := opcodeTable_described q hq
  obtain ⟨hopcr, -⟩ := (hf.and_mask_eq_iff w).mp hwr
  obtain ⟨hopcq, -⟩ := (hg.and_mask_eq_iff w).mp hwq
  exact hne (hopcr.symm.trans hopcq)

/-- Settles O3: the rows have distinct opcodes, and `decode_ok_iff` reads each command off its row. -/
theorem decodingFollowsOpcodeTable : Obligations.DecodingFollowsOpcodeTable := by
  refine ⟨rfl, opcodeTable_disjoint, fun w => ⟨fun i hd => ?_, fun row hrow hmatch => ?_⟩⟩
  · obtain ⟨row, hrow, f, hf, hmatch, rfl⟩ := (decode_ok_iff w i).mp hd
    refine ⟨⟨row, hrow, (hf.mnemonic w).symm, hmatch⟩, fun r k hk => ?_, fun width v hv => ?_⟩
    · exact RowForm.regs_getElem? (hf.operands w ▸ hk)
    · exact RowForm.imm_eq ((hf.immediate w).symm.trans hv)
  · obtain ⟨f, hf⟩ := opcodeTable_described row hrow
    exact ⟨f.instr w, (decode_ok_iff w _).mpr ⟨row, hrow, f, hf, hmatch, rfl⟩, hf.mnemonic w⟩

/-- Settles O4, by running the decoder on the twelve words. -/
theorem specExampleWordsDecode : Obligations.SpecExampleWordsDecode := by
  unfold Obligations.SpecExampleWordsDecode
  decide

/-! ## Illegal words (spec/30_encoding.md R97) -/

theorem illegalWord_iff (w : Word32) :
    IllegalWord w ↔ UnassignedOpcode (bits w 31 24)
      ∨ (∃ row ∈ opcodeTable, row.opcode = bits w 31 24 ∧ w &&& row.mask ≠ row.opmatch)
      ∨ (bits w 31 24 = 0x04 ∧ 4 < bits w 7 0) ∨ (bits w 31 24 = 0x50 ∧ 1 < bits w 7 0) := by
  simp only [IllegalWord, UnassignedOpcode, OpcodeRow.opcode, or_assoc]

/-- A word that decodes is none of those that R97 lists. -/
theorem not_illegalWord_of_decode {w : Word32} {i : Instr} (hd : decode w = .ok i) : ¬IllegalWord w := by
  obtain ⟨row, hrow, f, hf, hmatch, -⟩ := (decode_ok_iff w i).mp hd
  obtain ⟨hopc, -⟩ := (hf.matches_iff w).mp hmatch
  rw [illegalWord_iff]
  rintro (hun | ⟨q, hq, hqopc, hne⟩ | ⟨h04, hlt⟩ | ⟨h50, hlt⟩)
  · exact opcode_not_unassigned row hrow (hopc ▸ hun)
  · obtain rfl := List.inj_on_of_nodup_map opcodes_nodup hq hrow (hqopc.trans hopc)
    exact hne hmatch.1
  · have hrdsr : rowRdsr w = .ok i := by rw [decode, h04] at hd; exact hd
    obtain ⟨-, himm, -⟩ := rowRdsr_ok h04 hrdsr
    rw [statusNumberOk, decide_eq_true_eq, fieldImm8_toNat] at himm
    rw [bits_low_byte] at hlt
    omega
  · have hkdf : rowKdfCfg w = .ok i := by rw [decode, h50] at hd; exact hd
    obtain ⟨-, himm, -⟩ := rowKdfCfg_ok h50 hkdf
    rw [variantNumberOk, decide_eq_true_eq, fieldImm8_toNat] at himm
    rw [bits_low_byte] at hlt
    omega

/-- Only RDSR's row bounds the low byte. -/
theorem maxImm8_cases : ∀ row ∈ opcodeTable, row.maxImm8 = 255 ∨ row.opcode = 0x04 ∧ row.maxImm8 = 4 := by decide

/-- A word that decodes to nothing is one of those that R97 lists. -/
theorem illegalWord_of_not_decode {w : Word32} (hd : ∀ i, decode w ≠ .ok i) : IllegalWord w := by
  rw [illegalWord_iff]
  obtain ⟨row, hrow, hopc⟩ | ⟨hun, -⟩ := opcode_cases (bits w 31 24)
  · obtain ⟨f, hf⟩ := opcodeTable_described row hrow
    by_cases hmask : w &&& row.mask = row.opmatch
    · have hmax : ¬w.toNat % 256 ≤ row.maxImm8 := fun hle =>
        hd _ ((decode_ok_iff w _).mpr ⟨row, hrow, f, hf, ⟨hmask, hle⟩, rfl⟩)
      have hbyte := bits_low_byte w
      obtain h255 | ⟨h04, h4⟩ := maxImm8_cases row hrow
      · omega
      · exact .inr (.inr (.inl ⟨hopc.symm.trans h04, by omega⟩))
    · exact .inr (.inl ⟨row, hrow, hopc, hmask⟩)
  · exact .inl hun

theorem raise_raisedOnly (s : State) (w : Word32) (e : Error) : RaisedOnly w e s (s.raise w e) :=
  ⟨rfl, record_toNat e, setWidth_word_toNat w, rfl, rfl, fun _ => rfl, fun _ => rfl, ⟨rfl, rfl, rfl, rfl, rfl, rfl⟩,
    rfl, rfl, rfl⟩

/-- Settles O6: the words that decode to nothing are R97's list, and such a word only raises. -/
theorem illegalWordsOnlyRaise : Obligations.IllegalWordsOnlyRaise := by
  refine fun w s => ⟨⟨fun h i hd => not_illegalWord_of_decode hd h, illegalWord_of_not_decode⟩, fun h => ?_⟩
  obtain ⟨i, hd, -⟩ | ⟨e, -, he⟩ := acceptCommand_cases w s
  · exact absurd h (not_illegalWord_of_decode hd)
  · exact ⟨_, he, raise_raisedOnly s w _⟩

end Sys2Proof.Machine
end

section
/-! No command stops the machine (spec/60_exceptions.md R344; spec/47_pcg32.md R284). -/

namespace Sys2Proof.Machine

/-- A command stops only where PCG.RANGE's loop does not end, and an odd increment makes it end. -/
theorem exec_answers {s : State} (hodd : s.pcg.inc.toNat % 2 = 1) (i : Instr) : ∃ t, exec i s = .next t := by
  cases hf : firstFailing (checksOf s i) with
  | some e => exact ⟨_, exec_raise hf⟩
  | none =>
    have ha := (accepts_iff s i).mpr hf
    by_cases htag : ∀ xa sb sc, i = .aeadDec xa sb sc → aeadVerified sb sc s = true
    · refine ⟨_, exec_ok ha htag fun xa xb xc _ => ?_⟩
      obtain ⟨hle, hlt⟩ := pcgBounds_le xb xc s
      exact bounded_isSome s.pcg _ _ hodd hlt hle
    · push Not at htag
      obtain ⟨xa, sb, sc, rfl, hv⟩ := htag
      exact ⟨_, exec_aeadDec_mismatch ha (Bool.eq_false_iff.mpr hv)⟩

theorem acceptCommand_answers {s : State} (hodd : s.pcg.inc.toNat % 2 = 1) (w : Word32) :
    ∃ t, acceptCommand w s = .next t := by
  obtain ⟨i, -, he⟩ | ⟨e, -, he⟩ := acceptCommand_cases w s
  · rw [he]; exact exec_answers hodd i
  · exact ⟨_, he⟩

/-- Settles O18: by the event that the step takes; `pcg.inc` is odd by the invariant. -/
theorem machineNeverStops : Obligations.MachineNeverStops := by
  refine fun s hinv => ⟨acceptCommand_answers hinv.pcg, fun hwrite => ?_⟩
  cases hp : s.port with
  | nil => exact ⟨s, step_idle hp⟩
  | cons event rest =>
    cases event with
    | command w => rw [step_command hp]; exact acceptCommand_answers (withPort_inv hinv rest).pcg w
    | writeBuf a bs =>
      rw [step_writeBuf hp, hostWrite]
      exact ⟨_, if_pos (hwrite a bs rest hp)⟩
    | reset => exact ⟨_, step_reset hp⟩

end Sys2Proof.Machine
end

section
/-! The pseudo-instructions LI and LSPAN (spec/30_encoding.md R101). -/

namespace Sys2Proof.Machine

theorem runCommands_cons {i : Instr} {is : List Instr} {s t : State} (h : exec i s = .next t) :
    runCommands (i :: is) s = runCommands is t := by rw [runCommands, h]

theorem runCommands_append {is js : List Instr} {s t : State} (h : runCommands is s = .next t) :
    runCommands (is ++ js) s = runCommands js t := by
  induction is generalizing s with
  | nil => cases h; rfl
  | cons i is ih =>
    rw [runCommands] at h
    split at h
    · next u hu => rw [List.cons_append, runCommands_cons hu, ih h]
    all_goals nomatch h

theorem KeepsErrors.trans {s t r : State} : KeepsErrors s t → KeepsErrors t r → KeepsErrors s r
  | ⟨a, b, c⟩, ⟨a', b', c'⟩ => ⟨a'.trans a, b'.trans b, c'.trans c⟩

theorem KeepsBuf.trans {s t r : State} (h : KeepsBuf s t) (h' : KeepsBuf t r) : KeepsBuf s r :=
  fun a => (h' a).trans (h a)

theorem KeepsSessions.trans {s t r : State} : KeepsSessions s t → KeepsSessions t r → KeepsSessions s r
  | ⟨a, b, c, d, e, f⟩, ⟨a', b', c', d', e', f'⟩ =>
    ⟨a'.trans a, b'.trans b, c'.trans c, d'.trans d, e'.trans e, f'.trans f⟩

/-- The state `t` has `v` in `xa` and the status OK; the other registers, the error record, BUF and the sessions are as in
`s`. -/
structure Loaded (xa : Reg) (v : Nat) (s t : State) : Prop where
  value : (t.getX xa).toNat = v
  regs : KeepsRegsBut xa s t
  errors : KeepsErrors s t
  buf : KeepsBuf s t
  sessions : KeepsSessions s t
  status : t.status = some .ok

/-- A load of the same register after a load: the later value stands. -/
theorem Loaded.trans {xa : Reg} {v u : Nat} {s t r : State} (h : Loaded xa v s t) (h' : Loaded xa u t r) :
    Loaded xa u s r where
  value := h'.value
  regs q hq := (h'.regs q hq).trans (h.regs q hq)
  errors := h.errors.trans h'.errors
  buf := h.buf.trans h'.buf
  sessions := h.sessions.trans h'.sessions
  status := h'.status

theorem setX_retire_loaded (s : State) (xa : Reg) (v : Word) : Loaded xa v.toNat s (s.setX xa v).retire where
  value := by rw [getX_retire, getX_setX_self]
  regs q hq := getX_setX_ne s xa q v hq
  errors := ⟨rfl, rfl, rfl⟩
  buf _ := rfl
  sessions := ⟨rfl, rfl, rfl, rfl, rfl, rfl⟩
  status := rfl

/-- LDI loads 20 bits (spec/40_control.md R121). -/
theorem exec_ldi (s : State) (xa : Reg) (imm20 : BitVec 20) :
    ∃ t, exec (.ldi xa imm20) s = .next t ∧ Loaded xa imm20.toNat s t := by
  have hv : (BitVec.ofNat 64 imm20.toNat).toNat = imm20.toNat := by
    rw [BitVec.toNat_ofNat]; omega
  refine ⟨_, exec_ok (i := .ldi xa imm20) nofun nofun nofun, ?_⟩
  have h := setX_retire_loaded s xa (BitVec.ofNat 64 imm20.toNat)
  rwa [hv] at h

/-- LDS puts 20 bits below those that the register holds (spec/40_control.md R122): it completes a value of which the register
holds all but the lowest 20 bits. -/
theorem exec_lds {s : State} {xa : Reg} {v : Nat} (hv : v < 2 ^ 64) (hx : s.xNat xa = v / 2 ^ 20) :
    ∃ t, exec (.lds xa (BitVec.ofNat 20 v)) s = .next t ∧ Loaded xa v s t := by
  have hval : (BitVec.ofNat 64 (s.xNat xa <<< 20 ||| (BitVec.ofNat 20 v).toNat)).toNat = v := by
    rw [← Nat.shiftLeft_add_eq_or_of_lt (BitVec.isLt _), hx, Nat.shiftLeft_eq, BitVec.toNat_ofNat, BitVec.toNat_ofNat]
    omega
  refine ⟨_, exec_ok (i := .lds xa (BitVec.ofNat 20 v)) nofun nofun nofun, ?_⟩
  have h := setX_retire_loaded s xa (BitVec.ofNat 64 (s.xNat xa <<< 20 ||| (BitVec.ofNat 20 v).toNat))
  rwa [hval] at h

/-- LI loads any 64-bit value, its highest bits first (R101). -/
theorem runCommands_li (s : State) (xa : Reg) {v : Nat} (hv : v < 2 ^ 64) :
    ∃ t, runCommands (li xa v) s = .next t ∧ Loaded xa v s t := by
  rw [li]
  split
  · next hsmall =>
    obtain ⟨t, he, hl⟩ := exec_ldi s xa (BitVec.ofNat 20 v)
    rw [BitVec.toNat_ofNat, Nat.mod_eq_of_lt hsmall] at hl
    exact ⟨t, runCommands_cons he, hl⟩
  · obtain ⟨t0, he0, hl0⟩ := exec_ldi s xa (BitVec.ofNat 20 (v / 2 ^ 60 % 2 ^ 4))
    have h0 : t0.xNat xa = v / 2 ^ 40 / 2 ^ 20 := by
      rw [State.xNat, hl0.value, BitVec.toNat_ofNat]; omega
    obtain ⟨t1, he1, hl1⟩ := exec_lds (v := v / 2 ^ 40) (by omega) h0
    have h1 : t1.xNat xa = v / 2 ^ 20 / 2 ^ 20 := by rw [State.xNat, hl1.value]; omega
    obtain ⟨t2, he2, hl2⟩ := exec_lds (v := v / 2 ^ 20) (by omega) h1
    obtain ⟨t3, he3, hl3⟩ := exec_lds hv hl2.value
    refine ⟨t3, ?_, hl0.trans (hl1.trans (hl2.trans hl3))⟩
    rw [runCommands_cons he0, runCommands_cons he1, runCommands_cons he2, runCommands_cons he3, runCommands]

theorem reg_ne_succ : ∀ r : Reg, r ≠ r + 1 := by decide

/-- Settles O60: LSPAN is two LIs to the two registers of the span. -/
theorem loadConstantPseudoInstructions : Obligations.LoadConstantPseudoInstructions := by
  intro s xa v hv
  obtain ⟨t, ht, hl⟩ := runCommands_li s xa hv
  refine ⟨⟨t, ht, hl.value, hl.regs, hl.errors, hl.buf, hl.sessions, hl.status⟩, fun n hn => ?_⟩
  obtain ⟨r, hr, hl'⟩ := runCommands_li t (xa + 1) hn
  refine ⟨r, (runCommands_append ht).trans hr, ?_, hl'.value, fun q hq hq' => ?_, hl.errors.trans hl'.errors,
    hl.buf.trans hl'.buf, hl.sessions.trans hl'.sessions⟩
  · rw [State.spanAddr, State.xNat, hl'.regs xa (reg_ne_succ xa)]; exact hl.value
  · rw [hl'.regs q hq', hl.regs q hq]

end Sys2Proof.Machine
end

section
/-! The control unit: NOP, LDI, LDS, MOV, RDSR, CLRERR (spec/40_control.md). -/

namespace Sys2Proof.Machine

/-! ## Words -/

/-- Decoder and encoder being inverse, a well-formed command has the word of its encoding and no other. -/
theorem encodedAs_of_toNat_encode {i : Instr} {n : Nat} (hwf : i.wellFormed = true) (hn : (encode i).toNat = n) :
    EncodedAs i n := by
  refine fun w => ⟨fun hd => ?_, fun hw => ?_⟩
  · rw [← (encodeOfDecode w i hd).1, hn]
  · rw [BitVec.eq_of_toNat_eq (hw.trans hn.symm)]
    exact decodeOfEncode i hwf

/-- A word of NOP's opcode decodes to nothing but NOP, and only if it is 0 (R120). -/
theorem illegalWord_of_opcode_nop {w : Word32} (hopc : bits w 31 24 = 0) (hw : w ≠ 0) : IllegalWord w := by
  refine illegalWord_of_not_decode fun i hd => ?_
  rw [decode, hopc] at hd
  obtain ⟨-, hword⟩ := rowNone_ok hopc hd
  exact hw hword.symm

theorem illegalWord_of_rdsr_number {w : Word32} (hopc : bits w 31 24 = 0x04) (himm : 4 < bits w 7 0) : IllegalWord w :=
  (illegalWord_iff w).mpr (.inr (.inr (.inl ⟨hopc, himm⟩)))

/-! ## Writing a register -/

theorem wroteOnlyReg_setX_retire (s : State) (xa : Reg) (v : Word) : WroteOnlyReg xa v s (s.setX xa v).retire := by
  have h := setX_retire_loaded s xa v
  exact ⟨BitVec.eq_of_toNat_eq h.value, h.regs, h.errors, h.buf, h.sessions, ⟨rfl, rfl, rfl⟩, rfl, h.status⟩

/-- An accepted command whose effect is one register write completes OK and changes nothing else. -/
theorem exec_wroteOnlyReg {i : Instr} {s : State} {xa : Reg} {v : Word} (ha : Accepts s i)
    (hdec : ∀ xa sb sc, i ≠ .aeadDec xa sb sc) (hrange : ∀ xa xb xc, i ≠ .pcgRange xa xb xc)
    (heff : effectOf i s = s.setX xa v) : ∃ t, exec i s = .next t ∧ WroteOnlyReg xa v s t := by
  refine ⟨(s.setX xa v).retire, ?_, wroteOnlyReg_setX_retire s xa v⟩
  rw [exec_eq_commit i s hdec hrange, commit_ok ((accepts_iff s i).mp ha), heff]

/-- The shift leaves the immediate's 20 bits free, so the `or` of R122 is a sum. -/
theorem effectOf_lds (s : State) (xa : Reg) (imm20 : BitVec 20) :
    effectOf (.lds xa imm20) s = s.setX xa (BitVec.ofNat 64 ((s.getX xa).toNat * 2 ^ 20 + imm20.toNat)) := by
  rw [← Nat.shiftLeft_eq, Nat.shiftLeft_add_eq_or_of_lt imm20.isLt]
  rfl

/-! ## The status registers (spec/10_state.md R26 to R29) -/

theorem exec_rdsr (s : State) (xa : Reg) {imm8 : BitVec 8} (hi : statusNumberOk imm8 = true) :
    ∃ t, exec (.rdsr xa imm8) s = .next t ∧ WroteOnlyReg xa (s.statusRegister imm8.toNat) s t := by
  refine exec_wroteOnlyReg ?_ nofun nofun rfl
  rw [accepts_iff, checksOf, rdsrChecks, hi]
  rfl

theorem sessionPhase_code_lt (p : SessionPhase) : p.code < 4 := by cases p <;> decide
theorem contextPhase_code_lt (p : ContextPhase) : p.code < 4 := by cases p <;> decide
theorem aeadPhase_code_lt (p : AeadPhase) : p.code < 4 := by cases p <;> decide
theorem variant_code_lt (v : Variant) : v.code < 2 := by cases v <;> decide
theorem cipherVariant_code_lt (v : CipherVariant) : v.code < 2 := by cases v <;> decide

/-- Every field of SR3 fits the bits that R29 gives it, so the fields read back. -/
theorem phaseWord_phaseFields (s : State) : PhaseFields s s.phaseWord := by
  have := sessionPhase_code_lt s.b2.phase
  have := variant_code_lt s.b2.var
  have := s.b2.cfb.toNat_lt
  have := contextPhase_code_lt s.cc.phase
  have := cipherVariant_code_lt s.cc.var
  have := sessionPhase_code_lt s.p13.phase
  have := aeadPhase_code_lt s.aead.phase
  have := contextPhase_code_lt s.kdf.phase
  have := variant_code_lt s.kdf.var
  rw [PhaseFields, State.phaseWord, BitVec.toNat_ofNat]
  refine ⟨?_, ?_, ?_, ?_, ?_, ?_, ?_, ?_, ?_, ?_, ?_, ?_, ?_⟩ <;> omega

/-! ## The statements -/

/-- Settles O23: NOP's word is its encoding, other words of its opcode are illegal, and it is a command with no destination
and no engine. -/
theorem nopOnlyCounts : Obligations.NopOnlyCounts := by
  refine ⟨encodedAs_of_toNat_encode rfl rfl, fun w s hopc hw => ?_, fun s => ?_⟩
  · exact (illegalWordsOnlyRaise w s).2 (illegalWord_of_opcode_nop hopc hw)
  · obtain ⟨hexec, hregs, herrors, hbuf, henv, hok⟩ := exec_session (i := .nop) (s := s) nofun nofun rfl rfl
    exact ⟨_, hexec, hregs, herrors, hbuf, ⟨rfl, rfl, rfl, rfl, rfl, rfl⟩, henv, hok⟩

/-- Settles O24: each word by its encoding, each value by the one register write of the effect. -/
theorem immediateAndMoveResults : Obligations.ImmediateAndMoveResults := by
  refine ⟨fun xa imm20 => ⟨?_, ?_⟩, fun xa xb => ?_, fun s xa xb imm20 => ⟨?_, ?_, ?_⟩⟩
  · exact encodedAs_of_toNat_encode rfl (toNat_formatI _ _ _ (by decide))
  · exact encodedAs_of_toNat_encode rfl (toNat_formatI _ _ _ (by decide))
  · exact encodedAs_of_toNat_encode rfl ((toNat_formatR _ _ _ _ _ (by decide)).trans (by simp))
  · exact exec_wroteOnlyReg (i := .ldi xa imm20) nofun nofun nofun rfl
  · exact exec_wroteOnlyReg (i := .lds xa imm20) nofun nofun nofun (effectOf_lds s xa imm20)
  · exact exec_wroteOnlyReg (i := .mov xa xb) nofun nofun nofun rfl

/-- Settles O25: RDSR writes the status register of its number; SR3's fields are `phaseWord_phaseFields`. -/
theorem rdsrReadsStatusRegisters : Obligations.RdsrReadsStatusRegisters := by
  refine ⟨fun xa imm8 himm => ?_, fun w s hopc himm => ?_, fun s xa => ⟨?_, ?_, ?_, ?_, ?_⟩⟩
  · exact encodedAs_of_toNat_encode (decide_eq_true himm) ((toNat_formatR _ _ _ _ _ (by decide)).trans (by simp))
  · exact (illegalWordsOnlyRaise w s).2 (illegalWord_of_rdsr_number hopc himm)
  · exact exec_rdsr s xa (imm8 := 0) rfl
  · exact exec_rdsr s xa (imm8 := 1) rfl
  · exact exec_rdsr s xa (imm8 := 2) rfl
  · obtain ⟨t, hexec, hwrote⟩ := exec_rdsr s xa (imm8 := 3) rfl
    exact ⟨t, s.phaseWord, hexec, hwrote, phaseWord_phaseFields s⟩
  · exact exec_rdsr s xa (imm8 := 4) rfl

/-- Settles O26: the effect writes the three registers of the record and no other field. -/
theorem clrerrClearsTheRecord : Obligations.ClrerrClearsTheRecord := by
  refine ⟨encodedAs_of_toNat_encode rfl rfl, fun s => ⟨(clrerrEffect s).retire, ?_, rfl, rfl, rfl, ?_⟩⟩
  · exact exec_ok (i := .clrerr) nofun nofun nofun
  · exact ⟨fun _ => rfl, fun _ => rfl, ⟨rfl, rfl, rfl, rfl, rfl, rfl⟩, ⟨rfl, rfl, rfl⟩, rfl, rfl⟩

end Sys2Proof.Machine
end

section
/-! What every command with one region of BUF does. -/

namespace Sys2Proof.Machine

/-- An accepted command whose effect writes one byte string to BUF, and no register or status record, completes OK and
changes a session at most besides. -/
theorem exec_wroteOnlyBuf {i : Instr} {s : State} {a : Nat} {v : Bytes} (ha : Accepts s i)
    (htag : ∀ xa sb sc, i ≠ .aeadDec xa sb sc) (hclr : i ≠ .clrerr) (hdest : destRegister i = none)
    (hbuf : (effectOf i s).buf = s.buf.putAll a v) :
    exec i s = .next (effectOf i s).retire ∧ WroteOnlyBuf a v s (effectOf i s).retire := by
  have hread : ∀ b, (effectOf i s).retire.readByte b = (s.memWrite a v).readByte b := fun b => by
    rw [readByte_retire, State.readByte, hbuf, effectOf_resets, State.readByte, memWrite_buf, memWrite_resets]
  constructor
  · refine exec_ok ha (fun xa sb sc hi => absurd hi (htag xa sb sc)) ?_
    rintro xa xb xc rfl; nomatch hdest
  · refine ⟨?_, fun b hb => (hread b).trans (memWrite_keepsBufOutside s a v b hb),
      fun r => effectOf_getX i s r (by rw [hdest]; nofun),
      ⟨effectOf_errflags i s hclr, effectOf_lasterr i s hclr, effectOf_lastcmd i s hclr⟩,
      ⟨effectOf_cfg i s, effectOf_resets i s, effectOf_port i s⟩, ?_, rfl⟩
    · rw [memRead_congr _ (s.memWrite a v) a v.length fun k _ => hread (a + k), memRead_memWrite_self]
    · rw [retire_cmdcnt, effectOf_cmdcnt]

end Sys2Proof.Machine
end

section
/-! The BLAKE2 unit: INIT, UPDATE and FINAL field by field, and the digest of a whole message (spec/41_blake2.md R140 to R151). -/

namespace Sys2Proof.Machine

/-! ## INIT (spec/41_blake2.md R140 to R142) -/

/-- The parts of the parameter word lie in bits of their own, so the `or` of R142 is a sum. -/
theorem parameterWord_eq_add {kn ol : Nat} (hk : kn ≤ 64) (ho : ol ≤ 64) :
    0x01010000 ||| kn <<< 8 ||| ol = 0x01010000 + kn * 2 ^ 8 + ol := by
  have hlow : kn <<< 8 ||| ol = kn <<< 8 + ol := (Nat.shiftLeft_add_eq_or_of_lt (by omega) kn).symm
  have hhigh := Nat.shiftLeft_add_eq_or_of_lt (i := 16) (b := kn <<< 8 + ol) (by rw [Nat.shiftLeft_eq]; omega) 0x0101
  rw [Nat.or_assoc, hlow, show 0x01010000 = 0x0101 <<< 16 from rfl, ← hhigh, Nat.shiftLeft_eq kn, Nat.add_assoc]

/-- The state words that a session starts from. -/
def startWords (var : Variant) (key : Bytes) (ol : Nat) : Vector Word 8 :=
  var.iv.set 0 (var.iv.get 0 ^^^ BitVec.ofNat 64 (0x01010000 + key.length * 2 ^ 8 + ol))

theorem hashLengthsOk_le {var : Variant} {kn ol : Nat} (h : hashLengthsOk var kn ol = true) : kn ≤ 64 ∧ ol ≤ 64 := by
  obtain ⟨hk, -, ho⟩ := (hashLengthsOk_iff ..).mp h
  have hmax : var.maxLen ≤ 64 := by cases var <;> decide
  omega

section
variable (old : Blake2) (var : Variant) (key : Bytes) (ol : Nat)
@[simp] theorem init_var : (old.init var key ol).var = var := by simp only [Blake2.init]; split <;> rfl
@[simp] theorem init_phase : (old.init var key ol).phase = .active := by simp only [Blake2.init]; split <;> rfl
@[simp] theorem init_outlen : (old.init var key ol).outlen = ol := by simp only [Blake2.init]; split <;> rfl
end

theorem init_h (old : Blake2) {var : Variant} {key : Bytes} {ol : Nat} (hl : hashLengthsOk var key.length ol = true) :
    (old.init var key ol).h = startWords var key ol := by
  obtain ⟨hk, ho⟩ := hashLengthsOk_le hl
  rw [startWords, ← parameterWord_eq_add hk ho]
  simp only [Blake2.init]; split <;> rfl

/-- Byte `k` of a zero-padded string, over a buffer that holds `d` there. -/
theorem getD_append_zeros {key : Bytes} {n k : Nat} (d : Byte) (h : key.length ≤ n) :
    (key ++ zeros (n - key.length)).getD k d = if k < n then key.getD k 0 else d := by
  have hlen : (key ++ zeros (n - key.length)).length = n := by simp; omega
  split
  · next hk =>
    by_cases hkey : k < key.length
    · rw [List.getD_append _ _ _ _ hkey, List.getD_eq_getElem _ _ hkey, List.getD_eq_getElem _ _ hkey]
    · rw [List.getD_append_right _ _ _ _ (by omega), List.getD_eq_default key _ (by omega), zeros,
        List.getD_replicate _ (by omega)]
  · next hk => exact List.getD_eq_default _ _ (by omega)

/-- The session that INIT starts, field by field. -/
theorem init_startedHash (old : Blake2) {var : Variant} {key : Bytes} {ol : Nat}
    (hl : hashLengthsOk var key.length ol = true) : StartedHash var key ol old (old.init var key ol) where
  var := init_var ..
  phase := init_phase ..
  outlen := init_outlen ..
  h0 := by rw [init_h old hl]; exact (get_set var.iv 0 0 _).trans (if_pos rfl)
  h i hi := by rw [init_h old hl]; exact (get_set var.iv 0 i _).trans (if_neg hi)
  unkeyed := by rintro rfl; exact ⟨rfl, rfl, rfl, rfl⟩
  keyed hkey := by
    have hlen : key.length ≠ 0 := fun h => hkey (List.length_eq_zero_iff.mp h)
    have hblock : key.length ≤ var.blockBytes :=
      ((hashLengthsOk_iff ..).mp hl).1.trans (maxLen_lt_blockBytes var).le
    have hcount : (BitVec.ofNat 128 var.blockBytes).toNat = var.blockBytes := by cases var <;> rfl
    rw [Blake2.init, if_neg hlen]
    exact ⟨hcount, rfl, rfl, fun i => (get_overwrite ..).trans (getD_append_zeros _ hblock)⟩

/-- The command INIT of either variant, its lengths in range and its key inside BUF. -/
theorem exec_blake2Init {i : Instr} {s : State} {var : Variant} {sa : SpanReg} {xb : Reg}
    (hchecks : checksOf s i = b2InitChecks var sa xb s) (heffect : effectOf i s = b2InitEffect var sa xb s)
    (hclr : i ≠ .clrerr) (hdest : destRegister i = none) (hregions : writeRegions s i = [])
    (hl : hashLengthsOk var (s.spanLen sa) (s.xNat xb) = true) (hspan : s.spanOk (s.spanAddr sa) (s.spanLen sa) = true) :
    ∃ t, exec i s = .next t ∧ WroteOnlySession s t ∧ t.cc = s.cc ∧ t.p13 = s.p13 ∧ t.aead = s.aead
      ∧ t.kdf = s.kdf ∧ t.pcg = s.pcg ∧ StartedHash var (s.readSpan sa) (s.xNat xb) s.b2 t.b2 := by
  have ha : Accepts s i := by simp [Accepts, hchecks, b2InitChecks, needLength, needSpan, hl, hspan]
  obtain ⟨he, hw⟩ := exec_session ha hclr hdest hregions
  rw [heffect] at he hw
  exact ⟨_, he, hw, rfl, rfl, rfl, rfl, rfl, init_startedHash s.b2 (by rw [length_readSpan]; exact hl)⟩

/-- Settles O27: one argument for both variants, `init_startedHash` giving the fields. -/
theorem b2InitStartsASession : Obligations.B2InitStartsASession := by
  refine fun s sa xb => ⟨fun hkey hout1 hout hspan => ?_, fun hkey hout1 hout hspan => ?_⟩
  · exact exec_blake2Init (i := .b2bInit sa xb) rfl rfl nofun rfl rfl ((hashLengthsOk_iff ..).mpr ⟨hkey, hout1, hout⟩) hspan
  · exact exec_blake2Init (i := .b2sInit sa xb) rfl rfl nofun rfl rfl ((hashLengthsOk_iff ..).mpr ⟨hkey, hout1, hout⟩) hspan

/-! ## UPDATE (spec/41_blake2.md R143) -/

/-- A byte that finds room in the block is only buffered. -/
theorem absorbByte_of_fits {b : Blake2} (d : Byte) (h : b.fill < b.var.blockBytes) :
    b.absorbByte d = { b with buf := b.buf.setIfInBounds b.fill d, fill := b.fill + 1 } := by
  simp only [Blake2.absorbByte, if_neg h.ne]

theorem absorb_cons (b : Blake2) (d : Byte) (ds : Bytes) : b.absorb (d :: ds) = (b.absorbByte d).absorb ds := rfl

/-- Bytes that fit the block change the buffer and the fill only. -/
theorem absorb_of_fits {b : Blake2} (data : Bytes) (h : b.fill + data.length ≤ b.var.blockBytes) :
    b.absorb data = { b with buf := (b.absorb data).buf, fill := b.fill + data.length } := by
  induction data generalizing b with
  | nil => rfl
  | cons d ds ih =>
    rw [List.length_cons] at h
    have hd := absorbByte_of_fits d (show b.fill < b.var.blockBytes by omega)
    rw [absorb_cons, ih (by rw [hd]; exact (Nat.add_right_comm ..).trans_le h), hd, List.length_cons, Nat.add_right_comm,
      Nat.add_assoc]

theorem get_setIfInBounds {n : Nat} (v : Vector Byte n) (k : Nat) (d : Byte) (i : Fin n) :
    (v.setIfInBounds k d).get i = if i.val = k then d else v.get i := by
  simp only [Vector.get_eq_getElem, Vector.getElem_setIfInBounds, eq_comm]

/-- Bytes that fit the block stand in the buffer after those already there. -/
theorem absorb_buf_of_fits {b : Blake2} (data : Bytes) (h : b.fill + data.length ≤ b.var.blockBytes) (k : Fin 128) :
    (b.absorb data).buf.get k = if b.fill ≤ k.val ∧ k.val < b.fill + data.length then data.getD (k.val - b.fill) 0
      else b.buf.get k := by
  induction data generalizing b with
  | nil => rw [if_neg (by rw [List.length_nil]; omega)]; rfl
  | cons d ds ih =>
    rw [List.length_cons] at h ⊢
    have hd := absorbByte_of_fits d (show b.fill < b.var.blockBytes by omega)
    rw [absorb_cons, ih (by rw [hd]; exact (Nat.add_right_comm ..).trans_le h), hd]
    simp only [get_setIfInBounds]
    obtain hlt | heq | hgt := Nat.lt_trichotomy k.val b.fill
    · rw [if_neg (by omega), if_neg (by omega), if_neg (by omega)]
    · rw [if_neg (by omega), if_pos heq, if_pos (by omega), heq, Nat.sub_self, List.getD_cons_zero]
    · rw [if_neg (show ¬k.val = b.fill by omega), show k.val - b.fill = k.val - (b.fill + 1) + 1 by omega,
        List.getD_cons_succ]
      exact if_congr (by omega) rfl rfl

/-- Settles O28: an accepted session command; what fits the block is buffered, read off by position. -/
theorem b2UpdateAbsorbsItsSpan : Obligations.B2UpdateAbsorbsItsSpan := by
  intro s sa hphase hspan
  have ha : Accepts s (.b2Update sa) := by simp [Accepts, checksOf, b2UpdateChecks, needPhase, needSpan, hphase, hspan]
  have hlen : (s.readSpan sa).length = s.spanLen sa := length_readSpan s sa
  obtain ⟨he, hw⟩ := exec_session ha nofun rfl rfl
  have hb2 : (effectOf (.b2Update sa) s).retire.b2 = s.b2.absorb (s.readSpan sa) := rfl
  refine ⟨_, he, hw, rfl, rfl, rfl, rfl, rfl, hb2, (absorb_phase ..).trans hphase, fun hfits => ?_⟩
  rw [hb2, ← hlen]
  rw [← hlen] at hfits
  have hfields := absorb_of_fits _ hfits
  refine ⟨by rw [hfields], by rw [hfields], by rw [hfields], by rw [hfields],
    fun k => (absorb_buf_of_fits _ hfits k).trans ?_⟩
  rw [hlen]
  split
  · next hk => rw [State.readSpan, getD_memRead, if_pos (by omega)]
  · rfl

/-! ## FINAL (spec/41_blake2.md R145, R150) -/

/-- The counter after the last compression: the key block is counted already, other bytes are counted now. -/
theorem finish_t_toNat (b : Blake2) :
    b.finish.t.toNat = if b.cfb then b.t.toNat else (b.t.toNat + b.fill) % 2 ^ (2 * b.var.width) := by
  have hlt : (b.t.toNat + b.fill) % 2 ^ (2 * b.var.width) < 2 ^ 128 :=
    (Nat.mod_lt _ (Nat.two_pow_pos _)).trans_le (Nat.pow_le_pow_right (by decide) (by have := width_le b.var; omega))
  simp only [Blake2.finish, Blake2.compressPending, padded_cfb, padded_t, padded_fill, padded_var]
  split
  · rfl
  · rw [BitVec.toNat_ofNat, Nat.mod_eq_of_lt hlt]

/-- The padded block is the waiting bytes, then zero bytes. -/
theorem take_padded_buf {b : Blake2} (h : b.fill ≤ b.var.blockBytes) :
    b.padded.buf.toList.take b.var.blockBytes = b.buf.toList.take b.fill ++ zeros (b.var.blockBytes - b.fill) := by
  have hbb := blockBytes_le b.var
  apply List.ext_getElem
  · simp; omega
  · intro i hi _
    have hi : i < b.var.blockBytes := by simp at hi; omega
    simp only [Blake2.padded, List.getElem_take, Vector.getElem_toList, Vector.getElem_ofFn, List.getElem_append, hi, and_true]
    by_cases hfill : b.fill ≤ i
    · rw [if_pos hfill, dif_neg (by simp; omega)]; simp [zeros]
    · rw [if_neg hfill, dif_pos (by simp; omega)]; rfl

/-- FINAL compresses the padded block as the last one. -/
theorem finish_h {b : Blake2} (h : b.fill ≤ b.var.blockBytes) :
    b.finish.h = compress b.var b.h (b.buf.toList.take b.fill ++ zeros (b.var.blockBytes - b.fill)) b.finish.t true := by
  rw [← take_padded_buf h]
  simp only [Blake2.finish, Blake2.compressPending, padded_var, padded_h]

theorem effectOf_b2Final_buf (s : State) (xa : Reg) :
    (effectOf (.b2Final xa) s).buf = s.buf.putAll (s.xNat xa) s.b2.finish.digest := by
  simp only [effectOf, b2FinalEffect, memWrite_buf]

/-- Settles O29: the one write of the effect is the digest, and `finish` is read off field by field. -/
theorem b2FinalWritesTheDigest : Obligations.B2FinalWritesTheDigest := by
  intro s xa hphase hinv hspan
  have ha : Accepts s (.b2Final xa) := by simp [Accepts, checksOf, b2FinalChecks, needPhase, needSpan, hphase, hspan]
  obtain ⟨he, hw⟩ := exec_wroteOnlyBuf ha nofun nofun rfl (effectOf_b2Final_buf s xa)
  have hlen : s.b2.finish.digest.length = s.b2.outlen := by
    rw [length_digest _ (by rw [finish_outlen, finish_var]; exact hinv.outlen), finish_outlen]
  have hb2 : (effectOf (.b2Final xa) s).retire.b2 = s.b2.finish := by
    simp only [effectOf, b2FinalEffect, memWrite_b2, retire_b2]
  refine ⟨_, _, he, hw, hlen, ?_⟩
  rw [hb2]
  refine ⟨?_, finish_t_toNat s.b2, finish_h hinv.fill, finish_phase _, finish_cfb _, finish_fill _, finish_var _,
    finish_outlen _, rfl, rfl, rfl, rfl, rfl⟩
  rw [Blake2.digest, finish_var, finish_outlen]

/-! ## The digest of a whole message (spec/41_blake2.md R151) -/

/-- The state words after a whole input: the waiting block compressed as the last one. -/
def hashedInput (var : Variant) (h0 : Vector Word 8) (input : Bytes) : Vector Word 8 :=
  compress var (hashedBlocks var h0 input (compressedBlocks var input.length))
    (hashBlock var input (compressedBlocks var input.length))
    (BitVec.ofNat 128 (input.length % 2 ^ (2 * var.width))) true

/-- The input of a session: the zero-padded key block, if there is a key, then the message. -/
def hashInput (var : Variant) (key msg : Bytes) : Bytes :=
  (if key = [] then [] else key ++ zeros (var.blockBytes - key.length)) ++ msg

/-- The waiting block is the rest of the input, padded. -/
theorem hashBlock_compressedBlocks (var : Variant) (input : Bytes) :
    hashBlock var input (compressedBlocks var input.length)
      = input.drop (compressedBlocks var input.length * var.blockBytes)
        ++ zeros (var.blockBytes - (input.length - compressedBlocks var input.length * var.blockBytes)) := by
  have hge := le_compressedBlocks var input.length
  rw [hashBlock, slice, List.take_of_length_le (by rw [List.length_drop, Nat.succ_mul]; omega), List.length_drop]

theorem Absorbed.fill_le {var : Variant} {h0 : Vector Word 8} {input : Bytes} {b : Blake2} (a : Absorbed var h0 input b) :
    b.fill ≤ var.blockBytes := by
  have hge := le_compressedBlocks var input.length
  rw [a.fill]; omega

/-- The counter of the last compression is the length of the input. -/
theorem Absorbed.finish_t {var : Variant} {h0 : Vector Word 8} {input : Bytes} {b : Blake2} (a : Absorbed var h0 input b) :
    b.finish.t = BitVec.ofNat 128 (input.length % 2 ^ (2 * var.width)) := by
  have hle := compressedBlocks_mul_le var input.length
  have ht : b.finish.t.toNat = input.length % 2 ^ (2 * var.width) := by
    rw [finish_t_toNat, a.variant]
    cases hcfb : b.cfb with
    | true =>
      obtain ⟨hkey, hlen⟩ := a.first hcfb
      rw [if_pos rfl, hkey, hlen, Nat.mod_eq_of_lt (blockBytes_lt_pow var)]
    | false =>
      rw [if_neg Bool.false_ne_true, a.counted hcfb, a.fill, Nat.mod_add_mod, Nat.add_sub_cancel' hle]
  rw [← ht, BitVec.ofNat_toNat, BitVec.setWidth_eq]

/-- FINAL on a session that has taken an input. -/
theorem Absorbed.finish_h {var : Variant} {h0 : Vector Word 8} {input : Bytes} {b : Blake2} (a : Absorbed var h0 input b) :
    b.finish.h = hashedInput var h0 input := by
  rw [Machine.finish_h (by rw [a.variant]; exact a.fill_le), a.finish_t, a.buf, a.h, a.variant, a.fill, hashedInput,
    hashBlock_compressedBlocks]

/-- The reference cuts the input into the blocks that wait before the last one, and the last. -/
theorem max_one_ceilDiv (var : Variant) (n : Nat) : max 1 (ceilDiv n var.blockBytes) = compressedBlocks var n + 1 := by
  have hpos := blockBytes_pos var
  rw [ceilDiv, compressedBlocks]
  cases n with
  | zero => rw [Nat.div_eq_of_lt (by omega), Nat.zero_sub, Nat.zero_div, Nat.max_eq_left (Nat.zero_le 1)]
  | succ n =>
    rw [show n + 1 + var.blockBytes - 1 = n + var.blockBytes by omega, Nat.add_div_right _ hpos, Nat.add_sub_cancel,
      Nat.max_eq_right (Nat.le_add_left ..)]

/-- The reference's digest, by the state words it ends with: only its last block is not whole and bears the last-block
flag. -/
theorem blake2Reference_eq_digest {var : Variant} {key : Bytes} {ol : Nat} {msg : Bytes} {b : Blake2}
    (hvar : b.var = var) (hout : b.outlen = ol)
    (hh : b.h = hashedInput var (startWords var key ol) (hashInput var key msg)) :
    blake2Reference var key ol msg = b.digest := by
  simp only [blake2Reference, Blake2.digest, hvar, hout, hh, hashedInput]
  rw [← hashInput, ← startWords]
  generalize hashInput var key msg = input
  have hle := compressedBlocks_mul_le var input.length
  have hge := le_compressedBlocks var input.length
  rw [max_one_ceilDiv, List.range_succ, List.foldl_append, List.foldl_cons, List.foldl_nil, hashedBlocks]
  generalize compressedBlocks var input.length = c at *
  rw [List.foldl_ext _ _ _ fun h i hi => ?_, Nat.min_eq_left (by rw [Nat.succ_mul]; exact hge), beq_self_eq_true]
  have hi : i < c := List.mem_range.mp hi
  have hwhole : (i + 1) * var.blockBytes ≤ input.length := (Nat.mul_le_mul_right _ hi).trans hle
  rw [Nat.min_eq_right hwhole, beq_false_of_ne (by omega)]

/-- Absorbing chunks in turn is absorbing the message they make up (41_blake2.md R143). -/
theorem foldl_absorb (b : Blake2) (chunks : List Bytes) : chunks.foldl Blake2.absorb b = b.absorb chunks.flatten :=
  List.foldl_flatten.symm

/-- A session that INIT started has taken its key block and every byte since. -/
theorem absorbed_init_absorb (old : Blake2) {var : Variant} {key : Bytes} {ol : Nat} (msg : Bytes)
    (hl : hashLengthsOk var key.length ol = true) :
    Absorbed var (startWords var key ol) (hashInput var key msg) ((old.init var key ol).absorb msg) := by
  obtain ⟨hk, ho⟩ := hashLengthsOk_le hl
  have hinit := absorbed_init old var key ol ((hashLengthsOk_iff ..).mp hl).1
  rw [parameterWord_eq_add hk ho, ← startWords] at hinit
  exact hinit.absorb msg

/-- Settles O30: what the session has absorbed fixes the state words after FINAL, and the reference ends with the same. -/
theorem hashOfAnyChunkingIsTheReference : Obligations.HashOfAnyChunkingIsTheReference := by
  intro var old key ol chunks hl
  have habs := absorbed_init_absorb old chunks.flatten hl
  rw [foldl_absorb]
  refine (blake2Reference_eq_digest ?_ ?_ habs.finish_h).symm
  · rw [finish_var, habs.variant]
  · rw [finish_outlen, absorb_outlen, init_outlen]

end Sys2Proof.Machine
end

section
/-! CC.XFORM: the keystream, the transform byte for byte, its counter, and its own inverse (spec/42_chacha.md R173, R176 to
R180). -/

namespace Sys2Proof.Machine

/-! ## The keystream (spec/42_chacha.md R173, R177) -/

@[simp] theorem length_wordsLe (ws : List Word32) : (wordsLe ws).length = 4 * ws.length := by
  simp [wordsLe, List.length_flatMap, Nat.mul_comm]

@[simp] theorem length_chachaBlock (w : Vector Word32 16) (ctr : Nat) : (chachaBlock w ctr).length = 64 := by
  simp [chachaBlock]

theorem keystream_succ (w : Vector Word32 16) (ctr0 nb : Nat) :
    keystream w ctr0 (nb + 1) = keystream w ctr0 nb ++ chachaBlock w (ctr0 + nb) := by
  simp [keystream, List.range_succ]

@[simp] theorem length_keystream (w : Vector Word32 16) (ctr0 nb : Nat) : (keystream w ctr0 nb).length = 64 * nb := by
  simp [keystream, List.length_flatMap, Nat.mul_comm]

/-- Byte `k` of the keystream stands in block `k / 64`. -/
theorem getD_keystream (w : Vector Word32 16) (ctr0 : Nat) {nb k : Nat} (hk : k < 64 * nb) :
    (keystream w ctr0 nb).getD k 0 = (chachaBlock w (ctr0 + k / 64)).getD (k % 64) 0 := by
  induction nb with
  | zero => omega
  | succ nb ih =>
    rw [keystream_succ]
    by_cases hlt : k < 64 * nb
    · rw [List.getD_append _ _ _ _ (by rwa [length_keystream]), ih hlt]
    · rw [List.getD_append_right _ _ _ _ (by rw [length_keystream]; omega), length_keystream,
        show k / 64 = nb by omega, show k % 64 = k - 64 * nb by omega]

theorem blockCount_eq (n : Nat) : blockCount n = (n + 63) / 64 := rfl

/-- The keystream covers the source. -/
theorem le_mul_blockCount (n : Nat) : n ≤ 64 * blockCount n := by
  rw [blockCount_eq]; omega

@[simp] theorem length_chachaXor (w : Vector Word32 16) (ctr0 : Nat) (src : Bytes) :
    (chachaXor w ctr0 src).length = src.length := by
  rw [chachaXor, length_xorBytes, length_keystream, Nat.min_eq_left (le_mul_blockCount _)]

theorem getD_xorBytes {a b : Bytes} {k : Nat} (ha : k < a.length) (hb : k < b.length) :
    (xorBytes a b).getD k 0 = a.getD k 0 ^^^ b.getD k 0 := by
  simp [xorBytes, ha, hb]

theorem getD_chachaXor (w : Vector Word32 16) (ctr0 : Nat) {src : Bytes} {k : Nat} (hk : k < src.length) :
    (chachaXor w ctr0 src).getD k 0 = src.getD k 0 ^^^ (chachaBlock w (ctr0 + k / 64)).getD (k % 64) 0 := by
  have hks : k < 64 * blockCount src.length := hk.trans_le (le_mul_blockCount _)
  rw [chachaXor, getD_xorBytes hk (by rwa [length_keystream]), getD_keystream w ctr0 hks]

/-! ## The effect of CC.XFORM (spec/42_chacha.md R177) -/

/-- Byte `k` of the destination. The source and the counter are those before the command. -/
theorem effectOf_ccXform_readByte (s : State) (xa xc : Reg) (sb : SpanReg) {k : Nat} (hk : k < s.spanLen sb) :
    (effectOf (.ccXform xa sb xc) s).readByte (s.xNat xa + k) = s.readByte (s.spanAddr sb + k)
      ^^^ (chachaBlock s.cc.w (firstCounter s.cc.w (s.xNat xc) + k / 64)).getD (k % 64) 0 := by
  have hlen : (s.readSpan sb).length = s.spanLen sb := length_readSpan s sb
  simp only [effectOf, ccXformEffect, readByte_setXNat, readByte_memWrite, length_chachaXor, hlen]
  rw [if_pos (by omega), Nat.add_sub_cancel_left, getD_chachaXor _ _ (by rwa [hlen]), State.readSpan, getD_memRead, if_pos hk]

theorem effectOf_ccXform_counter (s : State) (xa xc : Reg) (sb : SpanReg) :
    (effectOf (.ccXform xa sb xc) s).getX xc = BitVec.ofNat 64 (s.xNat xc + (s.spanLen sb + 63) / 64) := by
  simp only [effectOf, ccXformEffect, getX_setXNat_self, blockCount_eq]

/-! ## The checks of CC.XFORM (spec/42_chacha.md R176 to R178) -/

theorem callerCounterOk_iff (var : CipherVariant) (c : Nat) :
    (!(var == .chacha20 && decide (2 ^ 32 ≤ c))) = true ↔ (var = .chacha20 → c < 2 ^ 32) := by
  simp [imp_iff_not_or]

theorem counterFits_iff (w : Vector Word32 16) (c n : Nat) :
    counterFits (firstCounter w c) n = true ↔ c + (w.get 13).toNat * 2 ^ 32 + (n + 63) / 64 ≤ 2 ^ 64 - 1 :=
  decide_eq_true_iff

/-- The first block's counter is in range: word 13 is 0 for XChaCha20, and ChaCha20 takes 32 bits from the caller. -/
theorem firstCounter_le_of_inv {s : State} {xc : Reg} (hinv : s.cc.Inv) (hc : s.cc.var = .chacha20 → s.xNat xc < 2 ^ 32) :
    s.xNat xc + (s.cc.w.get 13).toNat * 2 ^ 32 ≤ 2 ^ 64 - 1 := by
  cases hvar : s.cc.var with
  | chacha20 =>
    have := hc hvar
    have := (s.cc.w.get 13).isLt
    omega
  | xchacha20 =>
    rw [hinv.nonce hvar]
    exact Nat.le_pred_of_lt (s.getX xc).isLt

section
variable {s : State} {xa xc : Reg} {sb : SpanReg} (hphase : s.cc.phase = .ready)
  (hsrc : s.spanOk (s.spanAddr sb) (s.spanLen sb) = true) (hdst : s.spanOk (s.xNat xa) (s.spanLen sb) = true)
  (hdistinct : disjointOrSame (s.xNat xa) (s.spanAddr sb) (s.spanLen sb) = true)
include hphase hsrc hdst hdistinct

/-- When the phase, the spans and their distinctness are in order, the two checks on the counter decide. -/
theorem firstFailing_ccXform : firstFailing (checksOf s (.ccXform xa sb xc)) =
    firstFailing [needCounter (!(s.cc.var == .chacha20 && decide (2 ^ 32 ≤ s.xNat xc))),
      needNoOverflow (counterFits (firstCounter s.cc.w (s.xNat xc)) (s.spanLen sb))] := by
  simp only [checksOf, ccXformChecks, needPhase, needSpan, needDistinct, hphase, hsrc, hdst, hdistinct, beq_self_eq_true,
    firstFailing]

theorem firstFailing_ccXform_badCounter (hvar : s.cc.var = .chacha20) (hc : 2 ^ 32 ≤ s.xNat xc) :
    firstFailing (checksOf s (.ccXform xa sb xc)) = some (.usage .badCounter) := by
  rw [firstFailing_ccXform hphase hsrc hdst hdistinct, hvar, decide_eq_true hc]
  rfl

theorem firstFailing_ccXform_overflow (hc : s.cc.var = .chacha20 → s.xNat xc < 2 ^ 32)
    (hover : 2 ^ 64 - 1 < s.xNat xc + (s.cc.w.get 13).toNat * 2 ^ 32 + (s.spanLen sb + 63) / 64) :
    firstFailing (checksOf s (.ccXform xa sb xc)) = some .arithmeticOverflow := by
  have hfits := Bool.eq_false_iff.mpr fun h => Nat.not_le_of_lt hover ((counterFits_iff ..).mp h)
  rw [firstFailing_ccXform hphase hsrc hdst hdistinct, (callerCounterOk_iff ..).mpr hc, hfits]
  rfl

theorem accepts_ccXform (hc : s.cc.var = .chacha20 → s.xNat xc < 2 ^ 32)
    (hfits : s.xNat xc + (s.cc.w.get 13).toNat * 2 ^ 32 + (s.spanLen sb + 63) / 64 ≤ 2 ^ 64 - 1) :
    Accepts s (.ccXform xa sb xc) := by
  rw [accepts_iff, firstFailing_ccXform hphase hsrc hdst hdistinct, (callerCounterOk_iff ..).mpr hc,
    (counterFits_iff ..).mpr hfits]
  rfl
end

/-! ## A command that reports OK -/

theorem error_status_ne_ok (e : Error) : e.status ≠ .ok := by cases e <;> nofun

/-- A command that reports OK has had its effect. -/
theorem eq_retire_of_status_ok {i : Instr} {s t : State} (h : exec i s = .next t) (hok : t.status = some .ok) :
    t = (effectOf i s).retire := by
  obtain ⟨e, -, rfl⟩ | ⟨-, ht, -, -⟩ | ⟨xa, sb, sc, -, -, -, rfl⟩ := exec_cases h
  · exact absurd (Option.some.inj hok) (error_status_ne_ok e)
  · exact ht
  · exact absurd (Option.some.inj hok) (error_status_ne_ok _)

/-- What a CC.XFORM that reports OK has written. -/
theorem ccXform_ok_readByte {s t : State} {xa xc : Reg} {sb : SpanReg} (h : exec (.ccXform xa sb xc) s = .next t)
    (hok : t.status = some .ok) {k : Nat} (hk : k < s.spanLen sb) :
    t.readByte (s.xNat xa + k) = s.readByte (s.spanAddr sb + k)
      ^^^ (chachaBlock s.cc.w (firstCounter s.cc.w (s.xNat xc) + k / 64)).getD (k % 64) 0 := by
  rw [eq_retire_of_status_ok h hok, readByte_retire, effectOf_ccXform_readByte s xa xc sb hk]

/-! ## The statements -/

/-- Settles O32: the checks pass, the bytes and the counter are those of the effect, and the rest is the frame of every
command. -/
theorem xformXorsTheKeystream : Obligations.XformXorsTheKeystream := by
  intro s xa xc sb hphase hsrc hdst hdistinct hc hfits
  have ha := accepts_ccXform hphase hsrc hdst hdistinct hc hfits
  have he := exec_ok ha nofun nofun
  obtain ⟨hcnt, henv⟩ := exec_counts_and_keepsEnv he
  obtain ⟨hb2, hcc, hp13, haead, hkdf, hpcg, -⟩ := enginesChangeOnlyByTheirOwnCommands _ _ _ he
  refine ⟨_, he, fun k hk => effectOf_ccXform_readByte s xa xc sb hk, fun a hout => ?_, ?_, fun r hr => ?_,
    ⟨effectOf_errflags _ s nofun, effectOf_lasterr _ s nofun, effectOf_lastcmd _ s nofun⟩,
    ⟨hb2 nofun, hcc nofun, hp13 nofun, haead nofun, hkdf nofun, hpcg nofun⟩, henv, hcnt, rfl⟩
  · exact bufChangesOnlyInWrittenRegions _ _ _ he a (List.forall_mem_singleton.mpr hout)
  · rw [getX_retire, effectOf_ccXform_counter, BitVec.toNat_ofNat, Nat.mod_eq_of_lt (by omega)]
  · exact onlyTheDestinationRegisterChanges _ _ _ he r fun h => hr (Option.some.inj h).symm

/-- Settles O33: each refusal by its own check; an empty transform is one of O32's, with no byte and no block. -/
theorem xformRefusesCounterOverflow : Obligations.XformRefusesCounterOverflow := by
  intro s xa xc sb hphase hsrc hdst hdistinct
  refine ⟨fun hvar hc => ?_, fun hc hover => ?_, fun hc hinv hempty => ?_⟩
  · exact ⟨_, exec_raise (firstFailing_ccXform_badCounter hphase hsrc hdst hdistinct hvar hc), raise_raisedOnly ..⟩
  · exact ⟨_, exec_raise (firstFailing_ccXform_overflow hphase hsrc hdst hdistinct hc hover), raise_raisedOnly ..⟩
  · have hblocks : (s.spanLen sb + 63) / 64 = 0 := by rw [hempty]
    have hfits := firstCounter_le_of_inv hinv hc
    obtain ⟨t, he, -, hbuf, hcounter, -, -, -, -, -, hok⟩ :=
      xformXorsTheKeystream s xa xc sb hphase hsrc hdst hdistinct hc (by rwa [hblocks, Nat.add_zero])
    rw [hempty] at hbuf
    rw [hblocks, Nat.add_zero] at hcounter
    exact ⟨t, he, hok, BitVec.eq_of_toNat_eq hcounter, fun a => hbuf a (Nat.lt_or_ge ..)⟩

/-- Settles O34: both transforms xor the same keystream byte, and `xor` by one byte undoes itself. -/
theorem xformIsSelfInverse : Obligations.XformIsSelfInverse := by
  intro s t v u xa xc xa' xc' sb sb' hs hsok hcc haddr hlen hcounter hbytes hv hvok k hk
  generalize hks : (chachaBlock s.cc.w (firstCounter s.cc.w (s.xNat xc) + k / 64)).getD (k % 64) 0 = ks
  calc u.readByte (v.xNat xa' + k)
    _ = v.readByte (s.xNat xa + k) ^^^ ks := by
      rw [ccXform_ok_readByte hv hvok (by rwa [hlen]), hcc, haddr, hcounter, hks]
    _ = s.readByte (s.spanAddr sb + k) ^^^ ks ^^^ ks := by
      rw [hbytes k hk, ccXform_ok_readByte hs hsok hk, hks]
    _ = s.readByte (s.spanAddr sb + k) := by rw [BitVec.xor_assoc, BitVec.xor_self, BitVec.xor_zero]

end Sys2Proof.Machine
end

section
/-! P13.FINAL: the left-over block, the final reduction, and the tag of a whole message (spec/43_poly1305.md R203, R206,
R207). -/

namespace Sys2Proof.Machine

/-! ## The final reduction (spec/43_poly1305.md R207) -/

/-- With nothing to carry out of limb 0 the final pass is the carry chain of a multiplication. -/
theorem finalCarry_eq_carryChain {h : Limbs} (h0 : h.l0 < 2 ^ 26) : finalCarry h = carryChain h := by
  simp only [finalCarry, carryChain, and_mask26, Nat.shiftRight_eq_div_pow, Nat.div_eq_of_lt h0, Nat.mod_eq_of_lt h0,
    Nat.add_zero]

/-- One conditional subtraction reduces a number below 2p. -/
theorem subtractP_eq_mod {H : Nat} (h : H < 2 * polyP) : subtractP H = H % polyP := by
  rw [subtractP]
  simp only [polyP] at h ⊢
  split <;> omega

theorem polyFinish_acc (p : PolyMac) (hp : p.Inv) : p.finish.acc = (finalCarry (Limbs.ofFields p.flush.h)).value := by
  rw [PolyMac.acc, PolyMac.finish, (finalCarry_reduced _ (polyFlush_inv p hp).h).toFields]

/-- FinalReduce gives the accumulator's residue: the carried limbs stand for less than 2p. -/
theorem subtractP_polyFinish_acc (p : PolyMac) (hp : p.Inv) : subtractP p.finish.acc = p.flush.acc % polyP := by
  have hlt := (polyFinish_inv p hp).h.value_lt
  have h2p : 2 ^ 130 + 2 ^ 33 ≤ 2 * polyP := by decide
  calc subtractP p.finish.acc
    _ = p.finish.acc % polyP := subtractP_eq_mod (hlt.trans_le h2p)
    _ = (carryChain (Limbs.ofFields p.flush.h)).value % polyP := by
      rw [polyFinish_acc p hp, finalCarry_eq_carryChain (polyFlush_inv p hp).h.l0]
    _ = p.flush.acc % polyP := carryChain_value _

theorem polyFinish_sValue (p : PolyMac) : p.finish.sValue = p.sValue := by
  have hpad : p.finish.pad = p.pad := by
    simp only [PolyMac.finish, PolyMac.flush]
    split <;> rfl
  rw [PolyMac.sValue, hpad, ← PolyMac.sValue]

/-- The tag of a session that FINAL ends, by the residue of what its flush accumulates. -/
theorem polyFinish_tag (p : PolyMac) (hp : p.Inv) :
    p.finish.tag = toLe ((p.flush.acc % polyP + p.sValue) % 2 ^ 128) 16 := by
  rw [PolyMac.tag, PolyMac.tagNumber, subtractP_polyFinish_acc p hp, polyFinish_sValue, Nat.mod_add_mod]

/-! ## The left-over block (spec/43_poly1305.md R206) -/

/-- The byte 1 after a short block is the `2^(8 len)` of its value. -/
theorem le_append_one_zeros (b : Bytes) (n : Nat) : le (b ++ [1] ++ zeros n) = polyBlockValue b := by
  have hone : le [(1 : Byte)] = 1 := rfl
  rw [polyBlockValue, le_append, le_append, le_zeros, hone, Nat.mul_zero, Nat.mul_one, Nat.add_zero, Nat.pow_mul]

theorem polyFlush_of_empty {p : PolyMac} (h : p.fill = 0) : p.flush = p := if_neg (by omega)

/-- The bytes left over are absorbed as one block. -/
theorem polyFlush_acc_mod {p : PolyMac} (hp : p.Inv) (h : p.fill ≠ 0) :
    p.flush.acc % polyP = (p.acc + polyBlockValue (p.buf.toList.take p.fill)) * p.rValue % polyP := by
  have hfill := hp.fill
  have hflush : p.flush.acc = (p.absorbBlock (p.buf.toList.take p.fill ++ [1] ++ zeros (15 - p.fill)) 0).acc := by
    rw [PolyMac.flush, if_pos (Nat.pos_of_ne_zero h), PolyMac.acc, PolyMac.acc]
  have hblock : (p.buf.toList.take p.fill ++ [1] ++ zeros (15 - p.fill)).length = 16 := by simp; omega
  rw [hflush, absorbBlock_acc_mod p _ 0 hp hblock (Nat.zero_le 1), le_append_one_zeros, Nat.zero_mul, Nat.add_zero]

/-! ## The command (spec/43_poly1305.md R206) -/

theorem effectOf_p13Final_buf (s : State) (xa : Reg) :
    (effectOf (.p13Final xa) s).buf = s.buf.putAll (s.xNat xa) s.p13.mac.finish.tag := by
  simp only [effectOf, p13FinalEffect, memWrite_buf]

theorem effectOf_p13Final_phase (s : State) (xa : Reg) : (effectOf (.p13Final xa) s).p13.phase = .done := by
  simp only [effectOf, p13FinalEffect, memWrite_p13]

/-- Settles O38: the one write of the effect is the tag, of a session with bytes left over or with none. -/
theorem p13FinalWritesTheTag : Obligations.P13FinalWritesTheTag := by
  intro s xa hphase hinv hspan
  have ha : Accepts s (.p13Final xa) := by simp [Accepts, checksOf, p13FinalChecks, needPhase, needSpan, hphase, hspan]
  have htag := polyFinish_tag s.p13.mac hinv
  obtain ⟨he, hw⟩ := exec_wroteOnlyBuf ha nofun nofun rfl (effectOf_p13Final_buf s xa)
  refine ⟨_, he, ?_, effectOf_p13Final_phase s xa, rfl, rfl, rfl, rfl, rfl⟩
  by_cases hfill : s.p13.mac.fill = 0
  · rw [polyFlush_of_empty hfill] at htag
    rw [if_pos hfill, ← htag]
    exact hw
  · rw [polyFlush_acc_mod hinv hfill] at htag
    rw [if_neg hfill, ← htag]
    exact hw

/-! ## The tag of a whole message (spec/43_poly1305.md R203, R205, R206) -/

/-- FINAL accumulates what is left of the input: all its blocks are then absorbed, the short one too. -/
theorem PolyAbsorbed.flush_acc {r : Nat} {input : Bytes} {p : PolyMac} (a : PolyAbsorbed r input p) :
    p.flush.acc % polyP = polyAccumulate r (polyBlocks (input.length + 1) input) % polyP := by
  have hfuel : input.length / 16 < input.length + 1 := Nat.lt_succ_of_le (Nat.div_le_self ..)
  have hfill := a.fill
  by_cases h : p.fill = 0
  · rw [polyFlush_of_empty h, ← a.acc_of_whole (by omega) hfuel.le, Nat.mod_mod]
  · have hle := wholeLength_le input
    have hrest : (input.drop (wholeLength input)).length = p.fill := by rw [List.length_drop, wholeLength]; omega
    have hblocks : polyBlocks (input.length + 1) input
        = polyBlocks (input.length + 1) (input.take (wholeLength input)) ++ [input.drop (wholeLength input)] := by
      conv_lhs => arg 2; rw [← List.take_append_drop (wholeLength input) input]
      exact polyBlocks_append_block (List.length_take_of_le hle) (List.ne_nil_of_length_pos (by omega)) (by omega) hfuel
    rw [polyFlush_acc_mod a.inv h, a.waiting, a.multiplier, hblocks, polyAccumulate_append_block, ← a.acc _ hfuel.le,
      Nat.mod_mod, Nat.mul_mod, Nat.mul_mod (_ + _) r, Nat.mod_add_mod]

/-- Absorbing chunks in turn is absorbing the message they make up (R205). -/
theorem foldl_polyAbsorb (p : PolyMac) (chunks : List Bytes) : chunks.foldl PolyMac.absorb p = p.absorb chunks.flatten :=
  List.foldl_flatten.symm

/-- Settles O39: what the session has absorbed fixes what its flush accumulates, and the key fixes the mask. -/
theorem tagOfAnyChunkingIsTheMathematicalTag : Obligations.TagOfAnyChunkingIsTheMathematicalTag := by
  intro old key chunks _
  have habs : PolyAbsorbed (polyKeyR key) chunks.flatten ((old.init key).absorb chunks.flatten) :=
    (polyAbsorbed_init old key).absorb _
  rw [foldl_polyAbsorb, polyFinish_tag _ habs.inv, habs.flush_acc, polyAbsorb_sValue, polyInit_sValue, polyTag]

end Sys2Proof.Machine
end

section
/-! AEAD: the tag of a session as one Poly1305 over the whole tag input (spec/44_aead.md R221, R222). -/

namespace Sys2Proof.Machine

/-- `to_le(v, n)` takes of `v` no more than its residue mod 256^n. -/
theorem toLe_mod (v n : Nat) : toLe (v % 256 ^ n) n = toLe v n := by
  have h := toLe_le (toLe v n)
  rwa [le_toLe, length_toLe] at h

/-- FINAL gives the tag of the whole input of a session that holds the key's two halves. -/
theorem PolyAbsorbed.finish_tag {key input : Bytes} {p : PolyMac} (a : PolyAbsorbed (polyKeyR key) input p)
    (hmask : p.sValue = polyKeyS key) : p.finish.tag = polyTag key input := by
  rw [polyFinish_tag p a.inv, a.flush_acc, hmask, polyTag]

/-- The mask that AEAD.INIT gives the controller's own MAC session. -/
theorem aeadInit_sValue (a : Aead) (key nonce aad : Bytes) :
    (a.init key nonce aad).p.sValue = polyKeyS (oneTimeKey (chacha20Words key nonce)) :=
  (polyAbsorb_sValue ..).trans (polyInit_sValue ..)

/-- The length that the controller keeps in 64 bits serialises as the length itself. -/
theorem toLe_aadlen (a : Aead) (key nonce aad : Bytes) :
    toLe (a.init key nonce aad).aadlen.toNat 8 = toLe aad.length 8 := by
  rw [Aead.init, BitVec.toNat_ofNat]
  exact toLe_mod aad.length 8

/-- The tag of a session that AEAD.INIT builds. -/
theorem aeadInit_tag (old : Aead) (key nonce aad ct : Bytes) :
    (old.init key nonce aad).tag ct = polyTag (oneTimeKey (chacha20Words key nonce))
      (aad ++ pad16 aad.length ++ (ct ++ pad16 ct.length ++ toLe aad.length 8 ++ toLe ct.length 8)) := by
  rw [Aead.tag, Aead.finishMac, toLe_aadlen]
  exact ((aeadInit_absorbed old key nonce aad).absorb _).finish_tag ((polyAbsorb_sValue ..).trans (aeadInit_sValue ..))

/-- Settles O44: the session has absorbed the padded associated data, and Tag absorbs the rest of the tag input. -/
theorem aeadTagIsPoly1305OfTheTagInput : Obligations.AeadTagIsPoly1305OfTheTagInput := by
  intro old key nonce aad ct
  rw [aeadInit_tag, oneTimeKey_eq_take]
  simp only [List.append_assoc]

end Sys2Proof.Machine
end

section
/-! AEAD.ENC and AEAD.DEC: their checks, what they write, and the round trip (spec/44_aead.md R222 to R226). -/

namespace Sys2Proof.Machine

/-! ## The checks (spec/44_aead.md R223, R225) -/

/-- A byte of the second of two regions that share none lies outside the first. -/
theorem outside_of_overlap_eq_false {a1 n1 a2 n2 b : Nat} (h : overlap a1 n1 a2 n2 = false) (hlo : a2 ≤ b)
    (hhi : b < a2 + n2) : b < a1 ∨ a1 + n1 ≤ b := by
  by_contra hin
  exact Bool.eq_false_iff.mp h ((overlap_iff ..).mpr ⟨b, by omega, hlo, hhi⟩)

theorem aeadDistinct_iff (d a n t : Nat) : aeadDistinct d a n t = true ↔
    disjointOrSame d a n = true ∧ overlap t 16 a n = false ∧ overlap t 16 d n = false := by
  simp [aeadDistinct, and_assoc]

/-- A payload inside BUF is too short for the block counter to pass 2^64 − 1 (R223, last check). -/
theorem payloadCounter_fits {s : State} {a n : Nat} (hcfg : s.cfg.wf) (hspan : s.spanOk a n = true) :
    counterFits s.aead.payloadCounter n = true := by
  have hw := (s.aead.w.get 13).isLt
  have hn := (spanOk_iff ..).mp hspan
  have hbuf := hcfg.2
  exact (counterFits_iff ..).mpr (by omega)

section
variable {s : State} {xa : Reg} {sb sc : SpanReg} (hphase : s.aead.phase = .ready) (htagLen : s.spanLen sc = 16)
  (hsrc : s.spanOk (s.spanAddr sb) (s.spanLen sb) = true) (hdst : s.spanOk (s.xNat xa) (s.spanLen sb) = true)
  (htag : s.spanOk (s.spanAddr sc) 16 = true)
  (hplace : disjointOrSame (s.xNat xa) (s.spanAddr sb) (s.spanLen sb) = true)
  (htagSrc : overlap (s.spanAddr sc) 16 (s.spanAddr sb) (s.spanLen sb) = false)
  (htagDst : overlap (s.spanAddr sc) 16 (s.xNat xa) (s.spanLen sb) = false) (hcfg : s.cfg.wf)
include hphase htagLen hsrc hdst htag hplace htagSrc htagDst hcfg

/-- The checks that AEAD.ENC and AEAD.DEC share. -/
theorem aeadPayloadChecks_pass : ∀ c ∈ aeadPayloadChecks xa sb sc s, c.1 = true := by
  have hdistinct := (aeadDistinct_iff ..).mpr ⟨hplace, htagSrc, htagDst⟩
  have hfits := payloadCounter_fits hcfg hsrc
  simp [aeadPayloadChecks, needPhase, needLength, needSpan, needDistinct, needNoOverflow, hphase, htagLen, hsrc, hdst, htag,
    hdistinct, hfits]

theorem accepts_aeadEnc : Accepts s (.aeadEnc xa sb sc) :=
  aeadPayloadChecks_pass hphase htagLen hsrc hdst htag hplace htagSrc htagDst hcfg

theorem accepts_aeadDec : Accepts s (.aeadDec xa sb sc) :=
  aeadPayloadChecks_pass hphase htagLen hsrc hdst htag hplace htagSrc htagDst hcfg
end

/-- An accepted AEAD.ENC has its tag region apart from its destination. -/
theorem tag_apart_of_accepts {s : State} {xa : Reg} {sb sc : SpanReg} (ha : Accepts s (.aeadEnc xa sb sc)) :
    overlap (s.spanAddr sc) 16 (s.xNat xa) (s.spanLen sb) = false := by
  have hmem : needDistinct (aeadDistinct (s.xNat xa) (s.spanAddr sb) (s.spanLen sb) (s.spanAddr sc))
      ∈ checksOf s (.aeadEnc xa sb sc) := by simp [checksOf, aeadPayloadChecks]
  obtain ⟨-, -, h⟩ := (aeadDistinct_iff ..).mp (ha _ hmem)
  exact h

/-! ## The payload (spec/44_aead.md R223, R224) -/

/-- The payload of AEAD.ENC and AEAD.DEC through the keystream, the source taken before the command. -/
def payloadXor (s : State) (sb : SpanReg) : Bytes := chachaXor s.aead.w s.aead.payloadCounter (s.readSpan sb)

@[simp] theorem length_payloadXor (s : State) (sb : SpanReg) : (payloadXor s sb).length = s.spanLen sb := by
  rw [payloadXor, length_chachaXor, length_readSpan]

/-- Byte `k` of the payload is in block `k / 64`, counted from caller value 1. -/
theorem getD_payloadXor (s : State) (sb : SpanReg) {k : Nat} (hk : k < s.spanLen sb) :
    (payloadXor s sb).getD k 0 = s.readByte (s.spanAddr sb + k)
      ^^^ (chachaBlock s.aead.w (1 + (s.aead.w.get 13).toNat * 2 ^ 32 + k / 64)).getD (k % 64) 0 := by
  rw [payloadXor, getD_chachaXor _ _ (by rwa [length_readSpan]), State.readSpan, getD_memRead, if_pos hk, Aead.payloadCounter,
    firstCounter]

/-- A region that holds the payload holds it byte for byte. -/
theorem readByte_of_memRead_payloadXor {s t : State} {sb : SpanReg} {a k : Nat}
    (h : t.memRead a (s.spanLen sb) = payloadXor s sb) (hk : k < s.spanLen sb) :
    t.readByte (a + k) = s.readByte (s.spanAddr sb + k)
      ^^^ (chachaBlock s.aead.w (1 + (s.aead.w.get 13).toNat * 2 ^ 32 + k / 64)).getD (k % 64) 0 := by
  rw [← getD_payloadXor s sb hk, ← h, getD_memRead, if_pos hk]

/-! ## The effects -/

@[simp] theorem length_aeadTag (a : Aead) (ct : Bytes) : (a.tag ct).length = 16 := length_toLe ..

/-- A byte of BUF after an effect, by what the effect has written. -/
theorem effectOf_readByte_of_buf {i : Instr} {s t : State} (hbuf : (effectOf i s).buf = t.buf)
    (hresets : t.resets = s.resets) (b : Nat) : (effectOf i s).readByte b = t.readByte b := by
  rw [State.readByte, hbuf, effectOf_resets, ← hresets, ← State.readByte]

/-- AEAD.ENC writes the ciphertext, then the tag. -/
theorem effectOf_aeadEnc_readByte (s : State) (xa : Reg) (sb sc : SpanReg) (b : Nat) :
    (effectOf (.aeadEnc xa sb sc) s).readByte b
      = ((s.memWrite (s.xNat xa) (payloadXor s sb)).memWrite (s.spanAddr sc) (s.aead.tag (payloadXor s sb))).readByte b := by
  have hbuf : (effectOf (.aeadEnc xa sb sc) s).buf = ((s.memWrite (s.xNat xa) (payloadXor s sb)).memWrite (s.spanAddr sc)
      (s.aead.tag (payloadXor s sb))).buf := by simp only [effectOf, aeadEncEffect, memWrite_buf, payloadXor]
  exact effectOf_readByte_of_buf hbuf (by simp only [memWrite_resets]) b

/-- AEAD.DEC writes the plaintext. -/
theorem effectOf_aeadDec_readByte (s : State) (xa : Reg) (sb sc : SpanReg) (b : Nat) :
    (effectOf (.aeadDec xa sb sc) s).readByte b = (s.memWrite (s.xNat xa) (payloadXor s sb)).readByte b := by
  have hbuf : (effectOf (.aeadDec xa sb sc) s).buf = (s.memWrite (s.xNat xa) (payloadXor s sb)).buf := by
    simp only [effectOf, aeadDecEffect, memWrite_buf, payloadXor]
  exact effectOf_readByte_of_buf hbuf (memWrite_resets ..) b

/-- A region whose every byte is one that writing `v` there leaves reads as `v`. -/
theorem memRead_of_written {s t : State} {a n : Nat} {v : Bytes} (hlen : v.length = n)
    (h : ∀ k < n, t.readByte (a + k) = (s.memWrite a v).readByte (a + k)) : t.memRead a n = v := by
  rw [memRead_congr _ _ _ _ h, ← hlen, memRead_memWrite_self]

/-- The tag is read back from its region. -/
theorem effectOf_aeadEnc_memRead_tag (s : State) (xa : Reg) (sb sc : SpanReg) :
    (effectOf (.aeadEnc xa sb sc) s).memRead (s.spanAddr sc) 16 = s.aead.tag (payloadXor s sb) :=
  memRead_of_written (length_aeadTag ..) fun _ _ => effectOf_aeadEnc_readByte ..

/-- The ciphertext is read back from the destination: the tag, written later, goes elsewhere. -/
theorem effectOf_aeadEnc_memRead_dest {s : State} {xa : Reg} {sb sc : SpanReg}
    (htagDst : overlap (s.spanAddr sc) 16 (s.xNat xa) (s.spanLen sb) = false) :
    (effectOf (.aeadEnc xa sb sc) s).memRead (s.xNat xa) (s.spanLen sb) = payloadXor s sb := by
  refine memRead_of_written (s := s) (length_payloadXor ..) fun k hk => ?_
  rw [effectOf_aeadEnc_readByte, memWrite_keepsBufOutside]
  rw [length_aeadTag]
  exact outside_of_overlap_eq_false htagDst (Nat.le_add_right ..) (Nat.add_lt_add_left hk _)

/-- The plaintext is read back from the destination. -/
theorem effectOf_aeadDec_memRead_dest (s : State) (xa : Reg) (sb sc : SpanReg) :
    (effectOf (.aeadDec xa sb sc) s).memRead (s.xNat xa) (s.spanLen sb) = payloadXor s sb :=
  memRead_of_written (length_payloadXor ..) fun _ _ => effectOf_aeadDec_readByte ..

theorem effectOf_aeadEnc_phase (s : State) (xa : Reg) (sb sc : SpanReg) :
    (effectOf (.aeadEnc xa sb sc) s).retire.aead.phase = .done := by
  simp only [retire_aead, effectOf, aeadEncEffect, memWrite_aead, Aead.complete]

theorem effectOf_aeadDec_phase (s : State) (xa : Reg) (sb sc : SpanReg) :
    (effectOf (.aeadDec xa sb sc) s).retire.aead.phase = .done := by
  simp only [retire_aead, effectOf, aeadDecEffect, memWrite_aead, Aead.complete]

/-- What a command of the AEAD controller with no destination register leaves alone when it completes. -/
theorem exec_aead_frame {i : Instr} {s : State} (he : exec i s = .next (effectOf i s).retire)
    (hengine : writesEngine i = some .aead) (hdest : destRegister i = none) (hclr : i ≠ .clrerr) :
    (effectOf i s).retire.b2 = s.b2 ∧ (effectOf i s).retire.cc = s.cc ∧ (effectOf i s).retire.p13 = s.p13
      ∧ (effectOf i s).retire.kdf = s.kdf ∧ (effectOf i s).retire.pcg = s.pcg ∧ KeepsRegs s (effectOf i s).retire
      ∧ KeepsErrors s (effectOf i s).retire ∧ KeepsEnv s (effectOf i s).retire ∧ CompletedOk s (effectOf i s).retire := by
  obtain ⟨hcnt, henv⟩ := exec_counts_and_keepsEnv he
  obtain ⟨hb2, hcc, hp13, -, hkdf, hpcg, -⟩ := enginesChangeOnlyByTheirOwnCommands _ _ _ he
  rw [hengine] at hb2 hcc hp13 hkdf hpcg
  exact ⟨hb2 nofun, hcc nofun, hp13 nofun, hkdf nofun, hpcg nofun,
    fun r => onlyTheDestinationRegisterChanges _ _ _ he r (by rw [hdest]; nofun),
    ⟨effectOf_errflags i s hclr, effectOf_lasterr i s hclr, effectOf_lastcmd i s hclr⟩, henv, hcnt, rfl⟩

/-! ## The tag comparison (spec/44_aead.md R224, R226) -/

theorem aeadVerified_iff (s : State) (sb sc : SpanReg) :
    aeadVerified sb sc s = true ↔ s.memRead (s.spanAddr sc) 16 = s.aead.tag (s.readSpan sb) := by
  rw [aeadVerified, ctEqual_iff, eq_comm]

theorem exec_aeadDec_verified {s : State} {xa : Reg} {sb sc : SpanReg} (ha : Accepts s (.aeadDec xa sb sc))
    (htag : s.memRead (s.spanAddr sc) 16 = s.aead.tag (s.readSpan sb)) :
    exec (.aeadDec xa sb sc) s = .next (effectOf (.aeadDec xa sb sc) s).retire := by
  refine exec_ok ha (fun xa' sb' sc' hi => ?_) nofun
  cases hi
  exact (aeadVerified_iff ..).mpr htag

/-! ## The statements -/

/-- Settles O41: the checks pass, each region is read back, and the rest is the frame of every command. -/
theorem aeadEncSeals : Obligations.AeadEncSeals := by
  intro s xa sb sc hphase htagLen hsrc hdst htag hplace htagSrc htagDst hcfg
  have ha := accepts_aeadEnc hphase htagLen hsrc hdst htag hplace htagSrc htagDst hcfg
  have he := exec_ok ha nofun nofun
  have hct := (memRead_retire ..).trans (effectOf_aeadEnc_memRead_dest (sc := sc) htagDst)
  refine ⟨_, he, fun k hk => readByte_of_memRead_payloadXor hct hk, ?_, fun a houtDst houtTag => ?_,
    effectOf_aeadEnc_phase .., exec_aead_frame he rfl rfl nofun⟩
  · rw [hct, memRead_retire, effectOf_aeadEnc_memRead_tag]
  · exact bufChangesOnlyInWrittenRegions _ _ _ he a
      (List.forall_mem_cons.mpr ⟨houtDst, List.forall_mem_singleton.mpr houtTag⟩)

/-- Settles O42: the tag verifies, so the effect is the one write of the plaintext. -/
theorem aeadDecOpensAVerifiedMessage : Obligations.AeadDecOpensAVerifiedMessage := by
  intro s xa sb sc hphase htagLen hsrc hdst htag hplace htagSrc htagDst hcfg hreceived
  have ha := accepts_aeadDec hphase htagLen hsrc hdst htag hplace htagSrc htagDst hcfg
  have he := exec_aeadDec_verified ha hreceived
  have hpt := (memRead_retire ..).trans (effectOf_aeadDec_memRead_dest s xa sb sc)
  refine ⟨_, he, fun k hk => readByte_of_memRead_payloadXor hpt hk,
    fun a hout => ?_, effectOf_aeadDec_phase .., exec_aead_frame he rfl rfl nofun⟩
  exact bufChangesOnlyInWrittenRegions _ _ _ he a (List.forall_mem_singleton.mpr hout)

/-- Settles O43: the command raises in a state whose session is DONE, and raising changes nothing but the record. -/
theorem aeadDecReleasesNothingOnMismatch : Obligations.AeadDecReleasesNothingOnMismatch := by
  intro s xa sb sc hphase htagLen hsrc hdst htag hplace htagSrc htagDst hcfg hreceived
  have ha := accepts_aeadDec hphase htagLen hsrc hdst htag hplace htagSrc htagDst hcfg
  have he := exec_aeadDec_mismatch ha (Bool.eq_false_iff.mpr fun h => hreceived ((aeadVerified_iff ..).mp h))
  obtain ⟨hflags, -, hword, hcnt, hstatus, hregs, hbuf, ⟨hb2, hcc, hp13, haead, hkdf, hpcg⟩, henv⟩ :=
    raise_raisedOnly (aeadConsumed s) (encode (.aeadDec xa sb sc)) .authentication
  exact ⟨_, he, hstatus, hflags, rfl, hword, hcnt, haead, hregs, hbuf, hb2, hcc, hp13, hkdf, hpcg, henv⟩

/-- A command that reports OK has passed its checks. -/
theorem accepts_of_status_ok {i : Instr} {s t : State} (h : exec i s = .next t) (hok : t.status = some .ok) :
    Accepts s i := by
  obtain ⟨e, -, rfl⟩ | ⟨ha, -, -, -⟩ | ⟨xa, sb, sc, -, -, -, rfl⟩ := exec_cases h
  · exact absurd (Option.some.inj hok) (error_status_ne_ok e)
  · exact ha
  · exact absurd (Option.some.inj hok) (error_status_ne_ok _)

/-- Settles O45: the received bytes are the ciphertext and its tag, both sessions give one tag and one keystream, and `xor`
by one byte undoes itself. -/
theorem aeadOpensWhatItSealed : Obligations.AeadOpensWhatItSealed := by
  intro s t v old old' key nonce aad xa xa' sb sc sb' sc' hs henc hok hv haddr hlen htagAddr hct htag haccepts
  have hw : v.aead.w = s.aead.w := by rw [hv, hs]; rfl
  have hapart := tag_apart_of_accepts (accepts_of_status_ok henc hok)
  obtain rfl := eq_retire_of_status_ok henc hok
  have hsource : v.readSpan sb' = payloadXor s sb := by
    rw [State.readSpan, haddr, hlen, memRead_congr _ _ _ _ hct, memRead_retire, effectOf_aeadEnc_memRead_dest hapart]
  have hreceived : v.memRead (v.spanAddr sc') 16 = v.aead.tag (v.readSpan sb') := by
    rw [htagAddr, memRead_congr _ _ _ _ htag, memRead_retire, effectOf_aeadEnc_memRead_tag, hsource, hs, hv, aeadInit_tag,
      aeadInit_tag]
  refine ⟨_, exec_aeadDec_verified haccepts hreceived, rfl, fun k hk => ?_⟩
  have hsealed := readByte_of_memRead_payloadXor (effectOf_aeadEnc_memRead_dest hapart) hk
  rw [readByte_retire, readByte_of_memRead_payloadXor (effectOf_aeadDec_memRead_dest ..) (hlen ▸ hk), haddr, hct k hk,
    readByte_retire, hsealed, hw, BitVec.xor_assoc, BitVec.xor_self, BitVec.xor_zero]

end Sys2Proof.Machine
end

section
/-! Key derivation: the keyed hash as the digest of a whole message, the blocks T_i of PBKDF2 and HKDF, and the key cut from
them (spec/45_kdf.md R240, R242 to R244). -/

namespace Sys2Proof.Machine

/-! ## The keyed hash (spec/45_kdf.md R240) -/

/-- H is the digest of the whole message under the held configuration: hashing is INIT, one UPDATE, FINAL. -/
theorem kdfHash_eq_reference {k : Kdf} (hk : k.Inv) (hout : 1 ≤ k.outlen) (m : Bytes) :
    k.hash m = blake2Reference k.var (k.key.toList.take k.keylen) k.outlen m := by
  have hkey : (k.key.toList.take k.keylen).length ≤ k.var.maxLen := (List.length_take_le ..).trans hk.keylen
  have hlengths := (hashLengthsOk_iff ..).mpr ⟨hkey, hout, hk.outlen⟩
  have h := hashOfAnyChunkingIsTheReference _ Blake2.zero _ _ [m] hlengths
  rwa [foldl_absorb, List.flatten_singleton, ← blake2Hash, ← Kdf.hash] at h

theorem length_kdfHash {k : Kdf} (hk : k.Inv) (m : Bytes) : (k.hash m).length = k.outlen :=
  length_blake2Hash _ _ _ _ hk.outlen

/-! ## A key cut from blocks (spec/45_kdf.md R242) -/

theorem le_ceilDiv_mul (a : Nat) {b : Nat} (hb : 1 ≤ b) : a ≤ ceilDiv a b * b := by
  have h := Nat.lt_div_mul_add (a := a + b - 1) hb
  rw [ceilDiv]; omega

theorem ceilDiv_le_ceilDiv {a a' : Nat} (b : Nat) (h : a ≤ a') : ceilDiv a b ≤ ceilDiv a' b :=
  Nat.div_le_div_right (by omega)

section
variable {f : Nat → Bytes} {b : Nat} (hf : ∀ j, (f j).length = b)
include hf

theorem length_flatMap_range_of_blocks (n : Nat) : ((List.range n).flatMap f).length = n * b := by
  simp [List.length_flatMap, hf]

/-- The blocks that cover a length hold that many bytes. -/
theorem length_take_blocks (len : Nat) (hb : 1 ≤ b) :
    (((List.range (ceilDiv len b)).flatMap f).take len).length = len := by
  rw [List.length_take_of_le]
  rw [length_flatMap_range_of_blocks hf]
  exact le_ceilDiv_mul len hb

/-- The blocks that cover a longer length begin with those that cover a shorter one. -/
theorem take_blocks_of_le {l1 l2 : Nat} (hb : 1 ≤ b) (hl : l1 ≤ l2) :
    ((List.range (ceilDiv l1 b)).flatMap f).take l1 = (((List.range (ceilDiv l2 b)).flatMap f).take l2).take l1 := by
  obtain ⟨d, hd⟩ := Nat.exists_eq_add_of_le (ceilDiv_le_ceilDiv b hl)
  have hcover : l1 ≤ ((List.range (ceilDiv l1 b)).flatMap f).length := by
    rw [length_flatMap_range_of_blocks hf]
    exact le_ceilDiv_mul l1 hb
  rw [List.take_take, Nat.min_eq_left hl, hd, List.range_add, List.flatMap_append, List.take_append_of_le_length hcover]
end

/-! ## The blocks of PBKDF2 (spec/45_kdf.md R243) -/

/-- The loop's running T is what it started from, XORed with each iterate of the hash in turn. -/
theorem pbkdf2Iterate_eq_foldl (k : Kdf) (n : Nat) (u t : Bytes) :
    pbkdf2Iterate k n u t = ((List.range n).map fun j => k.hash^[j + 1] u).foldl xorBytes t := by
  induction n generalizing u t with
  | zero => rfl
  | succ n ih =>
    rw [pbkdf2Iterate, ih, List.range_succ_eq_map, List.map_cons, List.foldl_cons, List.map_map]
    rfl

theorem pbkdf2Block_eq_reference (k : Kdf) (salt : Bytes) (c i : Nat) :
    pbkdf2Block k salt c i = pbkdf2Reference k salt c i :=
  pbkdf2Iterate_eq_foldl ..

theorem length_pbkdf2Iterate {k : Kdf} (hk : k.Inv) (n : Nat) (u : Bytes) {t : Bytes} (ht : t.length = k.outlen) :
    (pbkdf2Iterate k n u t).length = k.outlen := by
  induction n generalizing u t with
  | zero => exact ht
  | succ n ih => exact ih _ (by rw [length_xorBytes, ht, length_kdfHash hk, Nat.min_self])

theorem length_pbkdf2Block {k : Kdf} (hk : k.Inv) (salt : Bytes) (c i : Nat) :
    (pbkdf2Block k salt c i).length = k.outlen :=
  length_pbkdf2Iterate hk _ _ (length_kdfHash hk _)

theorem length_pbkdf2Output {k : Kdf} (hk : k.Inv) (hout : 1 ≤ k.outlen) (salt : Bytes) (c len : Nat) :
    (pbkdf2Output k salt c len).length = len :=
  length_take_blocks (fun j => length_pbkdf2Block hk salt c (j + 1)) len hout

theorem pbkdf2Output_eq_reference (k : Kdf) (salt : Bytes) (c len : Nat) :
    pbkdf2Output k salt c len
      = ((List.range (ceilDiv len k.outlen)).flatMap fun j => pbkdf2Reference k salt c (j + 1)).take len := by
  simp only [pbkdf2Output, pbkdf2Block_eq_reference]

/-! ## The blocks of HKDF (spec/45_kdf.md R244) -/

theorem hkdfReference_zero (k : Kdf) (data : Bytes) : hkdfReference k data 0 = [] := rfl

theorem hkdfReference_succ (k : Kdf) (data : Bytes) (i : Nat) :
    hkdfReference k data (i + 1) = k.hash (hkdfReference k data i ++ data ++ [BitVec.ofNat 8 (i + 1)]) := rfl

/-- After T_i the engine appends T_(i+1), T_(i+2), ... -/
theorem hkdfBlocks_eq_reference (k : Kdf) (data : Bytes) (n i : Nat) :
    hkdfBlocks k data n (i + 1) (hkdfReference k data i)
      = (List.range n).flatMap fun j => hkdfReference k data (i + j + 1) := by
  induction n generalizing i with
  | zero => rfl
  | succ n ih =>
    rw [hkdfBlocks, ← hkdfReference_succ, ih, List.range_succ_eq_map, List.flatMap_cons, List.flatMap_map]
    simp only [Nat.add_right_comm i 1, Nat.add_succ, Nat.add_zero]

theorem length_hkdfReference_succ {k : Kdf} (hk : k.Inv) (data : Bytes) (i : Nat) :
    (hkdfReference k data (i + 1)).length = k.outlen :=
  length_kdfHash hk _

theorem hkdfOutput_eq_reference (k : Kdf) (data : Bytes) (len : Nat) :
    hkdfOutput k data len = ((List.range (ceilDiv len k.outlen)).flatMap fun j => hkdfReference k data (j + 1)).take len := by
  rw [hkdfOutput, ← hkdfReference_zero k data, hkdfBlocks_eq_reference]
  simp only [Nat.zero_add]

theorem length_hkdfOutput {k : Kdf} (hk : k.Inv) (hout : 1 ≤ k.outlen) (data : Bytes) (len : Nat) :
    (hkdfOutput k data len).length = len := by
  rw [hkdfOutput_eq_reference]
  exact length_take_blocks (length_hkdfReference_succ hk data) len hout

/-! ## The commands -/

/-- A command that writes no engine keeps every session, however it ends. -/
theorem exec_keepsSessions {i : Instr} {s t : State} (h : exec i s = .next t) (hengine : writesEngine i = none) :
    KeepsSessions s t := by
  obtain ⟨hb2, hcc, hp13, haead, hkdf, hpcg, -⟩ := enginesChangeOnlyByTheirOwnCommands _ _ _ h
  rw [hengine] at hb2 hcc hp13 haead hkdf hpcg
  exact ⟨hb2 nofun, hcc nofun, hp13 nofun, haead nofun, hkdf nofun, hpcg nofun⟩

theorem effectOf_pbkdf2_buf (s : State) (sa sb : SpanReg) (xc : Reg) :
    (effectOf (.pbkdf2 sa sb xc) s).buf
      = s.buf.putAll (s.spanAddr sa) (pbkdf2Output s.kdf (s.readSpan sb) (s.xNat xc) (s.spanLen sa)) := by
  simp only [effectOf, pbkdf2Effect, memWrite_buf]

theorem effectOf_hkdf_buf (s : State) (sa sb : SpanReg) :
    (effectOf (.hkdf sa sb) s).buf = s.buf.putAll (s.spanAddr sa) (hkdfOutput s.kdf (s.readSpan sb) (s.spanLen sa)) := by
  simp only [effectOf, hkdfEffect, memWrite_buf]

/-- Settles O47: the one write of the effect is the key, its blocks are the reference's, and the command has no engine. -/
theorem pbkdf2WritesTheDerivedKey : Obligations.Pbkdf2WritesTheDerivedKey := by
  intro s sa sb xc hphase hinv hc hlen hblocks hdst hsrc hapart
  have ha : Accepts s (.pbkdf2 sa sb xc) := by
    simpa [Accepts, checksOf, pbkdf2Checks, needPhase, needCount, needSpan, needDistinct, hphase, hc, hlen, hdst, hsrc, hapart]
      using hblocks
  have hout := hinv.readyLen hphase
  obtain ⟨he, hw⟩ := exec_wroteOnlyBuf ha nofun nofun rfl (effectOf_pbkdf2_buf s sa sb xc)
  exact ⟨_, _, he, length_pbkdf2Output hinv hout .., hw, pbkdf2Output_eq_reference .., exec_keepsSessions he rfl,
    kdfHash_eq_reference hinv hout⟩

/-- Settles O48: the one write of the effect is the key, its blocks are the reference's, and the command has no engine. -/
theorem hkdfWritesTheDerivedKey : Obligations.HkdfWritesTheDerivedKey := by
  intro s sa sb hphase hinv hlen hmax hdst hsrc hapart
  have ha : Accepts s (.hkdf sa sb) := by
    simp [Accepts, checksOf, hkdfChecks, needPhase, needCount, needSpan, needDistinct, hphase, hlen, hmax, hdst, hsrc, hapart]
  have hout := hinv.readyLen hphase
  obtain ⟨he, hw⟩ := exec_wroteOnlyBuf ha nofun nofun rfl (effectOf_hkdf_buf s sa sb)
  exact ⟨_, _, he, length_hkdfOutput hinv hout .., hw, hkdfOutput_eq_reference .., exec_keepsSessions he rfl,
    kdfHash_eq_reference hinv hout⟩

/-- Settles O49: no block depends on the length asked for, so the longer key begins with the shorter one's blocks. -/
theorem hkdfShorterOutputIsAPrefix : Obligations.HkdfShorterOutputIsAPrefix := by
  intro k data l1 l2 hk hout hl
  rw [hkdfOutput_eq_reference, hkdfOutput_eq_reference]
  exact take_blocks_of_le (length_hkdfReference_succ hk data) hout hl

end Sys2Proof.Machine
end

section
/-! The generator: rotation as the library's, what a draw leaves alone, the first accepted draw of a range, and the jump as the
iterated step (spec/47_pcg32.md R280 to R287). -/

namespace Sys2Proof.Machine

/-! ## Output (spec/47_pcg32.md R280, R282) -/

/-- R9's rotation is the library's; a count of 0 takes the other operand of `or`. -/
theorem rotr_eq_rotateRight {w n : Nat} (v : BitVec w) (h : n < w) : rotr v n = v.rotateRight n := by
  rw [BitVec.rotateRight_def, Nat.mod_eq_of_lt h, BitVec.or_comm, rotr, rotl]
  obtain rfl | hn := Nat.eq_zero_or_pos n
  · simp [BitVec.ushiftRight_eq_zero]
  · rw [Nat.mod_eq_of_lt (by omega), Nat.sub_sub_self h.le]

/-- The rotation count is the state's top five bits. -/
theorem pcgOutput_eq_rotateRight (old : Word) :
    pcgOutput old = (((old >>> 18 ^^^ old) >>> 27).setWidth 32 : Word32).rotateRight (old >>> 59).toNat := by
  refine rotr_eq_rotateRight _ ?_
  rw [BitVec.toNat_ushiftRight, Nat.shiftRight_eq_div_pow]
  omega

/-- `Step()` with the multiplier in decimal (R282). -/
theorem step_lcg_eq_decimal (g : Pcg) : g.step.lcg = g.lcg * 6364136223846793005 + g.inc := by
  rw [step_lcg, lcgStep, show pcgMult = 6364136223846793005 by decide]

/-! ## Draws into a register (spec/47_pcg32.md R283, R285) -/

/-- What PCG.NEXT and PCG.RANGE leave alone: they set the generator and one register. -/
theorem pcg_setX_retire_frame (s : State) (g : Pcg) (xa : Reg) (v : Word) :
    let t := ({ s with pcg := g }.setX xa v).retire
    KeepsRegsBut xa s t ∧ KeepsErrors s t ∧ KeepsBuf s t ∧ KeepsEnv s t ∧ CompletedOk s t ∧ t.b2 = s.b2 ∧ t.cc = s.cc
      ∧ t.p13 = s.p13 ∧ t.aead = s.aead ∧ t.kdf = s.kdf :=
  ⟨fun r hr => getX_setX_ne { s with pcg := g } xa r v hr, ⟨rfl, rfl, rfl⟩, fun _ => rfl, ⟨rfl, rfl, rfl⟩, ⟨rfl, rfl⟩, rfl,
    rfl, rfl, rfl, rfl⟩

theorem exec_pcgNext (s : State) (xa : Reg) : exec (.pcgNext xa) s = .next (pcgNextEffect xa s).retire :=
  exec_ok (i := .pcgNext xa) nofun nofun nofun

theorem pcgNextEffect_retire_pcg (s : State) (xa : Reg) : (pcgNextEffect xa s).retire.pcg = s.pcg.step := by
  rw [retire_pcg, pcgNextEffect, setX_pcg, draw_snd]

/-- Settles O50: each word by its encoding, each effect by what it writes. -/
theorem pcgSeedNextAndGets : Obligations.PcgSeedNextAndGets := by
  refine ⟨fun xa xb => ⟨?_, ?_, ?_⟩, fun s xa xb => ⟨?_, ?_, ?_⟩⟩
  · exact encodedAs_of_toNat_encode rfl ((toNat_formatR _ _ _ _ _ (by decide)).trans (by simp))
  · exact encodedAs_of_toNat_encode rfl ((toNat_formatR _ _ _ _ _ (by decide)).trans (by simp))
  · exact encodedAs_of_toNat_encode rfl ((toNat_formatR _ _ _ _ _ (by decide)).trans (by simp))
  · obtain ⟨he, hw⟩ := exec_session (i := .pcgSeed xa xb) (s := s) nofun nofun rfl rfl
    exact ⟨_, he, hw, rfl, rfl, rfl, rfl, rfl, rfl, rfl⟩
  · obtain ⟨hregs, herrors, hbuf, henv, hok, hb2, hcc, hp13, haead, hkdf⟩ :=
      pcg_setX_retire_frame s s.pcg.draw.2 xa (s.pcg.draw.1.setWidth 64)
    refine ⟨_, exec_pcgNext s xa, hregs, herrors, hbuf, henv, hok, hb2, hcc, hp13, haead, hkdf, ?_, ?_, ?_⟩
    · rw [pcgNextEffect_retire_pcg, step_lcg_eq_decimal]
    · rw [pcgNextEffect_retire_pcg, step_inc]
    · rw [← pcgOutput_eq_rotateRight, getX_retire, pcgNextEffect, getX_setX_self, draw_fst]
  · exact exec_wroteOnlyReg (i := .pcgGets xa) nofun nofun nofun rfl

/-! ## The bounded draw (spec/47_pcg32.md R284, R285) -/

/-- The number that an accepted draw gives (R284). -/
def scaledDraw (lo range : Nat) (g : Pcg) : Nat := lo + (pcgOutput g.lcg).toNat * range / 2 ^ 32

/-- A draw is below 2^32, so that scaled by the range it stays below the range. -/
theorem scaledDraw_within_bounds (g : Pcg) {lo hi : Nat} (hle : lo ≤ hi) :
    lo ≤ scaledDraw lo (hi - lo + 1) g ∧ scaledDraw lo (hi - lo + 1) g ≤ hi := by
  have hlt : (pcgOutput g.lcg).toNat * (hi - lo + 1) / 2 ^ 32 < hi - lo + 1 :=
    Nat.div_lt_of_lt_mul (Nat.mul_lt_mul_of_pos_right (BitVec.isLt _) (Nat.succ_pos _))
  rw [scaledDraw]
  omega

section
variable {lo range : Nat} {g : Pcg}

theorem drawAccepted_of_drawOnce_ok {r : Nat × Pcg} (h : drawOnce lo range (2 ^ 32 % range) g = .ok r) :
    drawAccepted range (pcgOutput g.lcg) ∧ r = (scaledDraw lo range g, g.step) := by
  simp only [drawOnce] at h
  split at h
  · next hacc => cases h; exact ⟨.inr hacc, rfl⟩
  · nomatch h

theorem not_drawAccepted_of_drawOnce_error {g' : Pcg} (hpart : range ≠ 2 ^ 32)
    (h : drawOnce lo range (2 ^ 32 % range) g = .error g') : ¬drawAccepted range (pcgOutput g.lcg) := by
  simp only [drawOnce] at h
  split at h
  · nomatch h
  · next hrej => exact not_or.mpr ⟨hpart, hrej⟩
end

/-- Whatever the bounded draw answers is the first draw that its threshold accepts; the full range accepts any draw. -/
theorem bounded_firstAccepted {g : Pcg} {lo hi : Nat} {r : Nat × Pcg} (hhi : hi < 2 ^ 32) (h : g.bounded lo hi = some r) :
    ∃ n, (∀ j < n, ¬drawAccepted (hi - lo + 1) (pcgOutput (Pcg.step^[j] g).lcg))
      ∧ drawAccepted (hi - lo + 1) (pcgOutput (Pcg.step^[n] g).lcg)
      ∧ r = (scaledDraw lo (hi - lo + 1) (Pcg.step^[n] g), Pcg.step^[n + 1] g) := by
  simp only [Pcg.bounded] at h
  split at h
  · next hfull =>
    cases h
    obtain rfl : lo = 0 := by omega
    refine ⟨0, nofun, .inl hfull, ?_⟩
    rw [scaledDraw, hfull, Nat.mul_div_cancel _ (Nat.two_pow_pos 32), Nat.zero_add]
    rfl
  · next hpart =>
    obtain ⟨n, -, hrej, q, hq, hu⟩ | ⟨-, hu⟩ := drawUpTo_spec lo (hi - lo + 1) (2 ^ 32 % (hi - lo + 1)) 64 g
    · rw [hu] at h
      cases h
      obtain ⟨hacc, hr⟩ := drawAccepted_of_drawOnce_ok hq
      refine ⟨n, fun j hj => ?_, hacc, ?_⟩
      · obtain ⟨g', hg'⟩ := hrej j hj
        exact not_drawAccepted_of_drawOnce_error hpart hg'
      · rw [hr, Function.iterate_succ_apply']
    · rw [hu] at h
      nomatch h

theorem exec_pcgRange {s : State} {xa xb xc : Reg} {r : Nat × Pcg}
    (h : s.pcg.bounded (pcgBounds xb xc s).1 (pcgBounds xb xc s).2 = some r) :
    exec (.pcgRange xa xb xc) s = .next (pcgRangeEffect xa r s).retire := by
  simp only [exec, execPcgRange, h]
  exact commit_ok rfl

/-- A result below 2^32 fits the register. -/
theorem pcgRangeEffect_retire_getX (s : State) (xa : Reg) (g : Pcg) {v : Nat} (h : v < 2 ^ 32) :
    ((pcgRangeEffect xa (v, g) s).retire.getX xa).toNat = v := by
  rw [getX_retire, pcgRangeEffect, getX_setXNat_self, BitVec.toNat_ofNat]
  omega

/-- Settles O51: the odd increment makes the redraw loop answer, and `bounded_firstAccepted` says what. -/
theorem pcgRangeReturnsTheFirstAcceptedDraw : Obligations.PcgRangeReturnsTheFirstAcceptedDraw := by
  intro s xa xb xc hodd
  obtain ⟨hle, hhi⟩ := pcgBounds_le xb xc s
  obtain ⟨r, hr⟩ := Option.isSome_iff_exists.mp (bounded_isSome s.pcg _ _ hodd hhi hle)
  obtain ⟨n, hrej, hacc, rfl⟩ := bounded_firstAccepted hhi hr
  obtain ⟨hlo, hup⟩ := scaledDraw_within_bounds (Pcg.step^[n] s.pcg) hle
  have hx := pcgRangeEffect_retire_getX s xa (Pcg.step^[n + 1] s.pcg) (hup.trans_lt hhi)
  exact ⟨_, n, _, _, exec_pcgRange hr, rfl, rfl, hrej, hacc, hx, hlo.trans_eq hx.symm, hx.trans_le hup, rfl,
    pcg_setX_retire_frame ..⟩

/-! ## The jump (spec/47_pcg32.md R286) -/

/-- The map x ↦ a x + b of the generator's states. -/
def affineMap (a b x : Word) : Word := a * x + b

theorem lcgStep_eq_affineMap (inc : Word) : lcgStep inc = affineMap pcgMult inc :=
  funext fun x => congrArg (· + inc) (BitVec.mul_comm x pcgMult)

theorem affineMap_one_zero : affineMap 1 0 = id := by
  funext x
  rw [affineMap, one_mul, add_zero, id]

theorem affineMap_comp (a b c d : Word) : affineMap c d ∘ affineMap a b = affineMap (a * c) (b * c + d) := by
  funext x
  simp only [Function.comp, affineMap]
  ring

/-- The turn's squared map is two applications. -/
theorem affineMap_iterate_two (c d : Word) : (affineMap c d)^[2] = affineMap (c * c) ((c + 1) * d) := by
  rw [show (affineMap c d)^[2] = affineMap c d ∘ affineMap c d from rfl, affineMap_comp]
  congr 1
  ring

/-- Square-and-multiply: the loop composes `delta` applications of the map (cm, cp) after the map (am, ap). -/
theorem affineMap_jumpLoop (fuel delta : Nat) (am ap cm cp : Word) (h : delta < 2 ^ fuel) :
    affineMap (jumpLoop fuel delta am ap cm cp).1 (jumpLoop fuel delta am ap cm cp).2
      = (affineMap cm cp)^[delta] ∘ affineMap am ap := by
  induction fuel generalizing delta am ap cm cp with
  | zero =>
    obtain rfl : delta = 0 := Nat.lt_one_iff.mp h
    rfl
  | succ fuel ih =>
    have hhalf : delta / 2 < 2 ^ fuel := by rw [Nat.pow_succ] at h; omega
    rw [jumpLoop]
    split
    · next hzero => subst hzero; rfl
    · split
      · next hodd =>
        rw [ih _ _ _ _ _ hhalf, ← affineMap_comp, ← affineMap_iterate_two, ← Function.iterate_mul, ← Function.comp_assoc,
          ← Function.iterate_succ, show (2 * (delta / 2)).succ = delta by omega]
      · next heven =>
        rw [ih _ _ _ _ _ hhalf, ← affineMap_iterate_two, ← Function.iterate_mul, show 2 * (delta / 2) = delta by omega]

theorem jump_eq_step_iterate (g : Pcg) (delta : Word) : g.jump delta = Pcg.step^[delta.toNat] g := by
  have h := congrFun (affineMap_jumpLoop 64 delta.toNat 1 0 pcgMult g.inc delta.isLt) g.lcg
  rw [affineMap_one_zero, Function.comp_id, ← lcgStep_eq_affineMap] at h
  rw [step_iterate, ← h]
  rfl

/-- The period divides 2^64. -/
theorem step_iterate_two_pow (g : Pcg) (hodd : g.inc.toNat % 2 = 1) : Pcg.step^[2 ^ 64] g = g := by
  obtain ⟨m, n, h⟩ := lcgStep_iterate_pow g.inc hodd 64
  have hlcg : (lcgStep g.inc)^[2 ^ 64] g.lcg = g.lcg := by
    have hlt := g.lcg.isLt
    refine BitVec.eq_of_toNat_eq ((h g.lcg).trans ?_)
    rw [show (1 + 4 * m * 2 ^ 64) * g.lcg.toNat + (2 ^ 64 + 2 * n * 2 ^ 64)
        = g.lcg.toNat + 2 ^ 64 * (4 * m * g.lcg.toNat + 1 + 2 * n) by ring, Nat.add_mul_mod_self_left, Nat.mod_eq_of_lt hlt]
  rw [step_iterate, hlcg]

/-- Settles O52: the loop is square-and-multiply over affine maps, and 2^64 steps are none. -/
theorem pcgJumpIsTheIteratedStep : Obligations.PcgJumpIsTheIteratedStep := by
  refine ⟨fun s xa => ?_, fun g hodd => ?_⟩
  · obtain ⟨he, hw⟩ := exec_session (i := .pcgJump xa) (s := s) nofun nofun rfl rfl
    exact ⟨_, he, jump_eq_step_iterate s.pcg (s.getX xa), hw, rfl, rfl, rfl, rfl, rfl⟩
  · have hcount : (BitVec.allOnes 64).toNat.succ = 2 ^ 64 := by decide
    rw [jump_eq_step_iterate, ← Function.iterate_succ_apply, hcount, step_iterate_two_pow g hodd]

end Sys2Proof.Machine
end

section
/-! The functions of the BitOps unit: rotations as the library's, the counts of bits against log 2 and the bits themselves, the
binary gcd against `Nat.gcd`, the doubling steps of the inverse (spec/48_bitops.md R301 to R315). -/

namespace Sys2Proof.Machine

/-! ## Rotations (spec/48_bitops.md R301 to R304) -/

theorem rotl_eq_rotateLeft {w n : Nat} (v : BitVec w) (h : n < w) : rotl v n = v.rotateLeft n := by
  rw [BitVec.rotateLeft_def, Nat.mod_eq_of_lt h, rotl]

/-! ## Leading zeros and logarithms (spec/48_bitops.md R305, R306, R311, R312) -/

theorem leadingZeros_zero (w : Nat) : leadingZeros w 0 = w := by
  induction w with
  | zero => rfl
  | succ w ih => rw [leadingZeros, Nat.zero_testBit, if_neg Bool.false_ne_true, ih]

/-- The highest set bit has index log2 v, and the leading zeros are the bits above it. -/
theorem leadingZeros_add_log {w v : Nat} (hv : v ≠ 0) (hlt : v < 2 ^ w) : leadingZeros w v + Nat.log 2 v + 1 = w := by
  induction w with
  | zero => exact absurd (Nat.lt_one_iff.mp hlt) hv
  | succ w ih =>
    rw [leadingZeros]
    obtain hlow | hhigh := Nat.lt_or_ge v (2 ^ w)
    · have := ih hlow
      rw [Nat.testBit_lt_two_pow hlow, if_neg Bool.false_ne_true]
      omega
    · rw [if_pos (Nat.testBit_of_two_pow_le_and_two_pow_add_one_gt hhigh hlt), Nat.log_eq_of_pow_le_of_lt_pow hhigh hlt,
        Nat.zero_add]

theorem div_pow_log_two {v : Nat} (hv : v ≠ 0) : v / 2 ^ Nat.log 2 v = 1 := by
  have hlow := Nat.pow_log_le_self 2 hv
  have hhigh := Nat.lt_pow_succ_log_self Nat.one_lt_two v
  refine Nat.div_eq_of_lt_le (by rwa [Nat.one_mul]) ?_
  rwa [Nat.pow_succ, Nat.mul_comm] at hhigh

/-- R305 and R306 for any width: the highest set bit is the one right below the leading zeros. -/
theorem leadingZeros_spec {w v : Nat} (hlt : v < 2 ^ w) :
    (v = 0 → leadingZeros w v = w) ∧ (v ≠ 0 → leadingZeros w v < w ∧ v / 2 ^ (w - 1 - leadingZeros w v) = 1) := by
  refine ⟨fun h => h ▸ leadingZeros_zero w, fun hv => ?_⟩
  have hsum := leadingZeros_add_log hv hlt
  refine ⟨by omega, ?_⟩
  rw [show w - 1 - leadingZeros w v = Nat.log 2 v by omega, div_pow_log_two hv]

theorem log2Floor_eq_log {v : Nat} (hlt : v < 2 ^ 64) : log2Floor v = Nat.log 2 v := by
  rw [log2Floor]
  split
  · next h => rw [h, Nat.log_zero_right]
  · next h => have := leadingZeros_add_log h hlt; omega

theorem log_pred_add_one_eq_clog {v : Nat} (hv : 2 ≤ v) : Nat.log 2 (v - 1) + 1 = Nat.clog 2 v := by
  have hpred : v - 1 ≠ 0 := by omega
  refine eq_of_forall_ge_iff fun k => ?_
  rw [Nat.clog_le_iff_le_pow Nat.one_lt_two, Nat.succ_le_iff, Nat.log_lt_iff_lt_pow Nat.one_lt_two hpred]
  omega

theorem log2Ceil_eq_clog {v : Nat} (hlt : v < 2 ^ 64) : log2Ceil v = Nat.clog 2 v := by
  rw [log2Ceil]
  split
  · next h => rw [Nat.clog_of_right_le_one h]
  · next h => rw [log2Floor_eq_log (by omega), log_pred_add_one_eq_clog (by omega)]

/-! ## Trailing zeros (spec/48_bitops.md R307, R308) -/

theorem trailingZeros_zero (w : Nat) : trailingZeros w 0 = w := by
  induction w with
  | zero => rfl
  | succ w ih => rw [trailingZeros, if_neg (by decide), ih]

theorem two_pow_trailingZeros_dvd (w v : Nat) : 2 ^ trailingZeros w v ∣ v := by
  induction w generalizing v with
  | zero => exact one_dvd v
  | succ w ih =>
    rw [trailingZeros]
    split
    · exact one_dvd v
    · next heven =>
      rw [Nat.pow_succ', show v = 2 * (v / 2) by omega, Nat.mul_div_cancel_left _ Nat.two_pos]
      exact Nat.mul_dvd_mul_left 2 (ih (v / 2))

theorem div_two_pow_trailingZeros_odd {w v : Nat} (hv : v ≠ 0) (hlt : v < 2 ^ w) : v / 2 ^ trailingZeros w v % 2 = 1 := by
  induction w generalizing v with
  | zero => exact absurd (Nat.lt_one_iff.mp hlt) hv
  | succ w ih =>
    rw [trailingZeros]
    split
    · next hodd => rwa [Nat.pow_zero, Nat.div_one]
    · next heven =>
      rw [Nat.pow_succ', ← Nat.div_div_eq_div_mul]
      exact ih (by omega) (by omega)

/-- R307 and R308 for any width: the lowest set bit is the one right above the trailing zeros. -/
theorem trailingZeros_spec {w v : Nat} (hlt : v < 2 ^ w) :
    (v = 0 → trailingZeros w v = w)
      ∧ (v ≠ 0 → v % 2 ^ trailingZeros w v = 0 ∧ v / 2 ^ trailingZeros w v % 2 = 1) :=
  ⟨fun h => h ▸ trailingZeros_zero w, fun hv =>
    ⟨Nat.mod_eq_zero_of_dvd (two_pow_trailingZeros_dvd w v), div_two_pow_trailingZeros_odd hv hlt⟩⟩

theorem trailingZeros_or (w a b : Nat) : trailingZeros w (a ||| b) = min (trailingZeros w a) (trailingZeros w b) := by
  induction w generalizing a b with
  | zero => rfl
  | succ w ih =>
    simp only [trailingZeros, Nat.or_mod_two_eq_one, Nat.or_div_two, ih]
    by_cases ha : a % 2 = 1 <;> by_cases hb : b % 2 = 1 <;> simp [ha, hb, Nat.add_min_add_right]

/-! ## Set bits (spec/48_bitops.md R309, R310, R313) -/

theorem popCount_eq_countP (w v : Nat) : popCount w v = (List.range w).countP fun k => v.testBit k := by
  induction w generalizing v with
  | zero => rfl
  | succ w ih =>
    have hshift : (List.range w).countP (v.testBit ∘ Nat.succ) = popCount w (v / 2) := by
      rw [ih]; exact congrArg (List.countP · _) (funext fun k => Nat.testBit_succ v k)
    rw [List.range_succ_eq_map, List.countP_cons, List.countP_map, hshift, popCount, Nat.testBit_zero]
    obtain h | h := Nat.mod_two_eq_zero_or_one v <;> simp [h, Nat.add_comm]

theorem popCount_eq_zero_iff {w v : Nat} (hlt : v < 2 ^ w) : popCount w v = 0 ↔ v = 0 := by
  induction w generalizing v with
  | zero => simpa [popCount] using hlt
  | succ w ih => have := ih (v := v / 2) (by omega); rw [popCount]; omega

theorem exists_eq_two_pow_iff_of_even {v : Nat} (heven : v % 2 = 0) : (∃ k, v = 2 ^ k) ↔ ∃ k, v / 2 = 2 ^ k := by
  constructor
  · rintro ⟨k, hk⟩
    cases k with
    | zero => omega
    | succ k => exact ⟨k, by omega⟩
  · rintro ⟨k, hk⟩
    exact ⟨k + 1, by omega⟩

theorem exists_eq_two_pow_iff_of_odd {v : Nat} (hodd : v % 2 = 1) : (∃ k, v = 2 ^ k) ↔ v = 1 := by
  constructor
  · rintro ⟨k, hk⟩
    cases k with
    | zero => exact hk
    | succ k => omega
  · rintro rfl
    exact ⟨0, rfl⟩

/-- One set bit, and the value is a power of two. -/
theorem popCount_eq_one_iff {w v : Nat} (hlt : v < 2 ^ w) : popCount w v = 1 ↔ ∃ k, v = 2 ^ k := by
  induction w generalizing v with
  | zero =>
    obtain rfl : v = 0 := Nat.lt_one_iff.mp hlt
    exact iff_of_false nofun fun ⟨k, hk⟩ => (Nat.two_pow_pos k).ne hk
  | succ w ih =>
    have hhalf : v / 2 < 2 ^ w := by omega
    rw [popCount]
    obtain heven | hodd := Nat.mod_two_eq_zero_or_one v
    · rw [exists_eq_two_pow_iff_of_even heven, ← ih hhalf, heven, Nat.zero_add]
    · have := popCount_eq_zero_iff hhalf
      rw [exists_eq_two_pow_iff_of_odd hodd]
      omega

/-! ## The binary gcd (spec/48_bitops.md R314) -/

/-- A number is its odd part times the power of two that was shifted out. -/
theorem two_pow_mul_oddPart (v : Nat) : 2 ^ trailingZeros 64 v * oddPart v = v := by
  rw [oddPart, Nat.shiftRight_eq_div_pow, Nat.mul_div_cancel' (two_pow_trailingZeros_dvd 64 v)]

theorem oddPart_odd {v : Nat} (hv : v ≠ 0) (hlt : v < 2 ^ 64) : Odd (oddPart v) := by
  rw [Nat.odd_iff, oddPart, Nat.shiftRight_eq_div_pow]
  exact div_two_pow_trailingZeros_odd hv hlt

theorem oddPart_le (v : Nat) : oddPart v ≤ v := by
  rw [oddPart, Nat.shiftRight_eq_div_pow]; exact Nat.div_le_self ..

/-- A power of two does not count in a gcd with an odd number. -/
theorem gcd_two_pow_mul_of_odd {a : Nat} (ha : Odd a) (k b : Nat) : Nat.gcd a (2 ^ k * b) = Nat.gcd a b :=
  (Nat.coprime_two_left.mpr ha).pow_left k |>.gcd_mul_left_cancel_right b

theorem gcd_oddPart {b : Nat} (hb : Odd b) (v : Nat) : Nat.gcd (oddPart v) b = Nat.gcd v b := by
  rw [Nat.gcd_comm, Nat.gcd_comm v, ← gcd_two_pow_mul_of_odd hb (trailingZeros 64 v), two_pow_mul_oddPart]

/-- An even number loses at least its lowest bit. -/
theorem two_mul_oddPart_le {v : Nat} (hv : v ≠ 0) (heven : v % 2 = 0) (hlt : v < 2 ^ 64) : 2 * oddPart v ≤ v := by
  have hodd := Nat.odd_iff.mp (oddPart_odd hv hlt)
  have hsplit := two_pow_mul_oddPart v
  cases ht : trailingZeros 64 v with
  | zero => rw [ht, Nat.pow_zero, Nat.one_mul] at hsplit; omega
  | succ t =>
    calc 2 * oddPart v
      _ ≤ 2 ^ trailingZeros 64 v * oddPart v := Nat.mul_le_mul_right _ (ht ▸ Nat.le_self_pow t.succ_ne_zero 2)
      _ = v := hsplit

/-- One turn of the loop on odd numbers b < a: the difference's odd part replaces a. The pair keeps its gcd, and the product
halves. -/
theorem oddPart_sub_spec {a b : Nat} (ha : Odd a) (hb : Odd b) (hba : b < a) (hlt : a < 2 ^ 64) :
    Odd (oddPart (a - b)) ∧ oddPart (a - b) < 2 ^ 64 ∧ 2 * oddPart (a - b) ≤ a
      ∧ Nat.gcd (oddPart (a - b)) b = Nat.gcd a b := by
  have heven : (a - b) % 2 = 0 := by rw [Nat.odd_iff] at ha hb; omega
  have hle := two_mul_oddPart_le (by omega) heven (by omega)
  refine ⟨oddPart_odd (by omega) (by omega), by omega, by omega, ?_⟩
  rw [gcd_oddPart hb, Nat.gcd_sub_self_left hba.le]

/-- The loop gives the gcd, given a turn for each halving of the product. -/
theorem binaryGcdLoop_eq_gcd {fuel a b : Nat} (ha : Odd a) (hb : Odd b) (ha64 : a < 2 ^ 64) (hb64 : b < 2 ^ 64)
    (hfuel : a * b < 2 ^ fuel) : binaryGcdLoop fuel a b = Nat.gcd a b := by
  induction fuel generalizing a b with
  | zero => exact absurd (Nat.mul_pos ha.pos hb.pos) (by omega)
  | succ fuel ih =>
    rw [binaryGcdLoop]
    split
    · next heq => rw [heq, Nat.gcd_self]
    · split
      · next hlt =>
        obtain ⟨hodd, h64, hhalf, hgcd⟩ := oddPart_sub_spec ha hb hlt ha64
        have := Nat.mul_le_mul_right b hhalf
        rw [ih hodd hb h64 hb64 (by rw [Nat.mul_assoc] at this; omega), hgcd]
      · obtain ⟨hodd, h64, hhalf, hgcd⟩ := oddPart_sub_spec hb ha (by omega) hb64
        have := Nat.mul_le_mul_left a hhalf
        rw [ih ha hodd ha64 h64 (by rw [Nat.mul_left_comm] at this; omega), Nat.gcd_comm, hgcd, Nat.gcd_comm]

/-- Two numbers share as many factors 2 as the number with fewer of them has. -/
theorem gcd_two_pow_mul_odd {a b : Nat} (ha : Odd a) (hb : Odd b) (j k : Nat) :
    Nat.gcd (2 ^ j * a) (2 ^ k * b) = 2 ^ min j k * Nat.gcd a b := by
  obtain h | h := Nat.le_total j k
  · obtain ⟨d, rfl⟩ := Nat.exists_eq_add_of_le h
    rw [Nat.pow_add, Nat.mul_assoc, Nat.gcd_mul_left, gcd_two_pow_mul_of_odd ha, Nat.min_eq_left h]
  · obtain ⟨d, rfl⟩ := Nat.exists_eq_add_of_le h
    rw [Nat.pow_add, Nat.mul_assoc, Nat.gcd_mul_left, Nat.gcd_comm, gcd_two_pow_mul_of_odd hb, Nat.gcd_comm,
      Nat.min_eq_right h]

/-- 128 turns suffice for the odd parts of 64-bit values. -/
theorem binaryGcd_eq_gcd {a b : Nat} (ha : a < 2 ^ 64) (hb : b < 2 ^ 64) : binaryGcd a b = Nat.gcd a b := by
  rw [binaryGcd]
  split
  · next h => rw [h, Nat.gcd_zero_left]
  split
  · next h => rw [h, Nat.gcd_zero_right]
  next ha0 hb0 =>
  have hoa := oddPart_odd ha0 ha
  have hob := oddPart_odd hb0 hb
  have ha' := (oddPart_le a).trans_lt ha
  have hb' := (oddPart_le b).trans_lt hb
  have hfuel : oddPart a * oddPart b < 2 ^ 128 := (Nat.mul_lt_mul'' ha' hb').trans_eq (Nat.pow_add 2 64 64).symm
  rw [binaryGcdLoop_eq_gcd hoa hob ha' hb' hfuel, Nat.shiftLeft_eq, Nat.mul_comm, trailingZeros_or,
    ← gcd_two_pow_mul_odd hoa hob, two_pow_mul_oddPart, two_pow_mul_oddPart]

/-! ## The inverse modulo 2^64 (spec/48_bitops.md R315) -/

/-- A doubling step squares the error 1 − v y. -/
theorem newtonStep_error (v y : Word) : 1 - v * newtonStep v y = (1 - v * y) ^ 2 := by
  rw [newtonStep]; ring

theorem modInverse_error (v : Word) : 1 - v * modInverse v = (1 - v * v) ^ 32 := by
  simp only [modInverse, newtonStep_error, ← pow_mul]

theorem word_eq_two_mul_add_one {v : Word} (h : v.toNat % 2 = 1) : ∃ m : Word, v = 2 * m + 1 :=
  ⟨v >>> 1, by bv_omega⟩

/-- The first error, 1 − v², is a multiple of 4, and 4^32 = 0 modulo 2^64. -/
theorem mul_modInverse {v : Word} (hodd : v.toNat % 2 = 1) : v * modInverse v = 1 := by
  obtain ⟨m, hm⟩ := word_eq_two_mul_add_one hodd
  have hfirst : 1 - v * v = 4 * -(m * (m + 1)) := by rw [hm]; ring
  have hzero : (4 : Word) ^ 32 = 0 := by decide
  have herror := modInverse_error v
  rw [hfirst, mul_pow, hzero, zero_mul] at herror
  exact (sub_eq_zero.mp herror).symm

theorem inverse_unique {v y z : Word} (hy : v * y = 1) (hz : v * z = 1) : z = y :=
  left_inv_eq_right_inv ((mul_comm z v).trans hz) hy

end Sys2Proof.Machine
end

section
/-! The BitOps commands: on registers, and on spans of BUF (spec/48_bitops.md R300 to R317). -/

namespace Sys2Proof.Machine

/-! ## The commands on registers -/

/-- A command of three registers has the word of R91 with its opcode and no immediate. -/
theorem encodedAs_formatR {i : Instr} {opc : Nat} {xa xb xc : Reg} (hopc : opc < 256) (hwf : i.wellFormed = true)
    (henc : encode i = formatR opc xa xb xc 0) :
    EncodedAs i (opc * 2 ^ 24 + xa.val * 2 ^ 20 + xb.val * 2 ^ 16 + xc.val * 2 ^ 12) :=
  encodedAs_of_toNat_encode hwf (henc ▸ (toNat_formatR _ _ _ _ _ hopc).trans (by simp))

/-- Settles O53: each word by its encoding, each value by the library's rotation. -/
theorem rotationsRotate : Obligations.RotationsRotate := by
  refine ⟨fun xa xb xc => ⟨?_, ?_, ?_, ?_⟩, fun s xa xb xc => ⟨?_, ?_, ?_, ?_⟩⟩
  · exact encodedAs_formatR (by decide) rfl rfl
  · exact encodedAs_formatR (by decide) rfl rfl
  · exact encodedAs_formatR (by decide) rfl rfl
  · exact encodedAs_formatR (by decide) rfl rfl
  · rw [← rotl_eq_rotateLeft _ (Nat.mod_lt _ (by decide))]
    exact exec_wroteOnlyReg (i := .rotl32 xa xb xc) nofun nofun nofun rfl
  · rw [← rotr_eq_rotateRight _ (Nat.mod_lt _ (by decide))]
    exact exec_wroteOnlyReg (i := .rotr32 xa xb xc) nofun nofun nofun rfl
  · rw [← rotl_eq_rotateLeft _ (Nat.mod_lt _ (by decide))]
    exact exec_wroteOnlyReg (i := .rotl64 xa xb xc) nofun nofun nofun rfl
  · rw [← rotr_eq_rotateRight _ (Nat.mod_lt _ (by decide))]
    exact exec_wroteOnlyReg (i := .rotr64 xa xb xc) nofun nofun nofun rfl

theorem v32_toNat (s : State) (xb : Reg) : (v32 s xb).toNat = s.xNat xb % 2 ^ 32 := BitVec.toNat_setWidth ..

theorem xNat_lt (s : State) (r : Reg) : s.xNat r < 2 ^ 64 := (s.getX r).isLt

/-- A command whose rule gives its result by a property of it. -/
theorem exec_wroteOnlyReg_spec {i : Instr} {s : State} {xa : Reg} {r : Nat} {P : Nat → Prop}
    (ha : Accepts s i) (hdec : ∀ xa sb sc, i ≠ .aeadDec xa sb sc) (hrange : ∀ xa xb xc, i ≠ .pcgRange xa xb xc)
    (heff : effectOf i s = s.setXNat xa r) (hr : P r) :
    ∃ t r, exec i s = .next t ∧ WroteOnlyReg xa (BitVec.ofNat 64 r) s t ∧ P r := by
  obtain ⟨t, he, hw⟩ := exec_wroteOnlyReg ha hdec hrange heff
  exact ⟨t, r, he, hw, hr⟩

/-- Settles O54: the counts for any width, at 32 and 64 bits. -/
theorem countsCountBits : Obligations.CountsCountBits := by
  intro s xa xb
  have h64 := xNat_lt s xb
  have h32 := (v32 s xb).isLt
  rw [← popCount_eq_countP, ← popCount_eq_countP, ← v32_toNat]
  refine ⟨?_, ?_, ?_, ?_, ?_, ?_⟩
  · exact exec_wroteOnlyReg_spec (i := .lzcnt32 xa xb) nofun nofun nofun rfl (leadingZeros_spec h32)
  · exact exec_wroteOnlyReg_spec (i := .lzcnt64 xa xb) nofun nofun nofun rfl (leadingZeros_spec h64)
  · exact exec_wroteOnlyReg_spec (i := .tzcnt32 xa xb) nofun nofun nofun rfl (trailingZeros_spec h32)
  · exact exec_wroteOnlyReg_spec (i := .tzcnt64 xa xb) nofun nofun nofun rfl (trailingZeros_spec h64)
  · exact exec_wroteOnlyReg (i := .popcnt32 xa xb) nofun nofun nofun rfl
  · exact exec_wroteOnlyReg (i := .popcnt64 xa xb) nofun nofun nofun rfl

/-- R311 for the library's logarithm. -/
theorem log_spec {v : Nat} (hlt : v < 2 ^ 64) : Nat.log 2 v ≤ 63 ∧ (v = 0 → Nat.log 2 v = 0)
    ∧ (1 ≤ v → 2 ^ Nat.log 2 v ≤ v ∧ v < 2 ^ (Nat.log 2 v + 1)) := by
  refine ⟨Nat.le_of_lt_succ (Nat.log_lt_of_lt_pow' (by decide) hlt), fun h => by rw [h, Nat.log_zero_right], fun hv => ?_⟩
  exact ⟨Nat.pow_log_le_self 2 (Nat.ne_of_gt hv), Nat.lt_pow_succ_log_self Nat.one_lt_two v⟩

/-- R312 for the library's upper logarithm. -/
theorem clog_spec {v : Nat} (hlt : v < 2 ^ 64) : Nat.clog 2 v ≤ 64 ∧ (v ≤ 1 → Nat.clog 2 v = 0)
    ∧ (2 ≤ v → v ≤ 2 ^ Nat.clog 2 v ∧ ∀ j, v ≤ 2 ^ j → Nat.clog 2 v ≤ j) :=
  ⟨Nat.clog_le_of_le_pow hlt.le, fun h => Nat.clog_of_right_le_one h 2, fun _ =>
    ⟨Nat.le_pow_clog Nat.one_lt_two v, fun _ => Nat.clog_le_of_le_pow⟩⟩

/-- Settles O55: the logarithms are the library's, and a power of two is a value with one set bit. -/
theorem logarithmsAndPowerTest : Obligations.LogarithmsAndPowerTest := by
  intro s xa xb
  have hlt := xNat_lt s xb
  refine ⟨?_, ?_, ?_⟩
  · exact exec_wroteOnlyReg_spec (i := .log2f xa xb) nofun nofun nofun rfl (log2Floor_eq_log hlt ▸ log_spec hlt)
  · exact exec_wroteOnlyReg_spec (i := .log2c xa xb) nofun nofun nofun rfl (log2Ceil_eq_clog hlt ▸ clog_spec hlt)
  · obtain ⟨t, he, hw⟩ := exec_wroteOnlyReg (i := .ispow2 xa xb) (s := s) nofun nofun nofun rfl
    refine ⟨t, _, he, hw, ?_⟩
    rw [← popCount_eq_one_iff hlt]
    split
    · next h => exact ⟨.inr rfl, iff_of_true rfl h⟩
    · next h => exact ⟨.inl rfl, iff_of_false (by decide) h⟩

/-- Settles O56: the binary algorithm gives the gcd. -/
theorem gcdIsTheGreatestCommonDivisor : Obligations.GcdIsTheGreatestCommonDivisor := by
  refine ⟨fun xa xb xc => encodedAs_formatR (by decide) rfl rfl, fun s xa xb xc => ?_⟩
  rw [← binaryGcd_eq_gcd (xNat_lt s xb) (xNat_lt s xc)]
  exact exec_wroteOnlyReg (i := .gcd xa xb xc) nofun nofun nofun rfl

theorem firstFailing_modinv (s : State) (xa xb : Reg) : firstFailing (checksOf s (.modinv xa xb))
    = if s.xNat xb % 2 = 1 then none else some (.usage .badOperand) := by
  rw [checksOf, modinvChecks, needOperand]
  split
  · next h => rw [h]; rfl
  · next h => rw [beq_false_of_ne h]; rfl

/-- Settles O57: an odd value passes the one check and has the inverse of the doubling steps; an even value fails it. -/
theorem modinvInvertsOddValues : Obligations.ModinvInvertsOddValues := by
  refine ⟨fun xa xb => ?_, fun s xa xb => ⟨fun hodd => ?_, fun heven => ?_⟩⟩
  · exact encodedAs_of_toNat_encode rfl ((toNat_formatR _ _ _ _ _ (by decide)).trans (by simp))
  · have ha : Accepts s (.modinv xa xb) := by rw [accepts_iff, firstFailing_modinv, if_pos hodd]
    obtain ⟨t, he, hw⟩ := exec_wroteOnlyReg ha nofun nofun rfl
    exact ⟨t, _, he, hw, mul_modInverse hodd, fun z => inverse_unique (mul_modInverse hodd)⟩
  · have hfail := (firstFailing_modinv s xa xb).trans (if_neg (by omega))
    exact ⟨_, exec_raise hfail, raise_raisedOnly ..⟩

/-! ## The commands on byte spans -/

/-- CTEQ writes 1 for one string and 0 for two, by the meaning of the comparison. -/
theorem effectOf_cteq (s : State) (xa : Reg) (sb sc : SpanReg) :
    effectOf (.cteq xa sb sc) s = s.setX xa (if s.readSpan sb = s.readSpan sc then 1 else 0) := by
  simp only [effectOf, cteqEffect, ctEqual_iff, State.setXNat]
  split <;> rfl

/-- The bytes that XORB writes. -/
def spanXor (s : State) (sb sc : SpanReg) : Bytes := xorBytes (s.readSpan sb) (s.readSpan sc)

section
variable {s : State} {xa : Reg} {sb sc : SpanReg} (hlen : s.spanLen sb = s.spanLen sc)
include hlen

theorem length_spanXor : (spanXor s sb sc).length = s.spanLen sb := by
  rw [spanXor, length_xorBytes, length_readSpan, length_readSpan, hlen, Nat.min_self]

theorem getD_spanXor {k : Nat} (hk : k < s.spanLen sb) :
    (spanXor s sb sc).getD k 0 = s.readByte (s.spanAddr sb + k) ^^^ s.readByte (s.spanAddr sc + k) := by
  have hk' : k < s.spanLen sc := hlen ▸ hk
  rw [spanXor, getD_xorBytes (by rwa [length_readSpan]) (by rwa [length_readSpan]), State.readSpan, State.readSpan,
    getD_memRead, getD_memRead, if_pos hk, if_pos hk']

theorem accepts_xorb (hsb : s.spanOk (s.spanAddr sb) (s.spanLen sb) = true)
    (hsc : s.spanOk (s.spanAddr sc) (s.spanLen sc) = true) (hdst : s.spanOk (s.xNat xa) (s.spanLen sb) = true)
    (hb : disjointOrSame (s.xNat xa) (s.spanAddr sb) (s.spanLen sb) = true)
    (hc : disjointOrSame (s.xNat xa) (s.spanAddr sc) (s.spanLen sb) = true) : Accepts s (.xorb xa sb sc) := by
  simp [Accepts, checksOf, xorbChecks, needLength, needSpan, needDistinct, hlen, hlen ▸ hsb, hsc, hlen ▸ hdst, hlen ▸ hb,
    hlen ▸ hc]
end

/-- Settles O58: CTEQ writes one register; XORB writes one region, whose byte `k` is that of `getD_spanXor`. -/
theorem spanCompareAndXor : Obligations.SpanCompareAndXor := by
  intro s xa sb sc hsb hsc
  refine ⟨?_, fun hlen hdst hb hc => ?_⟩
  · have ha : Accepts s (.cteq xa sb sc) := by simp [Accepts, checksOf, cteqChecks, needSpan, hsb, hsc]
    exact exec_wroteOnlyReg ha nofun nofun (effectOf_cteq s xa sb sc)
  · obtain ⟨he, hread, hbuf, hregs, herrors, henv, hok⟩ := exec_wroteOnlyBuf (a := s.xNat xa) (v := spanXor s sb sc)
      (accepts_xorb hlen hsb hsc hdst hb hc) nofun nofun rfl rfl
    rw [length_spanXor hlen] at hread hbuf
    refine ⟨_, he, fun k hk => ?_, hbuf, hregs, herrors, ⟨rfl, rfl, rfl, rfl, rfl, rfl⟩, henv, hok⟩
    rw [← getD_spanXor hlen hk, ← hread, getD_memRead, if_pos hk]

end Sys2Proof.Machine
end

section
/-! When a command is refused, with which error, and what that leaves: the first check that fails decides
(spec/60_exceptions.md R342 to R346). -/

namespace Sys2Proof.Machine

/-! ## The first failing check -/

/-- Settles O11: the first failing check's error is raised, and `raise` changes nothing but the record. -/
theorem failingChecksRaise : Obligations.FailingChecksRaise := by
  refine ⟨fun i s before after e hcs hpass => ?_, fun xa sb sc s ha htag => ?_⟩
  · exact ⟨_, exec_raise ((firstFailing_eq_some ..).mpr ⟨before, after, hcs, hpass⟩), raise_raisedOnly ..⟩
  · exact ⟨_, exec_aeadDec_mismatch ha htag, raise_raisedOnly (aeadConsumed s) ..⟩

theorem mem_of_firstFailing {cs : List Check} {e : Error} (h : firstFailing cs = some e) : (false, e) ∈ cs := by
  obtain ⟨pre, post, rfl, -⟩ := (firstFailing_eq_some ..).mp h
  exact List.mem_append_right _ List.mem_cons_self

/-- The errors of a command's checks, in the order of the checks. -/
def errorsOf : Instr → List Error
  | .rdsr _ _ => [.usage .illegalCmd]
  | .b2bInit _ _ | .b2sInit _ _ | .p13Init _ => [.usage .badLength, .usage .badSpan]
  | .b2Update _ | .b2Final _ | .p13Update _ | .p13Final _ => [.usage .badPhase, .usage .badSpan]
  | .cc20Init _ _ | .xcc20Init _ _ => [.usage .badLength, .usage .badSpan, .usage .badSpan]
  | .ccXform _ _ _ =>
    [.usage .badPhase, .usage .badSpan, .usage .badSpan, .usage .overlap, .usage .badCounter, .arithmeticOverflow]
  | .aeadInit _ _ _ => [.usage .badLength, .usage .badSpan, .usage .badSpan, .usage .badSpan]
  | .aeadEnc _ _ _ | .aeadDec _ _ _ =>
    [.usage .badPhase, .usage .badLength, .usage .badSpan, .usage .badSpan, .usage .badSpan, .usage .overlap,
     .arithmeticOverflow]
  | .kdfCfg _ _ _ => [.usage .illegalCmd, .usage .badLength, .usage .badSpan]
  | .pbkdf2 _ _ _ | .hkdf _ _ =>
    [.usage .badPhase, .usage .badCount, .usage .badSpan, .usage .badSpan, .usage .overlap]
  | .modinv _ _ => [.usage .badOperand]
  | .cteq _ _ _ => [.usage .badSpan, .usage .badSpan]
  | .xorb _ _ _ => [.usage .badLength, .usage .badSpan, .usage .badSpan, .usage .badSpan, .usage .overlap]
  | _ => []

/-- The state decides which checks pass, not which there are. -/
theorem map_snd_checksOf (s : State) (i : Instr) : (checksOf s i).map Prod.snd = errorsOf i := by cases i <;> rfl

theorem errorsOf_sorted (i : Instr) : (errorsOf i).Pairwise fun e f => e.priority ≤ f.priority := by
  unfold errorsOf
  split <;> decide

/-- The checks of a command are in the order of R345. -/
theorem checksOf_sorted (s : State) (i : Instr) : (checksOf s i).Pairwise fun c d => c.2.priority ≤ d.2.priority := by
  have hsorted := errorsOf_sorted i
  rwa [← map_snd_checksOf s i, List.pairwise_map] at hsorted

/-- No failing check precedes the one whose error is raised. -/
theorem priority_le_of_firstFailing {s : State} {i : Instr} {e : Error} (h : firstFailing (checksOf s i) = some e) :
    ∀ c ∈ checksOf s i, c.1 = false → e.priority ≤ c.2.priority := by
  obtain ⟨pre, post, hcs, hpass⟩ := (firstFailing_eq_some ..).mp h
  have hsorted := checksOf_sorted s i
  rw [hcs] at hsorted ⊢
  obtain ⟨-, htail, -⟩ := List.pairwise_append.mp hsorted
  intro c hc hfail
  obtain hpre | rfl | hpost := by simpa using hc
  · exact absurd (hpass c hpre) (by simp [hfail])
  · exact le_rfl
  · exact List.rel_of_pairwise_cons htail hpost

/-! ## The refusals of a command's rule (spec/60_exceptions.md R345) -/

/-- A condition of a rule is the failure of a check: same error, and the check passes where the condition does not hold. -/
def FailsWhen (r : Prop × Error) (c : Check) : Prop := c.2 = r.2 ∧ (c.1 = true ↔ ¬r.1)

theorem firstFailing_of_failsWhen {before after : List (Prop × Error)} {P : Prop} {e : Error} {cs : List Check}
    (h : List.Forall₂ FailsWhen (before ++ (P, e) :: after) cs) (hbefore : ∀ r ∈ before, ¬r.1) (hP : P) :
    firstFailing cs = some e := by
  induction before generalizing cs with
  | nil =>
    obtain ⟨⟨ok, d⟩, cs, ⟨herr, hok⟩, -, rfl⟩ := List.forall₂_cons_left_iff.mp h
    obtain rfl : d = e := herr
    obtain rfl : ok = false := by simpa [hP] using hok
    rfl
  | cons r before ih =>
    obtain ⟨⟨ok, d⟩, cs, ⟨-, hok⟩, hrest, rfl⟩ := List.forall₂_cons_left_iff.mp h
    obtain ⟨hr, hbefore⟩ := List.forall_mem_cons.mp hbefore
    obtain rfl : ok = true := hok.mpr hr
    exact (ih hrest hbefore :)

theorem firstFailing_of_no_refusal {rs : List (Prop × Error)} {cs : List Check} (h : List.Forall₂ FailsWhen rs cs)
    (hrs : ∀ r ∈ rs, ¬r.1) : firstFailing cs = none := by
  induction h with
  | nil => rfl
  | @cons r c rs cs hrc _ ih =>
    obtain ⟨ok, d⟩ := c
    obtain ⟨-, hok⟩ := hrc
    obtain ⟨hr, hrs⟩ := List.forall_mem_cons.mp hrs
    obtain rfl : ok = true := hok.mpr hr
    exact ih hrs

section
variable (s : State)

theorem needPhase_failsWhen {α : Type} [DecidableEq α] (p q : α) :
    FailsWhen (p ≠ q, .usage .badPhase) (needPhase (p == q)) :=
  ⟨rfl, by simp [needPhase]⟩

theorem needSpan_failsWhen (a n : Nat) : FailsWhen (OutsideBuf s a n, .usage .badSpan) (needSpan s a n) :=
  ⟨rfl, by rw [needSpan, spanOk_iff, OutsideBuf]; omega⟩

theorem hashLengths_failsWhen (var : Variant) (kn ol : Nat) :
    FailsWhen (LengthsOutOfRange var.maxLen kn ol, .usage .badLength) (needLength (hashLengthsOk var kn ol)) :=
  ⟨rfl, by rw [needLength, hashLengthsOk_iff, LengthsOutOfRange]; omega⟩

theorem lengthEq_failsWhen (m n : Nat) : FailsWhen (m ≠ n, .usage .badLength) (needLength (m == n)) :=
  ⟨rfl, by simp [needLength]⟩

theorem lengthsEq_failsWhen (m n k l : Nat) :
    FailsWhen (m ≠ n ∨ k ≠ l, .usage .badLength) (needLength (m == n && k == l)) :=
  ⟨rfl, by simp [needLength]⟩

theorem disjointOrSame_eq_true_iff (d a n : Nat) : disjointOrSame d a n = true ↔ ¬(d ≠ a ∧ ShareByte d n a n) := by
  rw [disjointOrSame_iff]; tauto

theorem disjointOrSame_failsWhen (d a n : Nat) :
    FailsWhen (d ≠ a ∧ ShareByte d n a n, .usage .overlap) (needDistinct (disjointOrSame d a n)) :=
  ⟨rfl, disjointOrSame_eq_true_iff d a n⟩

theorem overlap_eq_false_iff (a1 n1 a2 n2 : Nat) : overlap a1 n1 a2 n2 = false ↔ ¬ShareByte a1 n1 a2 n2 := by
  rw [← overlap_iff, Bool.not_eq_true]

theorem overlap_failsWhen (a1 n1 a2 n2 : Nat) :
    FailsWhen (ShareByte a1 n1 a2 n2, .usage .overlap) (needDistinct (!overlap a1 n1 a2 n2)) :=
  ⟨rfl, by rw [needDistinct, Bool.not_eq_true', overlap_eq_false_iff]⟩

theorem counterFits_failsWhen (w : Vector Word32 16) (c n : Nat) :
    FailsWhen (2 ^ 64 - 1 < c + (w.get 13).toNat * 2 ^ 32 + (n + 63) / 64, .arithmeticOverflow)
      (needNoOverflow (counterFits (firstCounter w c) n)) :=
  ⟨rfl, by rw [needNoOverflow, counterFits_iff, Nat.not_lt]⟩

theorem callerCounter_failsWhen (var : CipherVariant) (c : Nat) :
    FailsWhen (var = .chacha20 ∧ 2 ^ 32 ≤ c, .usage .badCounter)
      (needCounter (!(var == .chacha20 && decide (2 ^ 32 ≤ c)))) :=
  ⟨rfl, by rw [needCounter, callerCounterOk_iff, not_and, Nat.not_le]⟩

theorem odd_failsWhen (v : Nat) : FailsWhen (v % 2 = 0, .usage .badOperand) (needOperand (v % 2 == 1)) :=
  ⟨rfl, by simp [needOperand]⟩

theorem pbkdf2Count_failsWhen (c len outlen : Nat) :
    FailsWhen (c = 0 ∨ len = 0 ∨ 2 ^ 32 - 1 < ceilDiv len outlen, .usage .badCount)
      (needCount (decide (1 ≤ c) && decide (1 ≤ len) && decide (ceilDiv len outlen ≤ 2 ^ 32 - 1))) :=
  ⟨rfl, by simp only [needCount, Bool.and_eq_true, decide_eq_true_eq]; omega⟩

theorem hkdfCount_failsWhen (len outlen : Nat) :
    FailsWhen (len = 0 ∨ 255 * outlen < len, .usage .badCount)
      (needCount (decide (1 ≤ len) && decide (len ≤ 255 * outlen))) :=
  ⟨rfl, by simp only [needCount, Bool.and_eq_true, decide_eq_true_eq]; omega⟩

theorem aeadDistinct_failsWhen (d a n t : Nat) :
    FailsWhen ((d ≠ a ∧ ShareByte d n a n) ∨ ShareByte t 16 a n ∨ ShareByte t 16 d n, .usage .overlap)
      (needDistinct (aeadDistinct d a n t)) :=
  ⟨rfl, by
    rw [needDistinct, aeadDistinct_iff, disjointOrSame_eq_true_iff, overlap_eq_false_iff, overlap_eq_false_iff, not_or,
      not_or]⟩

theorem xorbDistinct_failsWhen (d a b n : Nat) :
    FailsWhen ((d ≠ a ∧ ShareByte d n a n) ∨ (d ≠ b ∧ ShareByte d n b n), .usage .overlap)
      (needDistinct (disjointOrSame d a n && disjointOrSame d b n)) :=
  ⟨rfl, by rw [needDistinct, Bool.and_eq_true, disjointOrSame_eq_true_iff, disjointOrSame_eq_true_iff, not_or]⟩

theorem aeadRefusals_failsWhen (xa : Reg) (sb sc : SpanReg) :
    List.Forall₂ FailsWhen (aeadRefusals s xa sb sc) (aeadPayloadChecks xa sb sc s) :=
  .cons (needPhase_failsWhen ..) <| .cons (lengthEq_failsWhen ..) <| .cons (needSpan_failsWhen ..) <|
    .cons (needSpan_failsWhen ..) <| .cons (needSpan_failsWhen ..) <| .cons (aeadDistinct_failsWhen ..) <|
    .cons (counterFits_failsWhen ..) .nil

/-- The conditions of a command's rule are its checks, one by one; RDSR and KDF.CFG have one check more, of an immediate that
a decoded command has in range. -/
theorem refusals_failsWhen {i : Instr} (hwf : i.wellFormed = true) :
    ∃ cs, firstFailing (checksOf s i) = firstFailing cs ∧ List.Forall₂ FailsWhen (refusals s i) cs := by
  cases i
  case rdsr xa imm8 =>
    have hok : statusNumberOk imm8 = true := hwf
    exact ⟨[], by rw [checksOf, rdsrChecks, hok]; rfl, .nil⟩
  case kdfCfg sa xb imm8 =>
    have hok : variantNumberOk imm8 = true := hwf
    refine ⟨_, by rw [checksOf, kdfCfgChecks, hok, firstFailing], .cons ?_ <| .cons (needSpan_failsWhen ..) .nil⟩
    have hmax : (if imm8 = 0 then 64 else 32) = (variantOf imm8).maxLen := by
      rw [variantOf_maxLen]
      exact if_congr (BitVec.toNat_inj (y := 0)).symm rfl rfl
    rw [hmax]
    exact hashLengths_failsWhen ..
  all_goals refine ⟨_, rfl, ?_⟩
  case b2bInit | b2sInit => exact .cons (hashLengths_failsWhen ..) <| .cons (needSpan_failsWhen ..) .nil
  case b2Update | b2Final | p13Update | p13Final =>
    exact .cons (needPhase_failsWhen ..) <| .cons (needSpan_failsWhen ..) .nil
  case cc20Init | xcc20Init =>
    exact .cons (lengthsEq_failsWhen ..) <| .cons (needSpan_failsWhen ..) <| .cons (needSpan_failsWhen ..) .nil
  case ccXform =>
    exact .cons (needPhase_failsWhen ..) <| .cons (needSpan_failsWhen ..) <| .cons (needSpan_failsWhen ..) <|
      .cons (disjointOrSame_failsWhen ..) <| .cons (callerCounter_failsWhen ..) <| .cons (counterFits_failsWhen ..) .nil
  case p13Init => exact .cons (lengthEq_failsWhen ..) <| .cons (needSpan_failsWhen ..) .nil
  case aeadInit =>
    exact .cons (lengthsEq_failsWhen ..) <| .cons (needSpan_failsWhen ..) <| .cons (needSpan_failsWhen ..) <|
      .cons (needSpan_failsWhen ..) .nil
  case aeadEnc | aeadDec => exact aeadRefusals_failsWhen ..
  case pbkdf2 =>
    exact .cons (needPhase_failsWhen ..) <| .cons (pbkdf2Count_failsWhen ..) <| .cons (needSpan_failsWhen ..) <|
      .cons (needSpan_failsWhen ..) <| .cons (overlap_failsWhen ..) .nil
  case hkdf =>
    exact .cons (needPhase_failsWhen ..) <| .cons (hkdfCount_failsWhen ..) <| .cons (needSpan_failsWhen ..) <|
      .cons (needSpan_failsWhen ..) <| .cons (overlap_failsWhen ..) .nil
  case modinv => exact .cons (odd_failsWhen ..) .nil
  case cteq => exact .cons (needSpan_failsWhen ..) <| .cons (needSpan_failsWhen ..) .nil
  case xorb =>
    exact .cons (lengthEq_failsWhen ..) <| .cons (needSpan_failsWhen ..) <| .cons (needSpan_failsWhen ..) <|
      .cons (needSpan_failsWhen ..) <| .cons (xorbDistinct_failsWhen ..) .nil
  all_goals exact .nil
end

/-- Settles O12: the checks are sorted, so the first that fails has priority; and the rule's conditions are the checks. -/
theorem firstFailingCheckIsReported : Obligations.FirstFailingCheckIsReported := by
  refine fun i s => ⟨checksOf_sorted s i, fun t h hnok => ?_, fun hwf => ?_⟩
  · obtain ⟨e, hfail, rfl⟩ | ⟨-, rfl, -, -⟩ | ⟨xa, sb, sc, -, ha, -, rfl⟩ := exec_cases h
    · exact ⟨e, rfl, rfl, .inl (mem_of_firstFailing hfail), priority_le_of_firstFailing hfail⟩
    · exact absurd rfl hnok
    · exact ⟨.authentication, rfl, rfl, .inr ⟨rfl, ha⟩, fun c hc hfail => absurd (ha c hc) (by simp [hfail])⟩
  · obtain ⟨cs, hcs, hmatch⟩ := refusals_failsWhen s hwf
    refine ⟨fun before P e after hr hbefore hP => ?_, fun hnone t h => ?_⟩
    · exact ⟨_, exec_raise (hcs.trans (firstFailing_of_failsWhen (hr ▸ hmatch) hbefore hP)), raise_raisedOnly ..⟩
    · obtain ⟨e, hfail, -⟩ | ⟨-, rfl, -, -⟩ | ⟨xa, sb, sc, hi, -, -, rfl⟩ := exec_cases h
      · nomatch (hcs.trans (firstFailing_of_no_refusal hmatch hnone)).symm.trans hfail
      · exact .inl rfl
      · exact .inr ⟨rfl, xa, sb, sc, hi⟩

/-! ## Which errors a command raises (spec/60_exceptions.md R342, R346) -/

/-- The check of an immediate passes for a decoded command. -/
theorem not_illegalCmd_of_wellFormed {i : Instr} (s : State) (hwf : i.wellFormed = true) :
    (false, Error.usage .illegalCmd) ∉ checksOf s i := by
  intro hmem
  have herr : Error.usage .illegalCmd ∈ errorsOf i := map_snd_checksOf s i ▸ List.mem_map_of_mem hmem
  cases i
  case rdsr xa imm8 =>
    have hok : statusNumberOk imm8 = true := hwf
    simp [checksOf, rdsrChecks, hok] at hmem
  case kdfCfg sa xb imm8 =>
    have hok : variantNumberOk imm8 = true := hwf
    simp [checksOf, kdfCfgChecks, needLength, needSpan, hok] at hmem
  all_goals simp [errorsOf] at herr

/-- A payload whose counter does not fit lies outside BUF, which is reported first (R223, last check). -/
theorem firstFailing_aeadPayload_ne_overflow {i : Instr} {s : State} {xa : Reg} {sb sc : SpanReg} (hcfg : s.cfg.wf)
    (hi : checksOf s i = aeadPayloadChecks xa sb sc s) : firstFailing (checksOf s i) ≠ some .arithmeticOverflow := by
  intro h
  have hfits : counterFits s.aead.payloadCounter (s.spanLen sb) = false := by
    simpa [hi, aeadPayloadChecks, needPhase, needLength, needSpan, needDistinct, needNoOverflow] using mem_of_firstFailing h
  have hspan : s.spanOk (s.spanAddr sb) (s.spanLen sb) = false :=
    Bool.eq_false_iff.mpr fun hok => Bool.eq_false_iff.mp hfits (payloadCounter_fits hcfg hok)
  have hle : Error.arithmeticOverflow.priority ≤ (Error.usage .badSpan).priority :=
    priority_le_of_firstFailing h (needSpan s (s.spanAddr sb) (s.spanLen sb)) (by simp [hi, aeadPayloadChecks]) hspan
  exact absurd hle (by decide)

/-- The error of the first failing check is one that the command's row of R342 lists. -/
theorem mem_mayRaise_of_firstFailing {i : Instr} {s : State} {e : Error} (hwf : i.wellFormed = true) (hcfg : s.cfg.wf)
    (h : firstFailing (checksOf s i) = some e) : e ∈ mayRaise i := by
  have hmem := mem_of_firstFailing h
  have herr : e ∈ errorsOf i := map_snd_checksOf s i ▸ List.mem_map_of_mem hmem
  have hlegal : e ≠ .usage .illegalCmd := by
    rintro rfl
    exact not_illegalCmd_of_wellFormed s hwf hmem
  cases i
  case rdsr => exact absurd (List.mem_singleton.mp herr) hlegal
  case aeadEnc | aeadDec =>
    have hfits : e ≠ .arithmeticOverflow := by
      rintro rfl
      exact firstFailing_aeadPayload_ne_overflow hcfg rfl h
    simp only [errorsOf, mayRaise, List.mem_cons, hfits, List.not_mem_nil] at herr ⊢
    tauto
  case b2bInit | b2sInit | b2Update | b2Final | cc20Init | xcc20Init | ccXform | p13Init | p13Update | p13Final | aeadInit
      | kdfCfg | pbkdf2 | hkdf | modinv | cteq | xorb =>
    simpa [errorsOf, mayRaise, hlegal] using herr
  all_goals nomatch herr

/-- Settles O13: by the ways a command can end. -/
theorem commandsRaiseOnlyTheirOwnErrors : Obligations.CommandsRaiseOnlyTheirOwnErrors := by
  intro i s t hwf hcfg h
  obtain ⟨e, hfail, rfl⟩ | ⟨-, rfl, -, -⟩ | ⟨xa, sb, sc, rfl, -, -, rfl⟩ := exec_cases h
  · exact .inr ⟨e, mem_mayRaise_of_firstFailing hwf hcfg hfail, rfl, rfl⟩
  · exact .inl rfl
  · exact .inr ⟨.authentication, by simp [mayRaise], rfl, rfl⟩

end Sys2Proof.Machine
end

section
/-! Reset, and what no other event of the host can end (spec/10_state.md R25, R27, R45; spec/70_reset_and_hazards.md R380,
R381). -/

namespace Sys2Proof.Machine

/-! ## The reset event -/

/-- A reset leaves every field at the value of R45: what differs from `State.reset` (parameters, count of resets, port) is no
state of the CORE. -/
theorem afterReset_atReset (cfg : Config) (resets : Nat) (port : List HostEvent) :
    AtReset (State.afterReset cfg resets port) :=
  { reset_atReset with buf := fun _ => rfl }

/-- Settles O9: the step is `State.afterReset` of the next epoch. -/
theorem resetEventClearsAllState : Obligations.ResetEventClearsAllState := by
  intro s rest hp
  exact ⟨_, step_reset hp, afterReset_atReset .., rfl, rfl, rfl⟩

/-! ## Every other step -/

/-- No session goes back to IDLE: each that is idle in `t` was idle in `s`. -/
def KeepsStarted (s t : State) : Prop :=
  (t.b2.phase = .idle → s.b2.phase = .idle) ∧ (t.cc.phase = .idle → s.cc.phase = .idle)
    ∧ (t.p13.phase = .idle → s.p13.phase = .idle) ∧ (t.aead.phase = .idle → s.aead.phase = .idle)
    ∧ (t.kdf.phase = .idle → s.kdf.phase = .idle)

section
variable {i : Instr} {s : State}

theorem effectOf_b2_idle (h : (effectOf i s).b2.phase = .idle) : s.b2.phase = .idle := by
  by_cases hw : writesEngine i = some .blake2
  · cases i
    case b2bInit | b2sInit =>
      simp only [effectOf, b2InitEffect, init_phase] at h
      nomatch h
    case b2Update =>
      simp only [effectOf, b2UpdateEffect, absorb_phase] at h
      exact h
    case b2Final =>
      simp only [effectOf, b2FinalEffect, memWrite_b2, finish_phase] at h
      nomatch h
    all_goals nomatch hw
  · rwa [effectOf_b2 i s hw] at h

theorem effectOf_cc_idle (h : (effectOf i s).cc.phase = .idle) : s.cc.phase = .idle := by
  by_cases hw : writesEngine i = some .chacha
  · cases i
    case cc20Init | xcc20Init => nomatch h
    all_goals nomatch hw
  · rwa [effectOf_cc i s hw] at h

theorem effectOf_p13_idle (h : (effectOf i s).p13.phase = .idle) : s.p13.phase = .idle := by
  by_cases hw : writesEngine i = some .poly1305
  · cases i
    case p13Init => nomatch h
    case p13Update =>
      simp only [effectOf, p13UpdateEffect] at h
      exact h
    case p13Final xa => nomatch (effectOf_p13Final_phase s xa).symm.trans h
    all_goals nomatch hw
  · rwa [effectOf_p13 i s hw] at h

theorem effectOf_aead_idle (h : (effectOf i s).aead.phase = .idle) : s.aead.phase = .idle := by
  by_cases hw : writesEngine i = some .aead
  · cases i
    case aeadInit => nomatch h
    case aeadEnc xa sb sc => nomatch (effectOf_aeadEnc_phase s xa sb sc).symm.trans h
    case aeadDec xa sb sc => nomatch (effectOf_aeadDec_phase s xa sb sc).symm.trans h
    all_goals nomatch hw
  · rwa [effectOf_aead i s hw] at h

theorem effectOf_kdf_idle (h : (effectOf i s).kdf.phase = .idle) : s.kdf.phase = .idle := by
  by_cases hw : writesEngine i = some .kdf
  · cases i
    case kdfCfg => nomatch h
    all_goals nomatch hw
  · rwa [effectOf_kdf i s hw] at h

/-- A command starts, feeds or ends a session; none sets it idle. -/
theorem exec_keepsStarted {t : State} (h : exec i s = .next t) : KeepsStarted s t := by
  obtain ⟨e, -, rfl⟩ | ⟨-, rfl, -, -⟩ | ⟨xa, sb, sc, -, -, -, rfl⟩ := exec_cases h
  · exact ⟨id, id, id, id, id⟩
  · exact ⟨effectOf_b2_idle, effectOf_cc_idle, effectOf_p13_idle, effectOf_aead_idle, effectOf_kdf_idle⟩
  · exact ⟨id, id, id, nofun, id⟩
end

theorem word_or_and_self (x f : Word) : (x ||| f) &&& x = x := by rw [BitVec.or_comm, or_flag_and_flag]

/-- Every bit that is set in SR0 stays set, but for CLRERR. -/
theorem exec_errflags_sticky {i : Instr} {s t : State} (h : exec i s = .next t) (hi : i ≠ .clrerr) :
    t.errflags &&& s.errflags = s.errflags := by
  obtain ⟨-, hkeeps, -⟩ | ⟨e, -, hflags, -⟩ := errorRecordIsSticky i s t h
  · obtain ⟨hflags, -, -⟩ := hkeeps hi
    rw [hflags, BitVec.and_self]
  · rw [hflags, word_or_and_self]

/-- Settles O10: by the event that the step takes; a word that decodes to CLRERR is CLRERR's own. -/
theorem onlyResetEndsSessionsAndCount : Obligations.OnlyResetEndsSessionsAndCount := by
  intro s t h hreset
  obtain ⟨-, rfl⟩ | ⟨w, rest, i, hp, hd, he⟩ | ⟨w, rest, e, -, -, rfl⟩ | ⟨a, bs, rest, -, -, rfl⟩ | ⟨rest, hp, -⟩ :=
    step_next_cases h
  · exact ⟨⟨id, id, id, id, id⟩, .inl rfl, fun _ => BitVec.and_self⟩
  · obtain ⟨hcnt, -⟩ := exec_counts_and_keepsEnv he
    refine ⟨(exec_keepsStarted he :), .inr hcnt, fun hclr => (exec_errflags_sticky he ?_ :)⟩
    rintro rfl
    obtain ⟨rfl, -⟩ := encodeOfDecode w _ hd
    exact hclr rest hp
  · exact ⟨⟨id, id, id, id, id⟩, .inr rfl, fun _ => word_or_and_self ..⟩
  · exact ⟨⟨id, id, id, id, id⟩, .inl rfl, fun _ => BitVec.and_self⟩
  · exact absurd hp (hreset rest)

end Sys2Proof.Machine
end

section
/-! No byte of BUF decides what a command reports, but for AEAD.DEC's tag and CTEQ's result (spec/60_exceptions.md R345;
spec/70_reset_and_hazards.md R386). -/

namespace Sys2Proof.Machine

/-- The state with other contents of BUF. -/
def State.withBuf (s : State) (m : Memory) : State := { s with buf := m }

section
variable (s : State) (m : Memory) (r : Reg)
@[simp] theorem withBuf_x : (s.withBuf m).x = s.x := rfl
@[simp] theorem withBuf_b2 : (s.withBuf m).b2 = s.b2 := rfl
@[simp] theorem withBuf_cc : (s.withBuf m).cc = s.cc := rfl
@[simp] theorem withBuf_p13 : (s.withBuf m).p13 = s.p13 := rfl
@[simp] theorem withBuf_aead : (s.withBuf m).aead = s.aead := rfl
@[simp] theorem withBuf_kdf : (s.withBuf m).kdf = s.kdf := rfl
@[simp] theorem withBuf_pcg : (s.withBuf m).pcg = s.pcg := rfl
@[simp] theorem getX_withBuf : (s.withBuf m).getX r = s.getX r := rfl
@[simp] theorem xNat_withBuf : (s.withBuf m).xNat r = s.xNat r := rfl
@[simp] theorem spanLen_withBuf : (s.withBuf m).spanLen r = s.spanLen r := rfl
@[simp] theorem pcgBounds_withBuf (q : Reg) : pcgBounds r q (s.withBuf m) = pcgBounds r q s := rfl
end

/-- The checks of a command read registers and sessions, not the bytes of BUF. -/
theorem checksOf_withBuf (s : State) (m : Memory) (i : Instr) : checksOf (s.withBuf m) i = checksOf s i := by
  cases i <;> rfl

/-! ## What a BLAKE2 session's phase and buffering depend on -/

/-- A session's phase, variant and buffering: what SR3 shows of it, and what decides when a block is compressed. -/
def Blake2.control (b : Blake2) : SessionPhase × Variant × Bool × Nat := (b.phase, b.var, b.cfb, b.fill)

theorem control_eq_iff {b c : Blake2} :
    b.control = c.control ↔ b.phase = c.phase ∧ b.var = c.var ∧ b.cfb = c.cfb ∧ b.fill = c.fill := by
  simp only [Blake2.control, Prod.mk.injEq]

/-- A byte is buffered, or compressed, whatever its value. -/
theorem absorbByte_control {b c : Blake2} (h : b.control = c.control) (d e : Byte) :
    (b.absorbByte d).control = (c.absorbByte e).control := by
  obtain ⟨hphase, hvar, hcfb, hfill⟩ := control_eq_iff.mp h
  simp only [control_eq_iff, absorbByte_phase, absorbByte_var, hphase, hvar, true_and]
  simp only [Blake2.absorbByte, hvar, hfill]
  split
  · exact ⟨rfl, rfl⟩
  · exact ⟨hcfb, congrArg (· + 1) hfill⟩

/-- Byte strings of one length leave the same phase and buffering. -/
theorem absorb_control {b c : Blake2} (h : b.control = c.control) {xs ys : Bytes} (hlen : xs.length = ys.length) :
    (b.absorb xs).control = (c.absorb ys).control := by
  induction xs generalizing b c ys with
  | nil =>
    obtain rfl : ys = [] := List.length_eq_zero_iff.mp hlen.symm
    exact h
  | cons x xs ih =>
    obtain ⟨y, ys, rfl⟩ := List.exists_cons_of_length_eq_add_one hlen.symm
    exact ih (absorbByte_control h x y) (Nat.succ.inj hlen)

theorem init_control (b : Blake2) (var : Variant) (ol : Nat) {xs ys : Bytes} (hlen : xs.length = ys.length) :
    (b.init var xs ol).control = (b.init var ys ol).control := by
  simp only [control_eq_iff, init_phase, init_var, true_and]
  simp only [Blake2.init, hlen]
  split
  · exact ⟨rfl, rfl⟩
  · exact ⟨rfl, rfl⟩

/-! ## What an effect leaves, but for the bytes -/

section
variable (i : Instr) (s : State) (m : Memory)

theorem effectOf_record_withBuf : (effectOf i (s.withBuf m)).errflags = (effectOf i s).errflags
    ∧ (effectOf i (s.withBuf m)).lasterr = (effectOf i s).lasterr
    ∧ (effectOf i (s.withBuf m)).lastcmd = (effectOf i s).lastcmd := by
  by_cases hi : i = .clrerr
  · subst hi; exact ⟨rfl, rfl, rfl⟩
  · rw [effectOf_errflags _ _ hi, effectOf_errflags _ _ hi, effectOf_lasterr _ _ hi, effectOf_lasterr _ _ hi,
      effectOf_lastcmd _ _ hi, effectOf_lastcmd _ _ hi]
    exact ⟨rfl, rfl, rfl⟩

/-- PCG.RANGE's loop runs on the generator and the registers. -/
theorem effectOf_pcgRange_withBuf (xa xb xc : Reg) :
    effectOf (.pcgRange xa xb xc) (s.withBuf m) = (effectOf (.pcgRange xa xb xc) s).withBuf m := by
  simp only [effectOf, withBuf_pcg, pcgBounds_withBuf]
  split <;> rfl

theorem effectOf_pcg_withBuf : (effectOf i (s.withBuf m)).pcg = (effectOf i s).pcg := by
  by_cases hw : writesEngine i = some .pcg
  · cases i
    case pcgRange => rw [effectOf_pcgRange_withBuf, withBuf_pcg]
    case pcgSeed | pcgNext | pcgJump => rfl
    all_goals nomatch hw
  · rw [effectOf_pcg i _ hw, effectOf_pcg i _ hw, withBuf_pcg]

/-- CTEQ's is the only result in a register that depends on BUF. -/
theorem effectOf_x_withBuf (hi : ∀ xa sb sc, i ≠ .cteq xa sb sc) :
    (effectOf i (s.withBuf m)).x = (effectOf i s).x := by
  cases i
  case cteq => exact absurd rfl (hi _ _ _)
  case pcgRange => rw [effectOf_pcgRange_withBuf, withBuf_x]
  case ccXform =>
    simp only [effectOf, ccXformEffect, setXNat_x, memWrite_x, withBuf_x, xNat_withBuf, spanLen_withBuf]
  case ldi | lds | mov | rdsr | pcgNext | pcgGets | rotl32 | rotr32 | rotl64 | rotr64 | lzcnt32 | lzcnt64 | tzcnt32
      | tzcnt64 | popcnt32 | popcnt64 | log2f | log2c | ispow2 | gcd | modinv =>
    rfl
  all_goals exact (effectOf_x _ _ rfl).trans (effectOf_x _ s rfl).symm

theorem effectOf_b2_control_withBuf : (effectOf i (s.withBuf m)).b2.control = (effectOf i s).b2.control := by
  by_cases hw : writesEngine i = some .blake2
  · cases i
    case b2bInit sa xb | b2sInit sa xb =>
      simp only [effectOf, b2InitEffect, withBuf_b2, xNat_withBuf]
      exact init_control _ _ _ (by simp only [length_readSpan, spanLen_withBuf])
    case b2Update sa =>
      simp only [effectOf, b2UpdateEffect, withBuf_b2]
      exact absorb_control rfl (by simp only [length_readSpan, spanLen_withBuf])
    case b2Final xa => simp only [effectOf, b2FinalEffect, memWrite_b2, withBuf_b2]
    all_goals nomatch hw
  · rw [effectOf_b2 i _ hw, effectOf_b2 i _ hw, withBuf_b2]

theorem effectOf_cc_withBuf : (effectOf i (s.withBuf m)).cc.phase = (effectOf i s).cc.phase
    ∧ (effectOf i (s.withBuf m)).cc.var = (effectOf i s).cc.var := by
  by_cases hw : writesEngine i = some .chacha
  · cases i
    case cc20Init | xcc20Init => simp only [effectOf, cc20InitEffect, xcc20InitEffect, and_self]
    all_goals nomatch hw
  · rw [effectOf_cc i _ hw, effectOf_cc i _ hw, withBuf_cc]
    exact ⟨rfl, rfl⟩

theorem effectOf_p13_phase_withBuf : (effectOf i (s.withBuf m)).p13.phase = (effectOf i s).p13.phase := by
  by_cases hw : writesEngine i = some .poly1305
  · cases i
    case p13Init | p13Update | p13Final =>
      simp only [effectOf, p13InitEffect, p13UpdateEffect, p13FinalEffect, memWrite_p13, withBuf_p13]
    all_goals nomatch hw
  · rw [effectOf_p13 i _ hw, effectOf_p13 i _ hw, withBuf_p13]

theorem effectOf_aead_phase_withBuf : (effectOf i (s.withBuf m)).aead.phase = (effectOf i s).aead.phase := by
  by_cases hw : writesEngine i = some .aead
  · cases i
    case aeadInit | aeadEnc | aeadDec =>
      simp only [effectOf, aeadInitEffect, aeadEncEffect, aeadDecEffect, memWrite_aead, Aead.init, Aead.complete]
    all_goals nomatch hw
  · rw [effectOf_aead i _ hw, effectOf_aead i _ hw, withBuf_aead]

theorem effectOf_kdf_withBuf : (effectOf i (s.withBuf m)).kdf.phase = (effectOf i s).kdf.phase
    ∧ (effectOf i (s.withBuf m)).kdf.var = (effectOf i s).kdf.var := by
  by_cases hw : writesEngine i = some .kdf
  · cases i
    case kdfCfg => simp only [effectOf, kdfCfgEffect, and_self]
    all_goals nomatch hw
  · rw [effectOf_kdf i _ hw, effectOf_kdf i _ hw, withBuf_kdf]
    exact ⟨rfl, rfl⟩

/-- SR3 shows phases and variants, and none depends on the bytes. -/
theorem effectOf_phaseWord_withBuf : (effectOf i (s.withBuf m)).phaseWord = (effectOf i s).phaseWord := by
  obtain ⟨hb2phase, hb2var, hb2cfb, -⟩ := control_eq_iff.mp (effectOf_b2_control_withBuf i s m)
  obtain ⟨hccphase, hccvar⟩ := effectOf_cc_withBuf i s m
  obtain ⟨hkdfphase, hkdfvar⟩ := effectOf_kdf_withBuf i s m
  simp only [State.phaseWord, hb2phase, hb2var, hb2cfb, hccphase, hccvar, effectOf_p13_phase_withBuf,
    effectOf_aead_phase_withBuf, hkdfphase, hkdfvar]
end

/-- A register that is not CTEQ's destination. -/
theorem effectOf_getX_withBuf (i : Instr) (s : State) (m : Memory) (r : Reg) (hr : ∀ sb sc, i ≠ .cteq r sb sc) :
    (effectOf i (s.withBuf m)).getX r = (effectOf i s).getX r := by
  by_cases hd : destRegister i = some r
  · have hi : ∀ xa sb sc, i ≠ .cteq xa sb sc := by
      rintro xa sb sc rfl
      cases hd
      exact hr sb sc rfl
    rw [State.getX, effectOf_x_withBuf i s m hi, State.getX]
  · rw [effectOf_getX i _ r hd, effectOf_getX i _ r hd, getX_withBuf]

/-- Settles O59: both runs fail the same check first, or both have their effect, and the effects agree but for bytes. -/
theorem outcomeDoesNotDependOnBufBytes : Obligations.OutcomeDoesNotDependOnBufBytes := by
  intro i s t t' m hi h h'
  replace h' : exec i (s.withBuf m) = .next t' := h'
  obtain ⟨e, hfail, rfl⟩ | ⟨ha, rfl, -, -⟩ | ⟨xa, sb, sc, hdec, -⟩ := exec_cases h
  · rw [exec_raise ((congrArg firstFailing (checksOf_withBuf s m i)).trans hfail)] at h'
    cases h'
    exact ⟨rfl, rfl, rfl, rfl, rfl, rfl, fun _ _ => rfl, rfl⟩
  · have ha' : Accepts (s.withBuf m) i := by rwa [Accepts, checksOf_withBuf]
    obtain ⟨e, hfail, -⟩ | ⟨-, rfl, -, -⟩ | ⟨xa, sb, sc, hdec, -⟩ := exec_cases h'
    · nomatch ((accepts_iff ..).mp ha').symm.trans hfail
    · obtain ⟨hflags, herr, hcmd⟩ := effectOf_record_withBuf i s m
      refine ⟨rfl, hflags, herr, hcmd, ?_, effectOf_pcg_withBuf i s m, fun r hr => effectOf_getX_withBuf i s m r hr,
        effectOf_phaseWord_withBuf i s m⟩
      rw [retire_cmdcnt, retire_cmdcnt, effectOf_cmdcnt, effectOf_cmdcnt]
      rfl
    · exact absurd hdec (hi xa sb sc)
  · exact absurd hdec (hi xa sb sc)

end Sys2Proof.Machine
end
